-- ==== Sys2Proof/Word.lean ====
section
/-! DEFINITION. The word types: a byte, an address, an image (a pattern string of `spec/30_encoding.md`). -/

namespace Sys2Proof

/-- A byte: an unsigned integer 0..255, bit 7 most significant (R12). -/
abbrev Byte := BitVec 8

/-- A pattern string of R70: one Bool a character, the leftmost character first (first in time for a wire
format, most significant for a data format). `true` is a high line level or a 1 bit (R12). -/
abbrev Image := List Bool

end Sys2Proof
end

