-- ==== Sys2Proof/Syntax.lean ====
section
/-! DEFINITION. The operations of the block and its caller (`spec/opcode_table.json`, R84), one constructor per
row, and the operation word: an image and the place it stands in. -/

namespace Sys2Proof

/-- The operations of R84, in the order of `spec/opcode_table.json`. An argument is a field of the row's
pattern. In `sense`, `rxbit`, `rxbyte`, `irqExit` and `relayReply` the field is what the operation DELIVERS (R92:
"Operands: none; result `p`"), so no meaning reads it (DEDUCED, log 6). -/
inductive Instr where
  /-- `DRIVE_LOW`, R90. -/
  | driveLow
  /-- `RELEASE`, R91. -/
  | release
  /-- `SENSE -> p`, R92. -/
  | sense (p : Bool)
  /-- `TX0`, R100. -/
  | tx0
  /-- `TX1`, R101. -/
  | tx1
  /-- `TXSTOP`, R104. -/
  | txstop
  /-- `WAIT_HIGH`, R111. -/
  | waitHigh
  /-- `WAIT_LOW`, R112. -/
  | waitLow
  /-- `RXBIT -> d`, R113. -/
  | rxbit (d : Bool)
  /-- `TXBYTE(v)`, R103. -/
  | txbyte (v : Byte)
  /-- `RXBYTE -> v`, R114. -/
  | rxbyte (v : Byte)
  /-- `INJECT_HI`, R115. -/
  | injectHi
  /-- `INJECT_LO`, R116. -/
  | injectLo
  /-- `IRQ_ENTER`, R130. -/
  | irqEnter
  /-- `IRQ_EXIT`, R131; `s` is the bit it writes to IE. -/
  | irqExit (s : Bool)
  /-- `TRANSACT(cmd_base, N, resp_base, M)`, R128; the two base addresses stand on the ports (R20). -/
  | transact (n m : Byte)
  /-- `RELAY_FRAME`, R143; `n`, `m` are the two header bytes. -/
  | relayFrame (n m : Byte)
  /-- `RELAY_REPLY`, R145; `v` is one byte of the reply. -/
  | relayReply (v : Byte)
  /-- `RELAY_DROP`, R146. -/
  | relayDrop
  deriving DecidableEq, Repr

/-- The six formats of R70. -/
inductive Format where
  | sym4
  | byte32
  | lvl1
  | data8
  | bit1
  | hdr16
  deriving DecidableEq, Repr

/-- Where an image stands: in the machine it is the place (which register, which side of the wire, which
phase, which agent) that tells apart operations whose images are the same characters (R70, R77, R84).
DESIGN CHOICE (log 7). -/
inductive Site where
  /-- the control bit written to `DIR` (R77) -/
  | pinDirection
  /-- the level read by `SENSE` (R92) -/
  | pinLevel
  /-- the level that ends a receive wait (R111, R112) -/
  | waitLevel
  /-- a data symbol the block sends (R100, R101) -/
  | txSymbol
  /-- the stop symbol the block sends (R104) -/
  | txStop
  /-- a symbol the block receives (R113) -/
  | rxSymbol
  /-- a command byte on the wire (R103) -/
  | txByte
  /-- a response byte on the wire (R114) -/
  | rxByte
  /-- a sentinel in the response byte's slot (R75) -/
  | respSlot
  /-- the control bit written to IE when a transaction is entered (R130) -/
  | irqEntry
  /-- the control bit written to IE when a transaction is left (R131) -/
  | irqLeave
  /-- N and M presented to the block (R128) -/
  | blockHeader
  /-- the header of a host frame (R76, R143) -/
  | hostHeader
  /-- a byte of the reply to the host (R76, R145) -/
  | hostReply
  /-- the empty reply of a dropped frame (R146) -/
  | hostDrop
  deriving DecidableEq, Repr

/-- An operation word: an image at its site. -/
structure OpWord where
  site  : Site
  image : Image
  deriving DecidableEq, Repr

/-- Why a word is no operation of the table. -/
inductive Reject where
  /-- the image has not the number of characters its format has (R70) -/
  | wrongLength
  /-- slot 0 of a symbol is high; "slot 0 is always low" (R71) -/
  | slot0High
  /-- slot 3 of a symbol is low; "slot 3 is always high" (R71) -/
  | slot3Low
  /-- slots 1 and 2 of a symbol differ; they "both carry the bit" (R71) -/
  | slotsDiffer
  /-- the stop symbol carries a 0; it is "fixed at logic 1" (R104) -/
  | stopNotOne
  /-- the response slot holds neither of the two reserved values (R75) -/
  | notSentinel
  /-- the bit written to IE on entry is not 0 (R130) -/
  | entryNotZero
  deriving DecidableEq, Repr

end Sys2Proof
end

