-- ==== Sys2Proof/WellFormed.lean ====
section
/-! DEFINITION. Which operation words are well formed, read from the formats of R70 to R77 (not from the decoder).
Every `Instr` is well formed by its types: no operand value is illegal (R80). -/

namespace Sys2Proof

/-- The number of characters of an image in each format (R70). -/
def Format.chars : Format → Nat
  | .sym4 => 4
  | .byte32 => 32
  | .lvl1 => 1
  | .data8 => 8
  | .bit1 => 1
  | .hdr16 => 16

/-- The format an image at a site has (R84). -/
def Site.format : Site → Format
  | .pinDirection => .bit1
  | .pinLevel => .lvl1
  | .waitLevel => .lvl1
  | .txSymbol => .sym4
  | .txStop => .sym4
  | .rxSymbol => .sym4
  | .txByte => .byte32
  | .rxByte => .byte32
  | .respSlot => .data8
  | .irqEntry => .bit1
  | .irqLeave => .bit1
  | .blockHeader => .hdr16
  | .hostHeader => .hdr16
  | .hostReply => .data8
  | .hostDrop => .data8

/-- The number of characters of an image at a site: its format's, but none for a dropped frame's reply, whose
image is "zero bytes" (R146). -/
def Site.chars (s : Site) : Nat := if s = .hostDrop then 0 else s.format.chars

/-- The length of an image is the one its site has. -/
def OpWord.lengthOk (w : OpWord) : Bool := w.image.length == w.site.chars

/-- Slot `i` of a wire image. -/
def OpWord.slot (w : OpWord) (i : Nat) : Bool := w.image.getD i false

/-- Whether a site's image is made of symbols. -/
def Site.symbolic (s : Site) : Bool := s.format == .sym4 || s.format == .byte32

/-- R71: slot 0 of every symbol is low. -/
def OpWord.slot0Ok (w : OpWord) : Bool :=
  !w.site.symbolic || (List.range (w.image.length / 4)).all (fun k => !w.slot (4 * k))

/-- R71: slot 3 of every symbol is high. -/
def OpWord.slot3Ok (w : OpWord) : Bool :=
  !w.site.symbolic || (List.range (w.image.length / 4)).all (fun k => w.slot (4 * k + 3))

/-- R71: slots 1 and 2 of every symbol carry the same bit. -/
def OpWord.dataSlotsOk (w : OpWord) : Bool :=
  !w.site.symbolic || (List.range (w.image.length / 4)).all (fun k => w.slot (4 * k + 1) == w.slot (4 * k + 2))

/-- R104: the stop bit is fixed at logic 1. -/
def OpWord.stopOk (w : OpWord) : Bool := w.site != .txStop || w.slot 1

/-- R75: the reserved values are 255 and 254, that is, bits 7 to 1 are all 1. -/
def OpWord.sentinelOk (w : OpWord) : Bool := w.site != .respSlot || (w.image.take 7).all id

/-- R130: the bit written to IE on entry is 0. -/
def OpWord.entryOk (w : OpWord) : Bool := w.site != .irqEntry || !w.slot 0

/-- A word is well formed iff it has its format's length and every fixed character of its pattern. -/
def OpWord.wf (w : OpWord) : Bool :=
  w.lengthOk && w.slot0Ok && w.slot3Ok && w.dataSlotsOk && w.stopOk && w.sentinelOk && w.entryOk

end Sys2Proof
end

