-- ==== Sys2Proof/Decode.lean ====
section
/-! DEFINITION. The decoder of operation words (total; it rejects by name) and, after it, the encoder, both from the
patterns of R70 to R77 and `spec/opcode_table.json`; and the host's numbering of a table word. -/

namespace Sys2Proof

/-- The eight bits of a byte, bit 7 first (R12, R72). -/
def bitsOfByte (v : Byte) : Image :=
  [v.getLsbD 7, v.getLsbD 6, v.getLsbD 5, v.getLsbD 4, v.getLsbD 3, v.getLsbD 2, v.getLsbD 1, v.getLsbD 0]

/-- The byte whose bits, most significant first, are the list (the last eight of it). -/
def byteOfBits (bs : Image) : Byte :=
  bs.foldl (fun v b => (v <<< 1) ||| BitVec.ofNat 8 b.toNat) 0

/-- One symbol `0dd1` (R71). -/
def decodeSymbol : Image → Except Reject Bool
  | [s0, s1, s2, s3] =>
    if s0 then .error .slot0High
    else if !s3 then .error .slot3Low
    else if s1 != s2 then .error .slotsDiffer
    else .ok s1
  | _ => .error .wrongLength

/-- `k` symbols back to back with no gap (R72). -/
def decodeSymbols : Nat → Image → Except Reject Image
  | 0, [] => .ok []
  | 0, _ => .error .wrongLength
  | k + 1, s0 :: s1 :: s2 :: s3 :: rest =>
    match decodeSymbol [s0, s1, s2, s3] with
    | .error e => .error e
    | .ok d =>
      match decodeSymbols k rest with
      | .error e => .error e
      | .ok ds => .ok (d :: ds)
  | _ + 1, _ => .error .wrongLength

/-- A data byte of eight bits, most significant first (R75, R76). -/
def decodeData (img : Image) : Except Reject Byte :=
  if img.length = 8 then .ok (byteOfBits img) else .error .wrongLength

/-- A control bit or a level. -/
def decodeBit : Image → Except Reject Bool
  | [b] => .ok b
  | _ => .error .wrongLength

/-- The two header bytes `nnnnnnnn mmmmmmmm` (R76). -/
def decodeHeader (img : Image) : Except Reject (Byte × Byte) :=
  if img.length = 16 then .ok (byteOfBits (img.take 8), byteOfBits (img.drop 8)) else .error .wrongLength

/-- The operation a word stands for, site by site (R84). -/
def decode (w : OpWord) : Except Reject Instr :=
  match w.site with
  | .pinDirection =>
    match decodeBit w.image with
    | .ok true => .ok .driveLow
    | .ok false => .ok .release
    | .error e => .error e
  | .pinLevel =>
    match decodeBit w.image with
    | .ok p => .ok (.sense p)
    | .error e => .error e
  | .waitLevel =>
    match decodeBit w.image with
    | .ok true => .ok .waitHigh
    | .ok false => .ok .waitLow
    | .error e => .error e
  | .txSymbol =>
    match decodeSymbol w.image with
    | .ok false => .ok .tx0
    | .ok true => .ok .tx1
    | .error e => .error e
  | .txStop =>
    match decodeSymbol w.image with
    | .ok true => .ok .txstop
    | .ok false => .error .stopNotOne
    | .error e => .error e
  | .rxSymbol =>
    match decodeSymbol w.image with
    | .ok d => .ok (.rxbit d)
    | .error e => .error e
  | .txByte =>
    match decodeSymbols 8 w.image with
    | .ok bs => .ok (.txbyte (byteOfBits bs))
    | .error e => .error e
  | .rxByte =>
    match decodeSymbols 8 w.image with
    | .ok bs => .ok (.rxbyte (byteOfBits bs))
    | .error e => .error e
  | .respSlot =>
    match decodeData w.image with
    | .ok v => if v = 255 then .ok .injectHi else if v = 254 then .ok .injectLo else .error .notSentinel
    | .error e => .error e
  | .irqEntry =>
    match decodeBit w.image with
    | .ok false => .ok .irqEnter
    | .ok true => .error .entryNotZero
    | .error e => .error e
  | .irqLeave =>
    match decodeBit w.image with
    | .ok s => .ok (.irqExit s)
    | .error e => .error e
  | .blockHeader =>
    match decodeHeader w.image with
    | .ok (n, m) => .ok (.transact n m)
    | .error e => .error e
  | .hostHeader =>
    match decodeHeader w.image with
    | .ok (n, m) => .ok (.relayFrame n m)
    | .error e => .error e
  | .hostReply =>
    match decodeData w.image with
    | .ok v => .ok (.relayReply v)
    | .error e => .error e
  | .hostDrop =>
    match w.image with
    | [] => .ok .relayDrop
    | _ => .error .wrongLength

/-- The image of one bit: `0dd1` (R71). -/
def symbolImage (d : Bool) : Image := [false, d, d, true]

/-- The image of one byte: eight symbols, bit 7 first (R72). -/
def byteImage (v : Byte) : Image := (bitsOfByte v).flatMap symbolImage

/-- The word of an operation (R84, `spec/opcode_table.json`). The two sentinels' images are the table's, the default
values of SENT_HI and SENT_LO (R115, R116; log 11). -/
def encode : Instr → OpWord
  | .driveLow => ⟨.pinDirection, [true]⟩
  | .release => ⟨.pinDirection, [false]⟩
  | .sense p => ⟨.pinLevel, [p]⟩
  | .tx0 => ⟨.txSymbol, symbolImage false⟩
  | .tx1 => ⟨.txSymbol, symbolImage true⟩
  | .txstop => ⟨.txStop, symbolImage true⟩
  | .waitHigh => ⟨.waitLevel, [true]⟩
  | .waitLow => ⟨.waitLevel, [false]⟩
  | .rxbit d => ⟨.rxSymbol, symbolImage d⟩
  | .txbyte v => ⟨.txByte, byteImage v⟩
  | .rxbyte v => ⟨.rxByte, byteImage v⟩
  | .injectHi => ⟨.respSlot, bitsOfByte 255⟩
  | .injectLo => ⟨.respSlot, bitsOfByte 254⟩
  | .irqEnter => ⟨.irqEntry, [false]⟩
  | .irqExit s => ⟨.irqLeave, [s]⟩
  | .transact n m => ⟨.blockHeader, bitsOfByte n ++ bitsOfByte m⟩
  | .relayFrame n m => ⟨.hostHeader, bitsOfByte n ++ bitsOfByte m⟩
  | .relayReply v => ⟨.hostReply, bitsOfByte v⟩
  | .relayDrop => ⟨.hostDrop, []⟩

/-- The lowest `k` bits of a number as an image, bit `k-1` first: the order in which the table numbers a
pattern's characters. -/
def imageOfNat : Nat → Nat → Image
  | 0, _ => []
  | k + 1, w => w.testBit k :: imageOfNat k w

/-- The operation word a bare table word stands for. A bare word names no site, and words of the same characters stand
in several rows; this is the one site chosen for each. A row whose pattern is shorter than a byte comes as eight bits:
255 and 254 are the sentinels, 0 and 1 the control bit of `DIR`, 7 the symbol `0111`, any other value a byte of the
reply (DESIGN CHOICE, log 7). -/
def tableWord (nbits w : Nat) : OpWord :=
  match nbits with
  | 0 => ⟨.hostDrop, []⟩
  | 1 => ⟨.pinDirection, imageOfNat 1 w⟩
  | 4 => ⟨.txSymbol, imageOfNat 4 w⟩
  | 8 =>
    if w = 255 ∨ w = 254 then ⟨.respSlot, imageOfNat 8 w⟩
    else if w ≤ 1 then ⟨.pinDirection, imageOfNat 1 w⟩
    else if w = 7 then ⟨.txSymbol, imageOfNat 4 w⟩
    else ⟨.hostReply, imageOfNat 8 w⟩
  | 16 => ⟨.blockHeader, imageOfNat 16 w⟩
  | 32 => ⟨.txByte, imageOfNat 32 w⟩
  | _ => ⟨.hostDrop, imageOfNat nbits w⟩

/-- The instruction the decoder reads from a bare table word (`tableWord`). -/
def decodeTableWord (nbits w : Nat) : Option Instr :=
  match decode (tableWord nbits w) with
  | .ok i => some i
  | .error _ => none

end Sys2Proof
end

