-- ==== Sys2Proof/Config.lean ====
section
/-! DEFINITION. The build-time parameters of R9, with R9's and R160's constraints carried as a proof, and the
one free value of the model (the line level the controller gives in a tick nobody scheduled); the transport's rate. -/

namespace Sys2Proof

/-- The raw parameters of R9, before their constraints are checked. `interGap` is the caller's parameter
INTER_GAP (R183, U22; log 13) and `readTimeout` the relay's parameter RELAY_READ_TIMEOUT (R141, U9; log 12), both in
ticks. `T`, `PERIOD`, `LOW0`, `LOW1` and `SAMPLE_DELAY` are derived from `fClkHz`. -/
structure Params where
  fClkHz   : Nat
  pollCap  : Nat
  sentHi   : Byte
  sentLo   : Byte
  stopTail : Nat
  pinSel   : Nat
  addrW    : Nat
  ieReset  : Bool
  interGap : Nat
  readTimeout : Nat
  deriving DecidableEq, Repr

/-- `T`, the clock ticks per microsecond (R9). -/
def Params.t (p : Params) : Nat := p.fClkHz / 1000000

/-- R9, R160: `F_CLK_HZ` is a positive multiple of 1,000,000. -/
def Params.clockOk (p : Params) : Bool := decide (0 < p.fClkHz) && decide (p.fClkHz % 1000000 = 0)

/-- R9: `POLL_CAP` is at least 1. -/
def Params.pollCapOk (p : Params) : Bool := decide (1 ≤ p.pollCap)

/-- R9: the two sentinels differ. -/
def Params.sentinelsOk (p : Params) : Bool := decide (p.sentLo ≠ p.sentHi)

/-- R9: `0 <= STOP_TAIL <= 3*T`. -/
def Params.stopTailOk (p : Params) : Bool := decide (p.stopTail ≤ 3 * p.t)

/-- R9: an address has at least 8 bits. -/
def Params.addrWOk (p : Params) : Bool := decide (8 ≤ p.addrW)

/-- A configuration is well formed iff every constraint of R9 holds (R160, D21). -/
def Params.wf (p : Params) : Bool :=
  p.clockOk && p.pollCapOk && p.sentinelsOk && p.stopTailOk && p.addrWOk

/-- A configuration: parameters together with the proof that they are well formed, "so an ill-formed
configuration cannot be built" (R160). -/
structure Config extends Params where
  ok : toParams.wf = true
  deriving DecidableEq, Repr

/-- The default configuration of `95_test_vectors.md`: `T = 1`, `POLL_CAP = 32*T`, sentinels 255 and 254,
`STOP_TAIL = 0`, `ADDR_W = 16` (R9). `F_CLK_HZ`, `PIN_SEL`, `IE_RESET`, `INTER_GAP` and
`RELAY_READ_TIMEOUT` are OPEN. DESIGN CHOICE (log 3): their values here. -/
def Config.default : Config where
  fClkHz := 1000000
  pollCap := 32
  sentHi := 255
  sentLo := 254
  stopTail := 0
  pinSel := 0
  addrW := 16
  ieReset := false
  interGap := 0
  readTimeout := 1000
  ok := by decide

/-- The free value: whether the controller pulls the line low in tick `k`, for a tick whose inputs nobody
scheduled. "To the block it is an oracle giving one bit ext_low(k) per tick k, under no law" (R8). No body:
nothing can be proved of it. DESIGN CHOICE (log 2). -/
opaque Config.extLow : Nat → Bool

/-- The rate at which the transport is opened, in bits per second (R140, R181). -/
def transportBitRate : Nat := 115200

/-- Bit times of one byte on the transport: a start bit, 8 data bits, no parity bit, 1 stop bit (R140, R195). -/
def transportByteBits : Nat := 1 + 8 + 0 + 1

/-- The most bytes the transport moves in a second (R195). The two queues of the model carry bytes with no rate
(R140; log 15). -/
def transportByteRate : Nat := transportBitRate / transportByteBits

end Sys2Proof
end

