-- ==== Sys2Proof/Machine/State.lean ====
section
/-! DEFINITION. The state of the block, of its buffer memory, of the controlling core's IE bit, of the relay (the
block's caller), and the inputs still to come; the reasons a step can stop; the state after reset. -/

namespace Sys2Proof.Machine

/-- The nine values of the sequencer state `ST` (R30). -/
inductive SeqState where
  | idle
  | arm
  | txLow
  | txHigh
  | stopLow
  | stopHigh
  | rxWaitHigh
  | rxWaitLow
  | rxDelay
  deriving DecidableEq, Repr

/-- The direction bit `DIR`: `input` releases the line, `output` pulls it low (R34, R77). -/
inductive Dir where
  | input
  | output
  deriving DecidableEq, Repr

/-- Where the relay is in its loop (R142). `transact` and `reply` are the two halves of `TRANSACT_AND_REPLY`:
the transaction still to be started (R144), and started, its reply still to be written (R145). -/
inductive RelayPhase where
  | waitHeader
  | waitCommand
  | transact
  | reply
  deriving DecidableEq, Repr

/-- What the caller's side does in one tick. The caller has a step only while `BUSY = 0` (R8), so the block
looks at it only in an `IDLE` tick (R129). One act a tick: `BUF` and `IE` "are never touched by two agents in the
same tick" (R171). DESIGN CHOICE (logs 10, 12). -/
inductive CallerAct where
  /-- nothing: `start = 0` (a read of command bytes in progress goes on by itself, R143) -/
  | quiet
  /-- `start = 1` with the four operand ports (R20) -/
  | start (cmdBase : Nat) (cmdLen : Byte) (respBase : Nat) (respLen : Byte)
  /-- the core writes its interrupt enable (R36) -/
  | setIe (v : Bool)
  /-- the caller writes a byte of `BUF` (R50, R180) -/
  | store (addr : Nat) (v : Byte)
  /-- the caller chooses the addresses it will present on `cmd_base` and `resp_base` (R144, D23) -/
  | place (cmdBase respBase : Nat)
  /-- the relay takes the next action of its loop (R142) -/
  | relay
  deriving DecidableEq, Repr

/-- The inputs of one tick (R11, R20): `rst`, whether the controller pulls the line low (R93), what the
caller does, and the bytes from the host that the transport delivers (R140). -/
structure TickIn where
  rst    : Bool
  extLow : Bool
  act    : CallerAct
  rx     : List Byte
  deriving DecidableEq, Repr

/-- The state. `n`, `m` are the latched N and M (R28); `cnt` is a Nat because no computation of CNT can wrap
(R26, R44); addresses are Nats below `2^ADDR_W` (R29; DESIGN CHOICE, log 14). The last group is the model's own. -/
structure State where
  /-- the configuration, read-only at run time (R9, R38) -/
  cfg : Config
  /-- `ST` (R30) -/
  st : SeqState
  /-- `DIR` (R34) -/
  dir : Dir
  /-- `DONE` (R32) -/
  done : Bool
  /-- `SHREG` (R22) -/
  shreg : Byte
  /-- `BITCNT` (R23) -/
  bitcnt : BitVec 4
  /-- `TXIDX` (R24) -/
  txidx : Byte
  /-- `RXIDX` (R25) -/
  rxidx : Byte
  /-- `CNT` (R26) -/
  cnt : Nat
  /-- `CURBIT` (R27) -/
  curbit : Bool
  /-- `N` (R28) -/
  n : Byte
  /-- `M` (R28) -/
  m : Byte
  /-- `CBASE` (R29) -/
  cbase : Nat
  /-- `RBASE` (R29) -/
  rbase : Nat
  /-- `IE_SAVED` (R37) -/
  ieSaved : Bool
  /-- `IE`, the controlling core's global interrupt enable (R36) -/
  ie : Bool
  /-- `BUF` (R41, R50), as a canonical list of the bytes that are not the fill byte -/
  mem : List Host.Cell
  /-- the address on the port `cmd_base` (R20) -/
  portCmdBase : Nat
  /-- the address on the port `resp_base` (R20) -/
  portRespBase : Nat
  /-- the relay's place in its loop (R142) -/
  relay : RelayPhase
  /-- N of the relay's current frame (R143) -/
  frameN : Byte
  /-- M of the relay's current frame (R143) -/
  frameM : Byte
  /-- the `cmd_base` the relay chose for its frame (R144) -/
  frameCmd : Nat
  /-- the `resp_base` the relay chose for its frame (R144) -/
  frameResp : Nat
  /-- the number of the tick from which the relay's `ReadExactly` waits for its command bytes (R140, R143; log 12) -/
  frameTick : Nat
  /-- the host-to-device queue (R140) -/
  hostIn : List Byte
  /-- the device-to-host queue: every byte the relay has written to it (R140, R145; log 8) -/
  hostOut : List Byte
  /-- ticks of INTER_GAP the relay still lets pass before it raises `start` (R183; DESIGN CHOICE, log 13) -/
  gap : Nat
  /-- MODEL: the number `k` of the current tick (R11) -/
  now : Nat
  /-- MODEL: the inputs of the current tick and of those after it, as far as they are scheduled -/
  env : List TickIn
  /-- MODEL: operations presented directly, by their words (a program of R83), oldest first -/
  ops : List OpWord
  /-- MODEL: the result `p` of the last `SENSE` (R92) -/
  sensed : Bool
  deriving DecidableEq, Repr

/-- The block "raises no exception" (R155) and "has no fault, no stuck state and no refusal of its own" (R125),
so no step of the model ends in a fault: the type has no constructor. Safe. -/
inductive Fault where
  deriving DecidableEq, Repr

/-- Why a step is refused. -/
inductive Refusal where
  /-- `exec` raises it for an instruction without a meaning yet (none here). Safe. -/
  | notModelled (mnemonic : String)
  /-- `step` raises it for a presented word that is no image of the table ("Nothing else exists", R84); the
  hardware itself decodes no words. Safe. -/
  | noSuchOperation (why : Reject)
  deriving DecidableEq, Repr

/-- The state after reset (R43, R175): idle, line released, `DONE = 0`, the datapath 0, the configuration the
default one, `IE = IE_RESET`, nothing listed in memory. DESIGN CHOICE (log 4): the values R43 calls "don't care"
and those of the relay and of the model's own fields. -/
def State.reset : State where
  cfg := Config.default
  st := .idle
  dir := .input
  done := false
  shreg := 0
  bitcnt := 0
  txidx := 0
  rxidx := 0
  cnt := 0
  curbit := false
  n := 0
  m := 0
  cbase := 0
  rbase := 0
  ieSaved := false
  ie := Config.default.ieReset
  mem := []
  portCmdBase := 0
  portRespBase := 0
  relay := .waitHeader
  frameN := 0
  frameM := 0
  frameCmd := 0
  frameResp := 0
  frameTick := 0
  hostIn := []
  hostOut := []
  gap := 0
  now := 0
  env := []
  ops := []
  sensed := false

end Sys2Proof.Machine
end

