-- ==== Sys2Proof/Machine/Operands.lean ====
section
/-! DEFINITION. What a tick reads: the inputs, the line, the tick constants of R9, the two buffer addresses. -/

namespace Sys2Proof.Machine

/-- The inputs of a tick nobody scheduled: no reset, no caller, no host byte, and the controller's free choice
(R8, R15). DESIGN CHOICE (log 2). -/
def TickIn.unscheduled (k : Nat) : TickIn where
  rst := false
  extLow := Config.extLow k
  act := .quiet
  rx := []

/-- The inputs of the tick `j` ticks from now. -/
def State.inputAt (s : State) (j : Nat) : TickIn :=
  match s.env[j]? with
  | some i => i
  | none => TickIn.unscheduled (s.now + j)

/-- The inputs of the current tick, `in_k` (R11). -/
def State.input (s : State) : TickIn := s.inputAt 0

/-- The line during the current tick, `line(k)`: low if the block or the controller pulls it low, else
high (R93). This is also `pin_in(k)`, with no delay (R92). -/
def State.line (s : State) : Bool := !(s.dir == .output || s.input.extLow)

/-- `T` (R9). -/
def State.t (s : State) : Nat := s.cfg.toParams.t

/-- `LOW1 = T`: the ticks the line is held low for a logic 1 and for the stop bit (R9). -/
def State.low1 (s : State) : Nat := s.t

/-- `LOW0 = 3*T`: the ticks the line is held low for a logic 0 (R9). -/
def State.low0 (s : State) : Nat := 3 * s.t

/-- `Low(b)`: the ticks the line is held low for a bit (R100, R101). -/
def State.low (s : State) (b : Bool) : Nat := if b then s.low1 else s.low0

/-- `PERIOD = 4*T` (R9). -/
def State.period (s : State) : Nat := 4 * s.t

/-- `SAMPLE_DELAY = 2*T` (R9). -/
def State.sampleDelay (s : State) : Nat := 2 * s.t

/-- An address as the block forms it: modulo `2^ADDR_W` (R44). -/
def State.wrap (s : State) (a : Nat) : Nat := a % 2 ^ s.cfg.addrW

/-- The address of command byte `i` of the transaction in flight (R51). -/
def State.cmdAddr (s : State) (i : Nat) : Nat := s.wrap (s.cbase + i)

/-- The address of response byte `j` of the transaction in flight (R51). -/
def State.respAddr (s : State) (j : Nat) : Nat := s.wrap (s.rbase + j)

end Sys2Proof.Machine
end

