-- ==== Sys2Proof/Machine/Flags.lean ====
section
/-! DEFINITION. The flags and the output ports: functions of the state during a tick (R20, R32). -/

namespace Sys2Proof.Machine

/-- `BUSY = 1` exactly when `ST != IDLE` (R32); the port `busy` (R20). -/
def State.busy (s : State) : Bool := s.st != .idle

/-- The port `done` (R20): the flag `DONE` (R32). -/
def State.donePort (s : State) : Bool := s.done

/-- The port `pin_oe`, which is `DIR` (R34). -/
def State.pinOe (s : State) : Bool := s.dir == .output

/-- The port `pin_out`, the output data latch: hardwired to 0 (R35). -/
def State.pinOut (_ : State) : Bool := false

/-- A receive wait whose next failed poll is its `POLL_CAP`-th: `CNT + 1 >= POLL_CAP` (R111, R112). -/
def State.lastPoll (s : State) : Bool := decide (s.cfg.pollCap ≤ s.cnt + 1)

/-- The byte being received is the last one requested: `RXIDX + 1 = M`, on 9 bits (R25). -/
def State.lastByte (s : State) : Bool := s.rxidx.toNat + 1 == s.m.toNat

end Sys2Proof.Machine
end

