-- ==== Sys2Proof/Machine/Ops.lean ====
section
/-! DEFINITION. The named operations every meaning and every tick is made of: memory, the passing of a tick, reset,
the pin, the pieces of R125's `Step` under R125's own names, the timeout entry, and the relay's actions. -/

namespace Sys2Proof.Machine

/-! ### Buffer memory -/

/-- What a byte of `BUF` that nothing has written reads as; its contents after reset are "unspecified" (R43).
DESIGN CHOICE (log 5), unsafe. -/
def Memory.fill : Byte := 0

/-- The byte at an address. -/
def Memory.read : List Host.Cell → Nat → Byte
  | [], _ => Memory.fill
  | (a, v) :: rest, x => if a = x then v else Memory.read rest x

/-- Put a byte at an address, keeping the form `Memory.wf`. -/
def Memory.write : List Host.Cell → Nat → Byte → List Host.Cell
  | [], x, v => if v = Memory.fill then [] else [(x, v)]
  | (a, w) :: rest, x, v =>
    if x < a then
      if v = Memory.fill then (a, w) :: rest else (x, v) :: (a, w) :: rest
    else if x = a then
      if v = Memory.fill then rest else (x, v) :: rest
    else (a, w) :: Memory.write rest x v

/-- The canonical form: addresses strictly rising, no byte equal to the fill byte. -/
def Memory.wf : List Host.Cell → Bool
  | [] => true
  | (a, v) :: rest => v != Memory.fill && rest.all (fun c => decide (a < c.1)) && Memory.wf rest

/-- `MemRead(addr, 1)`: the byte as it is during the current tick, no side effect (R52). -/
def memRead (s : State) (addr : Nat) : Byte := Memory.read s.mem addr

/-- `MemWrite(addr, 1, v)`: the byte from the next tick on (R53). -/
def memWrite (addr : Nat) (v : Byte) (s : State) : State := { s with mem := Memory.write s.mem addr v }

/-- Write bytes at consecutive addresses from `addr` on, wrapping at the top of `BUF` (R51, R56). -/
def memWriteList (addr : Nat) : List Byte → State → State
  | [], s => s
  | v :: vs, s => memWriteList (addr + 1) vs (memWrite (s.wrap addr) v s)

/-- The `k` bytes at consecutive addresses from `addr` on, wrapping at the top of `BUF` (R51, R56). -/
def memReadList (s : State) (addr k : Nat) : List Byte :=
  (List.range k).map (fun j => memRead s (s.wrap (addr + j)))

/-! ### The passing of a tick -/

/-- The ticks of INTER_GAP still to pass, seen in the current tick: the whole gap in the tick in which
`DONE = 1`, else what is left (R183). -/
def State.gapLeft (s : State) : Nat := if s.done then s.cfg.interGap else s.gap

/-- What every `Step` does besides its own action: `DONE <- 0` (R125), the bytes the transport delivers join
the host-to-device queue (R140), and the tick's inputs are used up. -/
def elapse (s : State) : State :=
  { s with
    done := false
    now := s.now + 1
    env := s.env.tail
    hostIn := s.hostIn ++ s.input.rx
    gap := s.gapLeft - 1 }

/-- The passing of `k` ticks with no other action. -/
def elapseN : Nat → State → State
  | 0, s => s
  | k + 1, s => elapseN k (elapse s)

/-- The `Step` of a tick with `rst = 1` (R175): the block's registers at the values of R43; `BUF` not changed;
`IE` left at `IE_RESET` by the core's own reset, the same signal; the relay, code of that core, back at
the head of its loop (DESIGN CHOICE, log 9). -/
def resetStep (s : State) : State :=
  { elapse s with
    st := .idle
    dir := .input
    done := false
    shreg := 0
    bitcnt := 0
    txidx := 0
    rxidx := 0
    cnt := 0
    curbit := false
    n := 0
    m := 0
    cbase := 0
    rbase := 0
    ieSaved := false
    ie := s.cfg.ieReset
    relay := .waitHeader
    frameN := 0
    frameM := 0
    frameCmd := 0
    frameResp := 0
    frameTick := 0
    gap := 0 }

/-! ### The pin, IE -/

/-- `DIR <- OUT` (R90). -/
def driveLow (s : State) : State := { s with dir := .output }

/-- `DIR <- IN` (R91). -/
def releaseLine (s : State) : State := { s with dir := .input }

/-- `IE_SAVED <- IE; IE <- 0` (R130). -/
def irqEnter (s : State) : State := { s with ieSaved := s.ie, ie := false }

/-- `IE <- IE_SAVED` (R131). -/
def irqExit (s : State) : State := { s with ie := s.ieSaved }

/-! ### The pieces of `Step` (R125) -/

/-- `CNT <- CNT - 1`. -/
def countDown (s : State) : State := { s with cnt := s.cnt - 1 }

/-- Start the symbol of a data bit: `CURBIT <- b; DIR <- OUT; ST <- TX_LOW; CNT <- Low(b)`. -/
def startSymbol (b : Bool) (s : State) : State :=
  driveLow { s with curbit := b, st := .txLow, cnt := s.low b }

/-- Start the next bit of the byte in `SHREG`. -/
def startBit (s : State) : State :=
  startSymbol s.shreg.msb { s with shreg := s.shreg <<< 1, bitcnt := s.bitcnt - 1 }

/-- Start command byte `v`: its bit 7 goes out, the rest is left-aligned in `SHREG` (R22, R103). -/
def startByte (v : Byte) (s : State) : State :=
  startSymbol v.msb { s with txidx := s.txidx + 1, shreg := v <<< 1, bitcnt := 7 }

/-- Start the stop bit: `CURBIT <- 1; DIR <- OUT; ST <- STOP_LOW; CNT <- T`, which is `LOW1` (R9). -/
def startStop (s : State) : State :=
  driveLow { s with curbit := true, st := .stopLow, cnt := s.low1 }

/-- `NextSymbol`: the next bit of the byte, else the next command byte, fetched now (R65), else the stop bit. -/
def nextSymbol (s : State) : State :=
  if 0 < s.bitcnt.toNat then startBit s
  else if s.txidx.toNat < s.n.toNat then startByte (memRead s (s.cmdAddr s.txidx.toNat)) s
  else startStop s

/-- The end of a low phase: `DIR <- IN; ST <- TX_HIGH; CNT <- 4*T - Low(CURBIT)`. -/
def endLow (s : State) : State :=
  releaseLine { s with st := .txHigh, cnt := s.period - s.low s.curbit }

/-- `ST <- RX_WAIT_HIGH; CNT <- 0`: a receive wait for high begins, its count at 0 (R110). -/
def startWaitHigh (s : State) : State := { s with st := .rxWaitHigh, cnt := 0 }

/-- `ST <- RX_WAIT_LOW; CNT <- 0`. -/
def startWaitLow (s : State) : State := { s with st := .rxWaitLow, cnt := 0 }

/-- `ST <- RX_DELAY; CNT <- 2*T`: the fall has been observed (R112). -/
def startDelay (s : State) : State := { s with st := .rxDelay, cnt := s.sampleDelay }

/-- `SHREG <- 0; BITCNT <- 0; ST <- RX_WAIT_HIGH; CNT <- 0`: a response byte begins (R114). -/
def startRxByte (s : State) : State := startWaitHigh { s with shreg := 0, bitcnt := 0 }

/-- `Finish`: `DIR <- IN; IE <- IE_SAVED; DONE <- 1; ST <- IDLE`. -/
def finish (s : State) : State := { irqExit (releaseLine s) with done := true, st := .idle }

/-- `AfterStop`. -/
def afterStop (s : State) : State :=
  if s.m = 0 then finish s else startRxByte { s with rxidx := 0 }

/-- `Store(x)` (R114). -/
def store (x : Byte) (s : State) : State := memWrite (s.respAddr s.rxidx.toNat) x s

/-- `NextByte` (R114). -/
def nextByte (s : State) : State :=
  if s.lastByte then finish s else startRxByte { s with rxidx := s.rxidx + 1 }

/-- The entry of a timeout (R164): the sentinel takes the byte's slot, the bits sampled so far are discarded,
and the next byte begins or the transaction finishes. -/
def timeoutEntry (sentinel : Byte) (s : State) : State := nextByte (store sentinel s)

/-- `INJECT_HI` inside a `Step`: "the line never rose" (R115, R157). -/
def timeoutHigh (s : State) : State := timeoutEntry s.cfg.sentHi s

/-- `INJECT_LO` inside a `Step`: "the line never fell" (R116, R158). -/
def timeoutLow (s : State) : State := timeoutEntry s.cfg.sentLo s

/-- `((SHREG << 1) | d)[7:0]` (R44, R113). -/
def shiftIn (v : Byte) (d : Bool) : Byte := (v <<< 1) ||| BitVec.ofNat 8 d.toNat

/-- The sample of a received bit (R113): the eighth completes the byte. -/
def sampleBit (d : Bool) (s : State) : State :=
  if s.bitcnt = 7 then nextByte (store (shiftIn s.shreg d) s)
  else startWaitHigh { s with shreg := shiftIn s.shreg d, bitcnt := s.bitcnt + 1 }

/-- The acceptance of `start` (R125, `IDLE`): the operands are latched (R28, R29), interrupts masked, the pin
released, the datapath cleared. -/
def accept (n m : Byte) (s : State) : State :=
  releaseLine (irqEnter
    { s with
      n := n
      m := m
      cbase := s.wrap s.portCmdBase
      rbase := s.wrap s.portRespBase
      txidx := 0
      rxidx := 0
      bitcnt := 0
      shreg := 0
      cnt := 0
      curbit := false
      st := .arm })

/-! ### The relay's actions

Each takes one tick, that of the act that schedules it; a read of command bytes goes on by itself in the ticks the
caller leaves to it (DESIGN CHOICE, log 8). -/

/-- `WAIT_COMMAND_BYTES`: if the N command bytes have arrived, place them in `BUF` and go on to the
transaction (R143, R144); if not, go on waiting. -/
def relayRead (s : State) : State :=
  if s.frameN.toNat ≤ s.hostIn.length then
    { memWriteList s.frameCmd (s.hostIn.take s.frameN.toNat) s with
      hostIn := s.hostIn.drop s.frameN.toNat
      relay := .transact }
  else { s with relay := .waitCommand }

/-- The relay raises `start` with its frame's operands and has no further step until `DONE` (R144). -/
def relayStart (s : State) : State :=
  accept s.frameN s.frameM
    { s with portCmdBase := s.frameCmd, portRespBase := s.frameResp, relay := .reply }

/-- `DROP` (R146): the bytes of the frame that came are discarded, nothing is written to the host, the block is
not started. Outside `WAIT_COMMAND_BYTES` there is no frame to discard. -/
def relayDrop (s : State) : State :=
  { s with
    hostIn := if s.relay = .waitCommand then s.hostIn.drop s.frameN.toNat else s.hostIn
    relay := .waitHeader }

/-- `RELAY_REPLY` (R145): the M response bytes go to the host verbatim, then back to `WAIT_HEADER`. -/
def relayReply (s : State) : State :=
  { s with
    hostOut := s.hostOut ++ memReadList s s.frameResp s.frameM.toNat
    relay := .waitHeader }

/-- The transport's read timeout, `RELAY_READ_TIMEOUT` ticks after the read began (R141; log 12). -/
def State.readExpired (s : State) : Bool := decide (s.frameTick + s.cfg.readTimeout ≤ s.now)

/-- The read timeout ends the wait for command bytes, if they have not all come (R146). -/
def relayTimeout (s : State) : State :=
  if s.relay = .waitCommand ∧ s.hostIn.length < s.frameN.toNat ∧ s.readExpired then relayDrop s else s

/-- One tick of `ReadExactly(N)`: it "either returns `n` bytes or fails after the transport's read timeout" (R140). -/
def relayPoll (s : State) : State := relayTimeout (relayRead s)

/-- The header has been read: N and M are known, the addresses are chosen (R144), and the read of the command
bytes begins (R143). -/
def relayFrame (n m : Byte) (s : State) : State :=
  relayPoll { s with frameN := n, frameM := m, frameCmd := s.portCmdBase, frameResp := s.portRespBase, frameTick := s.now }

/-- A tick in which the caller does nothing of its own: only a read of command bytes in progress goes on. -/
def relayWait (s : State) : State := if s.relay = .waitCommand then relayPoll s else s

/-- The next action of the relay's loop (R142). `mayStart` says that INTER_GAP has passed (R183). -/
def relayAct (mayStart : Bool) (s : State) : State :=
  match s.relay with
  | .waitHeader =>
    match s.hostIn with
    | n :: m :: rest => relayFrame n m { s with hostIn := rest }
    | _ => s
  | .waitCommand => relayPoll s
  | .transact => if mayStart then relayStart s else s
  | .reply => relayReply s

end Sys2Proof.Machine
end

