-- ==== Sys2Proof/Machine/Tick.lean ====
section
/-! DEFINITION. One clock tick: the function `Step` of R125 together with the caller's act, and the ways an operation
that lasts several ticks runs them. -/

namespace Sys2Proof.Machine

/-- An `IDLE` tick: the caller has its step; a `start` is accepted (R125, R129). -/
def tickIdle (act : CallerAct) (mayStart : Bool) (s : State) : State :=
  match act with
  | .quiet => relayWait s
  | .start cb n rb m => accept n m { s with portCmdBase := cb, portRespBase := rb }
  | .setIe v => { s with ie := v }
  | .store a v => memWrite (s.wrap a) v s
  | .place cb rb => { s with portCmdBase := cb, portRespBase := rb }
  | .relay => relayAct mayStart s

/-- A `TX_LOW` tick. -/
def tickTxLow (s : State) : State := if 1 < s.cnt then countDown s else endLow s

/-- A `TX_HIGH` tick. -/
def tickTxHigh (s : State) : State := if 1 < s.cnt then countDown s else nextSymbol s

/-- A `STOP_LOW` tick. -/
def tickStopLow (s : State) : State :=
  if 1 < s.cnt then countDown s
  else if 0 < s.cfg.stopTail then releaseLine { s with st := .stopHigh, cnt := s.cfg.stopTail }
  else afterStop (releaseLine s)

/-- A `STOP_HIGH` tick. -/
def tickStopHigh (s : State) : State := if 1 < s.cnt then countDown s else afterStop s

/-- A `RX_WAIT_HIGH` tick: one poll of `WAIT_HIGH` (R111). -/
def tickWaitHigh (pin : Bool) (s : State) : State :=
  if pin then startWaitLow s else if s.lastPoll then timeoutHigh s else { s with cnt := s.cnt + 1 }

/-- A `RX_WAIT_LOW` tick: one poll of `WAIT_LOW` (R112). -/
def tickWaitLow (pin : Bool) (s : State) : State :=
  if !pin then startDelay s else if s.lastPoll then timeoutLow s else { s with cnt := s.cnt + 1 }

/-- A `RX_DELAY` tick (R113). -/
def tickDelay (pin : Bool) (s : State) : State := if 1 < s.cnt then countDown s else sampleBit pin s

/-- The `case ST of` of R125. -/
def tickCase (act : CallerAct) (mayStart pin : Bool) (s : State) : State :=
  match s.st with
  | .idle => tickIdle act mayStart s
  | .arm => nextSymbol s
  | .txLow => tickTxLow s
  | .txHigh => tickTxHigh s
  | .stopLow => tickStopLow s
  | .stopHigh => tickStopHigh s
  | .rxWaitHigh => tickWaitHigh pin s
  | .rxWaitLow => tickWaitLow pin s
  | .rxDelay => tickDelay pin s

/-- One tick (R125): total and deterministic; `rst` overrides everything (R163). The pin, the caller's act and
the gap are those of the current tick. -/
def tick (s : State) : State :=
  if s.input.rst then resetStep s
  else tickCase s.input.act (s.gapLeft == 0) s.line (elapse s)

/-- `k` ticks. -/
def ticks : Nat → State → State
  | 0, s => s
  | k + 1, s => ticks k (tick s)

/-! ### Operations presented to the block

An operation presented in tick `k` is executed by the `Step` of tick `k` in place of the `case ST of`; one that
lasts begins at tick `k+1` and its meaning includes all its ticks (DESIGN CHOICE, log 1). `rst` overrides it, and a
reset in one of its ticks cuts it short (R175, R176). -/

/-- The `Step` of the tick in which an operation is presented. -/
def present (act : State → State) (s : State) : State :=
  if s.input.rst then resetStep s else act (elapse s)

/-- Run ticks until one in which `last` holds (that tick included) or a reset cuts in, at most `k`. -/
def runUntil (last : State → Bool) : Nat → State → State
  | 0, s => s
  | k + 1, s => if s.input.rst || last s then tick s else runUntil last k (tick s)

/-- An operation with its ticks: presented, then run. -/
def presentFor (act : State → State) (last : State → Bool) (k : Nat) (s : State) : State :=
  if s.input.rst then resetStep s else runUntil last k (act (elapse s))

/-- Run exactly `k` ticks, unless a reset cuts in. -/
def untilCut : State → Bool := fun _ => false

/-- Run ticks while the block is busy, at most `k`. -/
def runBusy : Nat → State → State
  | 0, s => s
  | k + 1, s => if s.busy then runBusy k (tick s) else s

end Sys2Proof.Machine
end

