-- ==== Sys2Proof/Machine/Pin.lean ====
section
/-! DEFINITION. The meanings of the pin operations: `DRIVE_LOW`, `RELEASE`, `SENSE` (`spec/40_pin_driver.md`). -/

namespace Sys2Proof.Machine

/-- `DRIVE_LOW` (R90). -/
def execDriveLow (s : State) : Host.Outcome State Fault Refusal := .next (present driveLow s)

/-- `RELEASE` (R91). -/
def execRelease (s : State) : Host.Outcome State Fault Refusal := .next (present releaseLine s)

/-- `SENSE -> p` (R92): the level of the line in the current tick; no other effect on the state. -/
def execSense (_p : Bool) (s : State) : Host.Outcome State Fault Refusal :=
  .next (present (fun u => { u with sensed := s.line }) s)

end Sys2Proof.Machine
end

