-- ==== Sys2Proof/Machine/Receive.lean ====
section
/-! DEFINITION. The meanings of the receive operations: `WAIT_HIGH`, `WAIT_LOW`, `RXBIT`, `RXBYTE`, `INJECT_HI`,
`INJECT_LO` (`spec/42_receive.md`). -/

namespace Sys2Proof.Machine

/-- The current tick ends a wait for high: the line is high, or the cap is reached (R111). -/
def waitHighEnds (s : State) : Bool := s.line || s.lastPoll

/-- The current tick ends a wait for low (R112). -/
def waitLowEnds (s : State) : Bool := !s.line || s.lastPoll

/-- The current tick times out in one of the two waits (R157, R158). -/
def timesOut (s : State) : Bool :=
  s.lastPoll && (s.st == .rxWaitHigh && !s.line || s.st == .rxWaitLow && s.line)

/-- The current tick takes the sample of a bit (R113). -/
def samples (s : State) : Bool := s.st == .rxDelay && decide (s.cnt ≤ 1)

/-- The current tick ends a received bit: its sample, or a timeout, which ends the byte too (R113). -/
def rxBitEnds (s : State) : Bool := timesOut s || samples s

/-- The current tick ends a received byte: its eighth sample, or a timeout (R114). -/
def rxByteEnds (s : State) : Bool := timesOut s || samples s && s.bitcnt == 7

/-- The most ticks one bit can take (R119). -/
def State.bitTicks (s : State) : Nat := 2 * s.cfg.pollCap + s.sampleDelay

/-- `WAIT_HIGH` (R111): polls until the line is high, or until `POLL_CAP` of them have failed. -/
def execWaitHigh (s : State) : Host.Outcome State Fault Refusal :=
  .next (presentFor startWaitHigh waitHighEnds s.cfg.pollCap s)

/-- `WAIT_LOW` (R112). -/
def execWaitLow (s : State) : Host.Outcome State Fault Refusal :=
  .next (presentFor startWaitLow waitLowEnds s.cfg.pollCap s)

/-- `RXBIT -> d` (R113): the result is shifted into `SHREG`. -/
def execRxBit (_d : Bool) (s : State) : Host.Outcome State Fault Refusal :=
  .next (presentFor startWaitHigh rxBitEnds s.bitTicks s)

/-- `RXBYTE -> v` (R114): the result, sampled or sentinel, is stored in the response byte's slot. -/
def execRxByte (_v : Byte) (s : State) : Host.Outcome State Fault Refusal :=
  .next (presentFor startRxByte rxByteEnds (8 * s.bitTicks) s)

/-- `INJECT_HI` (R115): the sentinel stored is the configuration's (log 11). -/
def execInjectHi (s : State) : Host.Outcome State Fault Refusal := .next (present timeoutHigh s)

/-- `INJECT_LO` (R116): the sentinel stored is the configuration's (log 11). -/
def execInjectLo (s : State) : Host.Outcome State Fault Refusal := .next (present timeoutLow s)

end Sys2Proof.Machine
end

