-- ==== Sys2Proof/Machine/Relay.lean ====
section
/-! DEFINITION. The meanings of the relay's operations: `RELAY_FRAME`, `RELAY_REPLY`, `RELAY_DROP`
(`spec/44_host_relay.md`). The caller "has no step while `BUSY = 1`" (R8): one presented then is ignored (log 10). -/

namespace Sys2Proof.Machine

/-- An operation of the caller: executed in an `IDLE` tick, ignored in any other (R8). -/
def presentCaller (act : State → State) (s : State) : State :=
  if s.busy then tick s else present act s

/-- The current tick leaves no more to wait for in `WAIT_COMMAND_BYTES`. -/
def frameRead (s : State) : Bool := s.relay != .waitCommand

/-- Run ticks while the relay waits for command bytes, at most `k`. -/
def runRelayWait : Nat → State → State
  | 0, s => s
  | k + 1, s => if frameRead s then s else runRelayWait k (tick s)

/-- `RELAY_FRAME` (R143) with the header bytes `n`, `m` just read: reads the command bytes and ends in
`TRANSACT_AND_REPLY` or `DROP`, at the latest `RELAY_READ_TIMEOUT` ticks later if the caller leaves those ticks to it.
Acts of the caller scheduled in its ticks are taken; it is followed long enough for all of them and for the timeout
(DESIGN CHOICE, log 8). R143 takes N and M from the host-to-device queue; presented alone the operation takes them from
its word and removes no header from the queue, whose next bytes are its command bytes, and it begins wherever the relay
is in its loop (DESIGN CHOICE, log 17). -/
def execRelayFrame (n m : Byte) (s : State) : Host.Outcome State Fault Refusal :=
  .next (if s.busy then tick s else runRelayWait (s.cfg.readTimeout + s.env.length) (present (relayFrame n m) s))

/-- `RELAY_REPLY` (R145): all M bytes of the response buffer of the relay's frame; presented alone, wherever the relay is
in its loop (DESIGN CHOICE, log 17). -/
def execRelayReply (_v : Byte) (s : State) : Host.Outcome State Fault Refusal :=
  .next (presentCaller relayReply s)

/-- `RELAY_DROP` (R146); presented alone, wherever the relay is in its loop (DESIGN CHOICE, logs 8, 17). -/
def execRelayDrop (s : State) : Host.Outcome State Fault Refusal :=
  .next (presentCaller relayDrop s)

end Sys2Proof.Machine
end

