-- ==== Sys2Proof/Machine/Transaction.lean ====
section
/-! DEFINITION. The meanings of `TRANSACT`, `IRQ_ENTER`, `IRQ_EXIT` (`spec/43_transaction.md`). -/

namespace Sys2Proof.Machine

/-- `IRQ_ENTER` (R130). -/
def execIrqEnter (s : State) : Host.Outcome State Fault Refusal := .next (present irqEnter s)

/-- `IRQ_EXIT` (R131): the bit written to `IE` is `IE_SAVED`. -/
def execIrqExit (_b : Bool) (s : State) : Host.Outcome State Fault Refusal := .next (present irqExit s)

/-- The most ticks a transaction has after its accepting tick (R133). -/
def State.transactTicks (s : State) (n m : Byte) : Nat :=
  1 + 8 * s.period * n.toNat + s.low1 + s.cfg.stopTail + m.toNat * (8 * s.bitTicks)

/-- A whole transaction with N and M and the addresses on the ports: accepted in this tick, then run to its
end (R128, R137). -/
def transactAll (n m : Byte) (s : State) : State :=
  if s.input.rst then resetStep s else runBusy (s.transactTicks n m) (accept n m (elapse s))

/-- `TRANSACT(cmd_base, N, resp_base, M)` (R128). "While `BUSY = 1` it is ignored" (R129): the tick runs as if
nothing had been presented. Presented alone it takes N and M from its word and the addresses from the ports as the caller
last chose them (DESIGN CHOICE, log 17). -/
def execTransact (n m : Byte) (s : State) : Host.Outcome State Fault Refusal :=
  .next (if s.busy then tick s else transactAll n m s)

end Sys2Proof.Machine
end

