-- ==== Sys2Proof/Machine/Transmit.lean ====
section
/-! DEFINITION. The meanings of the transmit operations: `TX0`, `TX1`, `TXBYTE`, `TXSTOP` (`spec/41_transmit.md`). -/

namespace Sys2Proof.Machine

/-- `TX0` (R100): a symbol of `4*T` ticks. -/
def execTx0 (s : State) : Host.Outcome State Fault Refusal :=
  .next (presentFor (startSymbol false) untilCut s.period s)

/-- `TX1` (R101): a symbol of `4*T` ticks. -/
def execTx1 (s : State) : Host.Outcome State Fault Refusal :=
  .next (presentFor (startSymbol true) untilCut s.period s)

/-- `TXBYTE(v)` (R103): eight symbols, bit 7 first, `32*T` ticks; `TXIDX` counts the byte. R103's v is the byte fetched
from `BUF`; presented alone the operation sends the v of its word and reads no memory, whatever `BUF` holds at
`(CBASE + TXIDX) mod 2^ADDR_W`, and still advances `TXIDX` (DESIGN CHOICE, log 16). -/
def execTxByte (v : Byte) (s : State) : Host.Outcome State Fault Refusal :=
  .next (presentFor (startByte v) untilCut (8 * s.period) s)

/-- `TXSTOP` (R104): the low phase of `LOW1 = T` ticks, then `STOP_TAIL` ticks released. -/
def execTxStop (s : State) : Host.Outcome State Fault Refusal :=
  .next (presentFor startStop untilCut (s.low1 + s.cfg.stopTail) s)

end Sys2Proof.Machine
end

