-- ==== Sys2Proof/Machine/Dispatch.lean ====
section
/-! DEFINITION. One arm per operation. -/

namespace Sys2Proof.Machine

def exec (i : Instr) (s : State) : Host.Outcome State Fault Refusal :=
  match i with
  | .driveLow => Sys2Proof.Machine.execDriveLow s
  | .release => Sys2Proof.Machine.execRelease s
  | .sense p => Sys2Proof.Machine.execSense p s
  | .tx0 => Sys2Proof.Machine.execTx0 s
  | .tx1 => Sys2Proof.Machine.execTx1 s
  | .txstop => Sys2Proof.Machine.execTxStop s
  | .waitHigh => Sys2Proof.Machine.execWaitHigh s
  | .waitLow => Sys2Proof.Machine.execWaitLow s
  | .rxbit d => Sys2Proof.Machine.execRxBit d s
  | .txbyte v => Sys2Proof.Machine.execTxByte v s
  | .rxbyte v => Sys2Proof.Machine.execRxByte v s
  | .injectHi => Sys2Proof.Machine.execInjectHi s
  | .injectLo => Sys2Proof.Machine.execInjectLo s
  | .irqEnter => Sys2Proof.Machine.execIrqEnter s
  | .irqExit b => Sys2Proof.Machine.execIrqExit b s
  | .transact n m => Sys2Proof.Machine.execTransact n m s
  | .relayFrame n m => Sys2Proof.Machine.execRelayFrame n m s
  | .relayReply v => Sys2Proof.Machine.execRelayReply v s
  | .relayDrop => Sys2Proof.Machine.execRelayDrop s

end Sys2Proof.Machine
end

