-- ==== Sys2Proof/Machine/Step.lean ====
section
/-! DEFINITION. One step: an operation presented directly, else one clock tick. -/

namespace Sys2Proof.Machine

/-- With no operation presented, one clock tick (R125); the hardware itself never presents one. Otherwise the
oldest presented operation, with all its ticks (DESIGN CHOICE, log 1). -/
def step (s : State) : Host.Outcome State Fault Refusal :=
  match s.ops with
  | [] => .next (tick s)
  | w :: rest =>
    match decode w with
    | .ok i => exec i { s with ops := rest }
    | .error e => .refused (.noSuchOperation e)

/-- Present one operation by its bare table word, before any presented already. -/
def State.withFetchWord (s : State) (nbits w : Nat) : State :=
  { s with ops := tableWord nbits w :: s.ops }

end Sys2Proof.Machine
end

