-- ==== Sys2Proof/Machine/Port.lean ====
section
/-! DEFINITION. The memory port (R20): the access to `BUF` the block issues in a tick (R14 (b), R52, R53). -/

namespace Sys2Proof.Machine

/-- The access of one tick; "at most one access, read or write, is issued per tick" (R53). -/
inductive MemAccess where
  | none
  | read (addr : Nat)
  | write (addr : Nat) (v : Byte)
  deriving DecidableEq, Repr

/-- `NextSymbol` fetches a command byte exactly when no bit of the last one is left and one is to come (R52). -/
def fetchPort (s : State) : MemAccess :=
  if s.bitcnt.toNat = 0 ∧ s.txidx.toNat < s.n.toNat then .read (s.cmdAddr s.txidx.toNat) else .none

/-- The access of the current tick: the fetches of `NextSymbol` and the stores of `Store` (R52, R53). -/
def memPort (s : State) : MemAccess :=
  if s.input.rst then .none
  else
    match s.st with
    | .idle => .none
    | .arm => fetchPort s
    | .txLow => .none
    | .txHigh => if 1 < s.cnt then .none else fetchPort s
    | .stopLow => .none
    | .stopHigh => .none
    | .rxWaitHigh => if timesOut s then .write (s.respAddr s.rxidx.toNat) s.cfg.sentHi else .none
    | .rxWaitLow => if timesOut s then .write (s.respAddr s.rxidx.toNat) s.cfg.sentLo else .none
    | .rxDelay =>
      if samples s && s.bitcnt == 7 then .write (s.respAddr s.rxidx.toNat) (shiftIn s.shreg s.line) else .none

/-- The address read. -/
def MemAccess.reads : MemAccess → List Nat
  | .none => []
  | .read a => [a]
  | .write _ _ => []

/-- The address written. -/
def MemAccess.writes : MemAccess → List Nat
  | .none => []
  | .read _ => []
  | .write a _ => [a]

/-- The addresses the block reads in the next `k` ticks, in order. -/
def readTrace : Nat → State → List Nat
  | 0, _ => []
  | k + 1, s => (memPort s).reads ++ readTrace k (tick s)

/-- The addresses the block writes in the next `k` ticks, in order. -/
def writeTrace : Nat → State → List Nat
  | 0, _ => []
  | k + 1, s => (memPort s).writes ++ writeTrace k (tick s)

end Sys2Proof.Machine
end

