-- ==== Sys2Proof/Safety.lean ====
section
/-! DEFINITION. What claims are stated in terms of: runs without reset, the waveforms a claim may assume of the line,
what may have changed between two states, and the invariant of a block that nobody presents operations to. -/

namespace Sys2Proof.Machine

/-! ### Inputs -/

/-- No reset in the next `k` ticks. -/
def NoReset (s : State) (k : Nat) : Prop := ∀ j < k, (s.inputAt j).rst = false

/-- The level the line will have `j` ticks from now if the block goes on releasing it, as it does throughout
the receive phase (R34): high unless the controller pulls it low (R93). -/
def State.wireAt (s : State) (j : Nat) : Bool := !(s.inputAt j).extLow

/-- Bit `i` of a byte sequence in the order of the wire: bytes in order, each MSB-first (R54, R118). -/
def wireBit (w : List Byte) (i : Nat) : Bool := (w.getD (i / 8) 0).getLsbD (7 - i % 8)

/-- A conforming reply of the bytes `w` to a receive phase that begins `r` ticks from now, its first fall `f`
ticks after that beginning (R118, with `f0 = r + f`). -/
structure ConformingReply (s : State) (r f : Nat) (w : List Byte) : Prop where
  afterBegin : 1 ≤ f
  withinCap : f ≤ s.cfg.pollCap
  silent : ∀ j < f, (s.inputAt (r + j)).extLow = false
  symbols : ∀ i < 8 * w.length, ∀ j < s.period,
    (s.inputAt (r + f + s.period * i + j)).extLow = decide (j < s.low (wireBit w i))

/-! ### States that differ in named fields only -/

/-- The state with CNT at another value. -/
def State.withCnt (s : State) (cnt : Nat) : State := { s with cnt := cnt }

/-- The state with `ST`, `DIR` and CNT at other values: another place of a transaction (R31, R34). -/
def State.inPhase (s : State) (st : SeqState) (dir : Dir) (cnt : Nat) : State :=
  { s with st := st, dir := dir, cnt := cnt }

/-- The state with `SHREG`, `BITCNT` and `CURBIT` at other values. -/
def State.withBits (s : State) (shreg : Byte) (bitcnt : BitVec 4) (curbit : Bool) : State :=
  { s with shreg := shreg, bitcnt := bitcnt, curbit := curbit }

/-- The state with `TXIDX` at another value. -/
def State.withTxidx (s : State) (txidx : Byte) : State := { s with txidx := txidx }

/-! ### What may have changed -/

/-- Every byte of memory reads as before. -/
def SameMemory (s t : State) : Prop := ∀ a, memRead t a = memRead s a

/-- Every byte of memory outside one address reads as before. -/
def SameMemoryBut (addr : Nat) (s t : State) : Prop := ∀ a, a ≠ addr → memRead t a = memRead s a

/-- The operands of the transaction in flight are unchanged (R28, R29). -/
structure SameOperands (s t : State) : Prop where
  n : t.n = s.n
  m : t.m = s.m
  cbase : t.cbase = s.cbase
  rbase : t.rbase = s.rbase

/-- The transmit and receive registers are unchanged. -/
structure SameDatapath (s t : State) : Prop where
  shreg : t.shreg = s.shreg
  bitcnt : t.bitcnt = s.bitcnt
  txidx : t.txidx = s.txidx
  rxidx : t.rxidx = s.rxidx
  cnt : t.cnt = s.cnt
  curbit : t.curbit = s.curbit

/-- The interrupt enable and its saved copy are unchanged. -/
structure SameIe (s t : State) : Prop where
  ie : t.ie = s.ie
  ieSaved : t.ieSaved = s.ieSaved

/-- The caller's side is unchanged: its ports, the relay, the reply queue (the host-to-device queue is part of
`Passed`). -/
structure SameCaller (s t : State) : Prop where
  portCmdBase : t.portCmdBase = s.portCmdBase
  portRespBase : t.portRespBase = s.portRespBase
  relay : t.relay = s.relay
  frameN : t.frameN = s.frameN
  frameM : t.frameM = s.frameM
  frameCmd : t.frameCmd = s.frameCmd
  frameResp : t.frameResp = s.frameResp
  frameTick : t.frameTick = s.frameTick
  hostOut : t.hostOut = s.hostOut

/-- The bytes the transport delivers in the next `k` ticks. -/
def State.arrivals (s : State) : Nat → List Byte
  | 0 => []
  | k + 1 => s.arrivals k ++ (s.inputAt k).rx

/-- `k` ticks have passed, and the configuration, the presented operations and the result of `SENSE` are unchanged. -/
structure Passed (k : Nat) (s t : State) : Prop where
  now : t.now = s.now + k
  env : t.env = s.env.drop k
  hostIn : t.hostIn = s.hostIn ++ s.arrivals k
  cfg : t.cfg = s.cfg
  ops : t.ops = s.ops
  sensed : t.sensed = s.sensed

/-- `k` ticks have passed as in `Passed`, but bytes may have been taken from the host-to-device queue. -/
def PassedReading (k : Nat) (s t : State) : Prop := Passed k s { t with hostIn := s.hostIn ++ s.arrivals k }

/-- The block has not been invoked: its registers and IE are as they were, but for `DONE`, which every tick clears. -/
structure SameBlock (s t : State) : Prop where
  st : t.st = s.st
  dir : t.dir = s.dir
  done : t.done = false
  ie : SameIe s t
  datapath : SameDatapath s t
  operands : SameOperands s t

/-- One byte has been stored in the slot of the byte being received, and the receive phase has gone on to the next
byte or ended: what the eighth sample does (R114) and, with a sentinel for `v`, what a timeout does (R164). -/
structure ByteStored (v : Byte) (s t : State) : Prop where
  stored : Memory.wf s.mem = true → memRead t (s.respAddr s.rxidx.toNat) = v
  others : SameMemoryBut (s.respAddr s.rxidx.toNat) s t
  operands : SameOperands s t
  caller : SameCaller s t
  txidx : t.txidx = s.txidx
  ieSaved : t.ieSaved = s.ieSaved
  last : s.lastByte = true →
    t.st = .idle ∧ t.done = true ∧ t.dir = .input ∧ t.ie = s.ieSaved ∧ t.rxidx = s.rxidx
  next : s.lastByte = false →
    t.st = .rxWaitHigh ∧ t.cnt = 0 ∧ t.shreg = 0 ∧ t.bitcnt = 0 ∧ t.rxidx = s.rxidx + 1 ∧
      t.done = false ∧ t.dir = s.dir ∧ t.ie = s.ie

/-- The inputs of a tick but for what the controller does to the line. -/
def TickIn.withoutLine (i : TickIn) : TickIn := { i with extLow := false }

/-- The state with other inputs to come. -/
def State.withEnv (s : State) (env : List TickIn) : State := { s with env := env }

/-- The two states differ at most in what the controller does to the line in the ticks to come. -/
structure SameButLine (s t : State) : Prop where
  state : t = s.withEnv t.env
  inputs : t.env.map TickIn.withoutLine = s.env.map TickIn.withoutLine

/-! ### The transitions of `ST` -/

/-- The port `start` in the current tick: raised by the caller, or by the relay for its frame (R20, R144). -/
def State.startPort (s : State) : Bool :=
  match s.input.act with
  | .quiet => false
  | .start _ _ _ _ => true
  | .setIe _ => false
  | .store _ _ => false
  | .place _ _ => false
  | .relay => s.relay == .transact && s.gapLeft == 0

/-- The place after the next tick, by the table of R127. -/
def State.nextPlace (s : State) : SeqState :=
  if s.input.rst then .idle
  else
    match s.st with
    | .idle => if s.startPort then .arm else .idle
    | .arm => if 0 < s.n.toNat then .txLow else .stopLow
    | .txLow => if 1 < s.cnt then .txLow else .txHigh
    | .txHigh =>
      if 1 < s.cnt then .txHigh
      else if 0 < s.bitcnt.toNat ∨ s.txidx.toNat < s.n.toNat then .txLow else .stopLow
    | .stopLow =>
      if 1 < s.cnt then .stopLow
      else if 0 < s.cfg.stopTail then .stopHigh
      else if 0 < s.m.toNat then .rxWaitHigh else .idle
    | .stopHigh => if 1 < s.cnt then .stopHigh else if 0 < s.m.toNat then .rxWaitHigh else .idle
    | .rxWaitHigh =>
      if s.line then .rxWaitLow
      else if s.cnt + 1 < s.cfg.pollCap ∨ s.rxidx.toNat + 1 < s.m.toNat then .rxWaitHigh else .idle
    | .rxWaitLow =>
      if !s.line then .rxDelay
      else if s.cnt + 1 < s.cfg.pollCap then .rxWaitLow
      else if s.rxidx.toNat + 1 < s.m.toNat then .rxWaitHigh else .idle
    | .rxDelay =>
      if 1 < s.cnt then .rxDelay
      else if s.bitcnt.toNat < 7 ∨ s.rxidx.toNat + 1 < s.m.toNat then .rxWaitHigh else .idle

/-! ### The invariant -/

/-- The block is in its receive phase. -/
def State.receiving (s : State) : Prop := s.st = .rxWaitHigh ∨ s.st = .rxWaitLow ∨ s.st = .rxDelay

/-- The memory is canonical and lists only addresses of `BUF`, which has `2^ADDR_W` bytes (R50). -/
structure MemOk (s : State) : Prop where
  canonical : Memory.wf s.mem = true
  inRange : ∀ c ∈ s.mem, c.1 < 2 ^ s.cfg.addrW

/-- The range of CNT in each state (R26, R44). -/
def CntOk (s : State) : Prop :=
  match s.st with
  | .idle => s.cnt ≤ max s.low0 (max s.cfg.pollCap s.cfg.stopTail)
  | .arm => s.cnt = 0
  | .txLow => 1 ≤ s.cnt ∧ s.cnt ≤ s.low s.curbit
  | .txHigh => 1 ≤ s.cnt ∧ s.cnt ≤ s.period - s.low s.curbit
  | .stopLow => 1 ≤ s.cnt ∧ s.cnt ≤ s.low1
  | .stopHigh => 1 ≤ s.cnt ∧ s.cnt ≤ s.cfg.stopTail
  | .rxWaitHigh => s.cnt < s.cfg.pollCap
  | .rxWaitLow => s.cnt < s.cfg.pollCap
  | .rxDelay => 1 ≤ s.cnt ∧ s.cnt ≤ s.sampleDelay

/-- What holds in every state of a block that nobody presents operations to. -/
structure BlockInv (s : State) : Prop where
  /-- nothing is presented -/
  quiet : s.ops = []
  /-- the line is driven in exactly the two low phases (R34) -/
  driven : s.dir = .output ↔ (s.st = .txLow ∨ s.st = .stopLow)
  /-- interrupts are masked for the whole of a transaction (R36, R162) -/
  masked : s.st ≠ .idle → s.ie = false
  /-- `DONE` only in an `IDLE` tick (R32) -/
  donePulse : s.done = true → s.st = .idle
  /-- the range of BITCNT (R23) -/
  bitcnt : s.bitcnt.toNat ≤ 7
  /-- the range of TXIDX (R24) -/
  txidx : s.txidx.toNat ≤ s.n.toNat
  /-- the range of RXIDX (R25) -/
  rxidx : s.receiving → s.rxidx.toNat < s.m.toNat
  /-- the range of CNT (R26) -/
  cnt : CntOk s
  /-- the samples so far, right-aligned, the higher bits 0 (R22) -/
  shreg : s.receiving → s.shreg.toNat < 2 ^ s.bitcnt.toNat
  /-- nothing has been sent yet in `ARM` -/
  armed : s.st = .arm → s.txidx = 0 ∧ s.bitcnt = 0
  /-- the stop bit comes after the last command byte, carries a 1 (R27, R104), and the optional wait exists
  only with a `STOP_TAIL` (R30) -/
  stopping : s.st = .stopLow ∨ s.st = .stopHigh → s.curbit = true ∧ s.bitcnt = 0 ∧ s.txidx = s.n
  tail : s.st = .stopHigh → 0 < s.cfg.stopTail
  /-- the buffer addresses have `ADDR_W` bits (R29) -/
  bases : s.cbase < 2 ^ s.cfg.addrW ∧ s.rbase < 2 ^ s.cfg.addrW
  /-- memory (R50) -/
  mem : MemOk s

/-! ### The relay's frames -/

/-- In the tick `j` ticks from now a read of command bytes goes on: the caller does nothing of its own (log 8). -/
def State.readsOn (s : State) (j : Nat) : Prop := (s.inputAt j).act = .quiet ∨ (s.inputAt j).act = .relay

/-- The relay has read the header of a frame in the current tick: N and M, the addresses on the ports (the model's
choice, log 8), the start of its read; nothing has been sent (R143). -/
structure FrameBegun (n m : Byte) (s t : State) : Prop where
  frameN : t.frameN = n
  frameM : t.frameM = m
  frameCmd : t.frameCmd = s.portCmdBase
  frameResp : t.frameResp = s.portRespBase
  frameTick : t.frameTick = s.now + 1
  portCmdBase : t.portCmdBase = s.portCmdBase
  portRespBase : t.portRespBase = s.portRespBase
  hostOut : t.hostOut = s.hostOut

/-- The command of a frame has been placed: the first `n` of the bytes that came stand in `BUF` from `base` on, the
others are still in the queue, nothing else in `BUF` has changed, and the transaction is next (R143, R144). -/
structure CommandPlaced (base : Nat) (n : Byte) (bytes : List Byte) (s t : State) : Prop where
  relay : t.relay = .transact
  hostIn : t.hostIn = bytes.drop n.toNat
  placed : MemOk s → ∀ i < n.toNat, memRead t (s.wrap (base + i)) = bytes.getD i 0
  others : ∀ x, (∀ i < n.toNat, x ≠ s.wrap (base + i)) → memRead t x = memRead s x

/-- A starved frame has been dropped: all its bytes that came are gone, `BUF` is untouched, the next header is awaited
(R146). -/
structure FrameDropped (s t : State) : Prop where
  relay : t.relay = .waitHeader
  hostIn : t.hostIn = []
  memory : SameMemory s t

end Sys2Proof.Machine
end

