-- ==== Sys2Proof/Certificates/Slice0/Obligations.lean ====
section
/-! DEFINITION. The statements for the provers, from the numbered rules of the spec. -/

open Sys2Proof Sys2Proof.Machine

/-! ### Encodings -/

/-- Decoding the word of any operation gives the operation back, with every field at every value (R70 to R77, R84). -/
def Obligations.DecodeOfEncode : Prop :=
  ∀ i : Instr, decode (encode i) = .ok i

/-- Each word has one meaning: a word that decodes is the word of what it decodes to (R70 to R77, R84). -/
def Obligations.EncodeOfDecode : Prop :=
  ∀ (w : OpWord) (i : Instr), decode w = .ok i → encode i = w

/-- The decoder accepts exactly the well-formed words, each at the site the model reads its image at (log 7): the right
length and every fixed character of the formats (R70, R71, R72, R75, R104, R130). Two of its refusals are the model's reading
of words: that of a received symbol or byte whose slots 1 and 2 differ (log 7; the receiver itself samples such a waveform,
R80 (c), V23), and that of every image but 255 and 254 for a sentinel, whatever `SENT_HI` and `SENT_LO` are (log 11). -/
def Obligations.DecodeAcceptsExactlyWellFormed : Prop :=
  ∀ w : OpWord, (∃ i, decode w = .ok i) ↔ w.wf = true

/-- Words written out character by character from R71, R75, R76, R77 and R84, each at the site the model reads its image
at (log 7), decode to the operation of that row. The last clause, that a received symbol's word with slots 1 and 2 different
is refused, is the model's reading of words: the receiver itself samples such a waveform (R80 (c), V23). -/
def Obligations.WrittenOutWordsDecode : Prop :=
  decode ⟨.pinDirection, [true]⟩ = .ok .driveLow ∧
  decode ⟨.pinDirection, [false]⟩ = .ok .release ∧
  decode ⟨.txSymbol, [false, false, false, true]⟩ = .ok .tx0 ∧
  decode ⟨.txStop, [false, true, true, true]⟩ = .ok .txstop ∧
  decode ⟨.respSlot, [true, true, true, true, true, true, true, false]⟩ = .ok .injectLo ∧
  decode ⟨.irqLeave, [true]⟩ = .ok (.irqExit true) ∧
  decode ⟨.blockHeader, [false, false, false, false, false, false, false, true,
    false, false, false, false, false, true, false, false]⟩ = .ok (.transact 1 4) ∧
  decode ⟨.rxSymbol, [false, false, true, true]⟩ = .error .slotsDiffer

/-! ### The step -/

/-- A presented word that decodes is run by the next step, and so is a bare table word. The model's own access
(log 1). -/
def Obligations.StepRunsPresentedOperation : Prop :=
  (∀ (s : State) (w : OpWord) (rest : List OpWord) (i : Instr),
    s.ops = w :: rest → decode w = .ok i → step s = exec i { s with ops := rest }) ∧
  ∀ (s : State) (nbits w : Nat) (i : Instr),
    decodeTableWord nbits w = some i → step (s.withFetchWord nbits w) = exec i s

/-- With nothing presented a step is one clock tick (R8, R125). -/
def Obligations.StepIsOneClockTick : Prop :=
  ∀ s : State, s.ops = [] → step s = .next (tick s)

/-- A step always gives a next state, whatever the state and its inputs, unless a word outside the table is
presented (R125, R155); it uses up at most one presented operation, the one it ran. -/
def Obligations.StepGivesANextState : Prop :=
  ∀ s : State, (∀ w rest, s.ops = w :: rest → w.wf = true) → ∃ t, step s = .next t ∧ t.ops = s.ops.tail

/-! ### Reset -/

/-- `rst` overrides everything in its tick: the tick itself and every operation presented in it (R163, R175). That the
relay is then back in `WAIT_HEADER`, its frame forgotten, is the model's choice (log 9). -/
def Obligations.ResetOverridesEverything : Prop :=
  ∀ (s : State), s.input.rst = true →
    tick s = resetStep s ∧ (∀ i : Instr, exec i s = .next (resetStep s)) ∧
    (resetStep s).relay = .waitHeader ∧ (resetStep s).hostOut = s.hostOut ∧ Passed 1 s (resetStep s)

/-- The state after a step with `rst = 1` has the values of the table of R43. -/
def Obligations.ResetLeavesTheResetValues : Prop :=
  ∀ s : State, s.ops = [] → s.input.rst = true →
    ∃ t, step s = .next t ∧
      t.st = .idle ∧ t.busy = false ∧ t.dir = .input ∧ t.pinOe = false ∧ t.pinOut = false ∧ t.done = false ∧
      t.shreg = 0 ∧ t.bitcnt = 0 ∧ t.txidx = 0 ∧ t.rxidx = 0 ∧ t.cnt = 0 ∧ t.curbit = false ∧
      t.n = 0 ∧ t.m = 0 ∧ t.cbase = 0 ∧ t.rbase = 0 ∧ t.ieSaved = false ∧ t.ie = s.cfg.ieReset ∧
      SameMemory s t ∧ t.line = !t.input.extLow

/-! ### The caller -/

/-- Acceptance of `start` (R129): while `BUSY = 1` it is ignored, and so are the operand ports (the tick is the same
whatever the caller does); in every `IDLE` tick, one with `DONE = 1` too, it is accepted: the operands are latched,
interrupts masked and the pin released (R125, R28, R29). -/
def Obligations.StartIsAcceptedWhenIdleOnly : Prop :=
  (∀ (s : State) (i : TickIn) (rest : List TickIn) (act : CallerAct), s.busy = true → s.env = i :: rest →
    tick { s with env := { i with act := act } :: rest } = tick s) ∧
  ∀ (s : State) (cb rb : Nat) (n m : Byte), s.ops = [] → s.busy = false → s.input.rst = false →
    s.input.act = .start cb n rb m →
    ∃ t, step s = .next t ∧ t.st = .arm ∧ t.n = n ∧ t.m = m ∧ t.cbase = s.wrap cb ∧ t.rbase = s.wrap rb ∧
      t.ieSaved = s.ie ∧ t.ie = false ∧ t.dir = .input ∧ t.txidx = 0 ∧ t.rxidx = 0 ∧ t.bitcnt = 0 ∧ t.shreg = 0 ∧
      t.cnt = 0 ∧ t.curbit = false ∧ t.done = false ∧ SameMemory s t ∧ Passed 1 s t

/-- What else the caller can do in an `IDLE` tick (R8): nothing, and then nothing changes (R125) unless a read of command
bytes is in progress; write IE (R36); write a byte of `BUF` (R50, R180); choose the addresses it will present (R144, D23; the
model's act, log 10). -/
def Obligations.CallerActsInIdleTicks : Prop :=
  ∀ s : State, s.ops = [] → s.st = .idle → s.input.rst = false →
    (s.input.act = .quiet → s.relay ≠ .waitCommand → step s = .next (elapse s)) ∧
    (∀ v, s.input.act = .setIe v → ∃ t, step s = .next t ∧ t.ie = v ∧ t.ieSaved = s.ieSaved ∧ t.st = .idle ∧
      t.dir = s.dir ∧ t.done = false ∧ t.gap = s.gapLeft - 1 ∧ SameDatapath s t ∧ SameOperands s t ∧ SameMemory s t ∧
      SameCaller s t ∧ Passed 1 s t) ∧
    (∀ a v, s.input.act = .store a v → ∃ t, step s = .next t ∧ (MemOk s → memRead t (s.wrap a) = v) ∧
      SameMemoryBut (s.wrap a) s t ∧ t.gap = s.gapLeft - 1 ∧ SameBlock s t ∧ SameCaller s t ∧ Passed 1 s t) ∧
    (∀ cb rb, s.input.act = .place cb rb → ∃ t, step s = .next t ∧ t.portCmdBase = cb ∧ t.portRespBase = rb ∧
      t.gap = s.gapLeft - 1 ∧ SameBlock s t ∧ SameMemory s t ∧ Passed 1 s t ∧
      SameCaller s { t with portCmdBase := s.portCmdBase, portRespBase := s.portRespBase })

/-- A read of command bytes in progress, in a tick the caller leaves to it (R143): once all N bytes have come they are
placed in `BUF`; until then the relay waits, and `RELAY_READ_TIMEOUT` ticks after the read began the starved frame is dropped
(R141, R146). That the duration is counted in ticks from the header is the model's choice (log 12), and that the read ends in
one tick (log 8). -/
def Obligations.CommandReadEndsOrWaits : Prop :=
  ∀ s : State, s.ops = [] → s.st = .idle → s.input.rst = false → s.relay = .waitCommand → s.readsOn 0 →
    let bytes := s.hostIn ++ s.input.rx
    (s.frameN.toNat ≤ bytes.length → ∃ t, step s = .next t ∧ CommandPlaced s.frameCmd s.frameN bytes s t ∧
      t.gap = s.gapLeft - 1 ∧ SameBlock s t ∧ SameCaller s { t with relay := s.relay } ∧ PassedReading 1 s t) ∧
    (bytes.length < s.frameN.toNat → s.now + 1 < s.frameTick + s.cfg.readTimeout → step s = .next (elapse s)) ∧
    (bytes.length < s.frameN.toNat → s.frameTick + s.cfg.readTimeout ≤ s.now + 1 → ∃ t, step s = .next t ∧
      FrameDropped s t ∧ t.gap = s.gapLeft - 1 ∧ SameBlock s t ∧ SameCaller s { t with relay := s.relay } ∧
      PassedReading 1 s t)

/-- An operation of the caller presented to a busy block is ignored: the tick runs as if nothing had been presented
(R8, R129; log 1). -/
def Obligations.BusyBlockIgnoresTheCaller : Prop :=
  ∀ s : State, s.busy = true →
    (∀ n m, exec (.transact n m) s = .next (tick s)) ∧ (∀ n m, exec (.relayFrame n m) s = .next (tick s)) ∧
    (∀ v, exec (.relayReply v) s = .next (tick s)) ∧ exec .relayDrop s = .next (tick s)

/-! ### The pin and the line -/

/-- `DRIVE_LOW` completes: `DIR <- OUT`, and nothing else but the passing of the tick (R90). -/
def Obligations.DriveLowSetsDirection : Prop :=
  ∀ s : State, s.input.rst = false →
    ∃ t, exec .driveLow s = .next t ∧ t.dir = .output ∧ t.pinOe = true ∧ t.line = false ∧
      t.st = s.st ∧ t.done = false ∧ t.gap = s.gapLeft - 1 ∧ SameDatapath s t ∧ SameOperands s t ∧ SameIe s t ∧
      SameMemory s t ∧ SameCaller s t ∧ Passed 1 s t

/-- `RELEASE` completes: `DIR <- IN`, and nothing else but the passing of the tick (R91). -/
def Obligations.ReleaseClearsDirection : Prop :=
  ∀ s : State, s.input.rst = false →
    ∃ t, exec .release s = .next t ∧ t.dir = .input ∧ t.pinOe = false ∧ t.line = !t.input.extLow ∧
      t.st = s.st ∧ t.done = false ∧ t.gap = s.gapLeft - 1 ∧ SameDatapath s t ∧ SameOperands s t ∧ SameIe s t ∧
      SameMemory s t ∧ SameCaller s t ∧ Passed 1 s t

/-- `SENSE` completes: its result is the line of this very tick, and nothing else changes (R92). That the result is
kept in a field is the model's own (log 6). -/
def Obligations.SenseReadsTheLine : Prop :=
  ∀ (s : State) (p : Bool), s.input.rst = false →
    ∃ t, exec (.sense p) s = .next t ∧ t.sensed = s.line ∧
      t.dir = s.dir ∧ t.st = s.st ∧ t.done = false ∧ t.gap = s.gapLeft - 1 ∧ SameDatapath s t ∧ SameOperands s t ∧
      SameIe s t ∧ SameMemory s t ∧ SameCaller s t ∧ Passed 1 s { t with sensed := s.sensed }

/-- The line is the wired-AND of the block and the controller (R93); the output latch is 0 (R35). -/
def Obligations.LineIsWiredAnd : Prop :=
  ∀ s : State, (s.line = false ↔ s.dir = .output ∨ s.input.extLow = true) ∧ s.pinOut = false ∧
    (s.pinOe = true ↔ s.dir = .output)

/-! ### Interrupt masking -/

/-- `IRQ_ENTER` completes: `IE_SAVED <- IE; IE <- 0`, and nothing else but the passing of the tick (R130). -/
def Obligations.IrqEnterSavesAndMasks : Prop :=
  ∀ s : State, s.input.rst = false →
    ∃ t, exec .irqEnter s = .next t ∧ t.ieSaved = s.ie ∧ t.ie = false ∧
      t.dir = s.dir ∧ t.st = s.st ∧ t.done = false ∧ t.gap = s.gapLeft - 1 ∧ SameDatapath s t ∧ SameOperands s t ∧
      SameMemory s t ∧ SameCaller s t ∧ Passed 1 s t

/-- `IRQ_EXIT` completes: `IE <- IE_SAVED`, and nothing else but the passing of the tick (R131). -/
def Obligations.IrqExitRestores : Prop :=
  ∀ (s : State) (b : Bool), s.input.rst = false →
    ∃ t, exec (.irqExit b) s = .next t ∧ t.ie = s.ieSaved ∧ t.ieSaved = s.ieSaved ∧
      t.dir = s.dir ∧ t.st = s.st ∧ t.done = false ∧ t.gap = s.gapLeft - 1 ∧ SameDatapath s t ∧ SameOperands s t ∧
      SameMemory s t ∧ SameCaller s t ∧ Passed 1 s t

/-! ### Transmit -/

/-- `TX0` and `TX1` complete with the schedule of R100 and R101: driven low for `Low(b)` ticks, released for the rest of
`4*T`, CNT counting down, and the next operation begins exactly `4*T` ticks after the symbol began (R102). -/
def Obligations.SymbolSchedule : Prop :=
  ∀ (s : State) (b : Bool), NoReset s (s.period + 1) →
    let a := startSymbol b (elapse s)
    (encode (if b then .tx1 else .tx0)).image = [false, b, b, true] ∧
    exec (if b then .tx1 else .tx0) s = .next (ticks s.period a) ∧
    (∀ j < s.low b, (ticks j a).st = .txLow ∧ (ticks j a).dir = .output ∧ (ticks j a).line = false ∧
      (ticks j a).curbit = b ∧ (ticks j a).cnt = s.low b - j) ∧
    (∀ j, s.low b ≤ j → j < s.period → (ticks j a).st = .txHigh ∧ (ticks j a).dir = .input ∧
      (ticks j a).line = s.wireAt (1 + j) ∧ (ticks j a).curbit = b ∧ (ticks j a).cnt = s.period - j) ∧
    ticks s.period a =
      nextSymbol (((elapseN (s.period + 1) s).inPhase .txHigh .input 1).withBits s.shreg s.bitcnt b)

/-- `TXBYTE(v)` completes: in its `32*T` ticks the block drives the line exactly as the 32 characters of the byte's
image say, `T` ticks each (R72, R103), `TXIDX` counts the byte, and the next operation begins at once (R102). That
a TXBYTE presented alone sends the v of its word is the model's choice (log 16). -/
def Obligations.TxByteDrivesItsImage : Prop :=
  ∀ (s : State) (v : Byte), NoReset s (8 * s.period + 1) →
    let a := startByte v (elapse s)
    exec (.txbyte v) s = .next (ticks (8 * s.period) a) ∧
    (∀ i < 32, ∀ j < s.t, (ticks (s.t * i + j) a).dir =
      if (encode (.txbyte v)).image.getD i true then .input else .output) ∧
    ticks (8 * s.period) a =
      nextSymbol ((((elapseN (8 * s.period + 1) s).inPhase .txHigh .input 1).withBits 0 0 (v.getLsbD 0)).withTxidx
        (s.txidx + 1))

/-- `TXSTOP` completes with the schedule of R104: low for `T` ticks, released for `STOP_TAIL` ticks, then the first
response byte begins, or the transaction finishes when `M = 0`. -/
def Obligations.TxStopSchedule : Prop :=
  ∀ s : State, NoReset s (s.t + s.cfg.stopTail + 1) →
    let a := startStop (elapse s)
    ∃ t, exec .txstop s = .next t ∧ t = ticks (s.t + s.cfg.stopTail) a ∧
    (∀ j < s.t, (ticks j a).st = .stopLow ∧ (ticks j a).dir = .output ∧ (ticks j a).curbit = true ∧
      (ticks j a).cnt = s.t - j) ∧
    (∀ j, s.t ≤ j → j < s.t + s.cfg.stopTail → (ticks j a).st = .stopHigh ∧ (ticks j a).dir = .input ∧
      (ticks j a).curbit = true ∧ (ticks j a).cnt = s.t + s.cfg.stopTail - j) ∧
    t.dir = .input ∧ t.txidx = s.txidx ∧ SameOperands s t ∧ SameCaller s t ∧ SameMemory s t ∧
    Passed (s.t + s.cfg.stopTail + 1) s t ∧ t.ieSaved = s.ieSaved ∧
    (s.m ≠ 0 → t.st = .rxWaitHigh ∧ t.cnt = 0 ∧ t.rxidx = 0 ∧ t.shreg = 0 ∧ t.bitcnt = 0 ∧ t.done = false ∧
      t.ie = s.ie) ∧
    (s.m = 0 → t.st = .idle ∧ t.done = true ∧ t.ie = s.ieSaved ∧ t.rxidx = s.rxidx)

/-- What sending a data symbol or a byte leaves unchanged: memory, the operands, IE, the receive index, the caller
(R57, R100, R101, R103). -/
def Obligations.TransmitFrame : Prop :=
  ∀ (s : State) (i : Instr) (k : Nat),
    (i = .tx0 ∧ k = s.period ∨ i = .tx1 ∧ k = s.period ∨ (∃ v, i = .txbyte v) ∧ k = 8 * s.period) →
    NoReset s (k + 1) →
    ∃ t, exec i s = .next t ∧ SameMemory s t ∧ SameOperands s t ∧ SameIe s t ∧ SameCaller s t ∧
      t.rxidx = s.rxidx ∧ t.done = false ∧ Passed (k + 1) s t

/-- The transmit phase never reads the line: if someone else holds it low, the block's state runs exactly as if they did
not (R95, R92). -/
def Obligations.TransmitIgnoresTheLine : Prop :=
  (∀ s s' : State, SameButLine s s' → ¬ s.receiving → SameButLine (tick s) (tick s')) ∧
  ∀ (s s' : State) (n m : Byte), SameButLine s s' → NoReset s (2 + 8 * s.period * n.toNat + s.t + s.cfg.stopTail) →
    ∀ k ≤ 1 + 8 * s.period * n.toNat + s.t + s.cfg.stopTail,
      SameButLine (ticks k (accept n m (elapse s))) (ticks k (accept n m (elapse s')))

/-! ### Receive -/

/-- `WAIT_HIGH` completes (R111): it ends at the first high poll, or, if `POLL_CAP` polls are low, stores `SENT_HI` and
goes on. While the block itself drives the line, every poll is low. -/
def Obligations.WaitHighEndsOrTimesOut : Prop :=
  ∀ s : State, NoReset s (s.cfg.pollCap + 1) →
    (s.dir = .input → ∀ h < s.cfg.pollCap, (∀ j < h, s.wireAt (1 + j) = false) → s.wireAt (1 + h) = true →
      ∃ t, exec .waitHigh s = .next t ∧ t.st = .rxWaitLow ∧ t.cnt = 0 ∧ t.shreg = s.shreg ∧ t.bitcnt = s.bitcnt ∧
        t.txidx = s.txidx ∧ t.rxidx = s.rxidx ∧ t.curbit = s.curbit ∧ t.dir = .input ∧ t.done = false ∧
        SameOperands s t ∧ SameIe s t ∧ SameMemory s t ∧ SameCaller s t ∧ Passed (1 + (h + 1)) s t) ∧
    ((s.dir = .output ∨ ∀ j < s.cfg.pollCap, s.wireAt (1 + j) = false) →
      ∃ t, exec .waitHigh s = .next t ∧ ByteStored s.cfg.sentHi s t ∧ Passed (1 + s.cfg.pollCap) s t)

/-- `WAIT_LOW` completes (R112): it ends at the first low poll, with the delay of `2*T` ticks to come, or, if `POLL_CAP`
polls are high, stores `SENT_LO` and goes on. While the block itself drives the line, the first poll is low. -/
def Obligations.WaitLowEndsOrTimesOut : Prop :=
  ∀ s : State, NoReset s (s.cfg.pollCap + 1) →
    (∀ l < s.cfg.pollCap, (s.dir = .output ∧ l = 0 ∨
        s.dir = .input ∧ (∀ j < l, s.wireAt (1 + j) = true) ∧ s.wireAt (1 + l) = false) →
      ∃ t, exec .waitLow s = .next t ∧ t.st = .rxDelay ∧ t.cnt = s.sampleDelay ∧ t.shreg = s.shreg ∧
        t.bitcnt = s.bitcnt ∧ t.txidx = s.txidx ∧ t.rxidx = s.rxidx ∧ t.curbit = s.curbit ∧ t.dir = s.dir ∧
        t.done = false ∧ SameOperands s t ∧ SameIe s t ∧ SameMemory s t ∧ SameCaller s t ∧ Passed (1 + (l + 1)) s t) ∧
    (s.dir = .input → (∀ j < s.cfg.pollCap, s.wireAt (1 + j) = true) →
      ∃ t, exec .waitLow s = .next t ∧ ByteStored s.cfg.sentLo s t ∧ Passed (1 + s.cfg.pollCap) s t)

/-- `RXBIT` completes (R113): the fall observed, the line is sampled once, `2*T` ticks later, and the sample is shifted into
`SHREG`, the eighth completing the byte; or one of the two waits times out and ends the byte with its sentinel. While
the block itself drives the line, the wait for high times out. -/
def Obligations.RxBitSamplesAtMidBit : Prop :=
  ∀ (s : State) (d : Bool), NoReset s (1 + s.bitTicks) →
    (∀ h l, s.dir = .input → h < s.cfg.pollCap → l < s.cfg.pollCap →
      (∀ j < h, s.wireAt (1 + j) = false) → s.wireAt (1 + h) = true →
      (∀ j < l, s.wireAt (1 + (h + 1) + j) = true) → s.wireAt (1 + (h + 1) + l) = false →
      ∃ t, exec (.rxbit d) s = .next t ∧ Passed (1 + (h + 1) + (l + 1) + s.sampleDelay) s t ∧
        (s.bitcnt ≠ 7 → t.st = .rxWaitHigh ∧ t.cnt = 0 ∧ t.bitcnt = s.bitcnt + 1 ∧
          t.shreg = shiftIn s.shreg (s.wireAt (1 + (h + 1) + l + s.sampleDelay)) ∧ t.rxidx = s.rxidx ∧
          t.txidx = s.txidx ∧ t.dir = .input ∧ t.done = false ∧
          SameOperands s t ∧ SameIe s t ∧ SameMemory s t ∧ SameCaller s t) ∧
        (s.bitcnt = 7 → ByteStored (shiftIn s.shreg (s.wireAt (1 + (h + 1) + l + s.sampleDelay))) s t)) ∧
    ((s.dir = .output ∨ ∀ j < s.cfg.pollCap, s.wireAt (1 + j) = false) →
      ∃ t, exec (.rxbit d) s = .next t ∧ ByteStored s.cfg.sentHi s t ∧ Passed (1 + s.cfg.pollCap) s t) ∧
    (s.dir = .input → ∀ h < s.cfg.pollCap, (∀ j < h, s.wireAt (1 + j) = false) → s.wireAt (1 + h) = true →
      (∀ j < s.cfg.pollCap, s.wireAt (1 + (h + 1) + j) = true) →
      ∃ t, exec (.rxbit d) s = .next t ∧ ByteStored s.cfg.sentLo s t ∧ Passed (1 + (h + 1) + s.cfg.pollCap) s t)

/-- `RXBYTE` completes on every waveform: within `8*(2*POLL_CAP + 2*T)` ticks exactly one byte is written, in the slot of
the byte being received, nothing is read, and the phase goes on. The byte is what the last tick says: `SENT_HI` if it is a low
poll of a wait for high, `SENT_LO` if it is a high poll of a wait for low, else the seven samples in `SHREG` and the eighth,
the line in that tick (R114, R115, R116, R119). -/
def Obligations.RxByteStoresOneByte : Prop :=
  ∀ (s : State) (w : Byte), NoReset s (1 + 8 * s.bitTicks) →
    let a := startRxByte (elapse s)
    ∃ v k, exec (.rxbyte w) s = .next (ticks k a) ∧ 1 ≤ k ∧ k ≤ 8 * s.bitTicks ∧
      writeTrace k a = [s.respAddr s.rxidx.toNat] ∧ readTrace k a = [] ∧
      ByteStored v s (ticks k a) ∧ Passed (1 + k) s (ticks k a) ∧
      let u := ticks (k - 1) a
      (u.st = .rxWaitHigh ∧ u.line = false ∧ v = s.cfg.sentHi ∨
        u.st = .rxWaitLow ∧ u.line = true ∧ v = s.cfg.sentLo ∨
        u.st = .rxDelay ∧ u.bitcnt = 7 ∧ v = shiftIn u.shreg u.line)

/-- `RXBYTE` reads its image: if the controller, after a silence of `f` ticks, puts the 32 characters of a byte's image on
the wire, `T` ticks each, that byte is stored, at the tick that samples its last bit (R72, R79, R114, R118). -/
def Obligations.RxByteReadsItsImage : Prop :=
  ∀ (s : State) (v w : Byte) (f : Nat), s.dir = .input →
    2 * s.t - 1 ≤ s.cfg.pollCap → 1 ≤ f → f ≤ s.cfg.pollCap →
    NoReset s (1 + f + 8 * s.period) →
    (∀ j < f, (s.inputAt (1 + j)).extLow = false) →
    (∀ i < 32, ∀ j < s.t, (s.inputAt (1 + f + s.t * i + j)).extLow = !(encode (.rxbyte v)).image.getD i true) →
    ∃ t, exec (.rxbyte w) s = .next t ∧ ByteStored v s t ∧ Passed (1 + f + 7 * s.period + s.sampleDelay + 1) s t

/-- `INJECT_HI` and `INJECT_LO` complete: the sentinel of the configuration is stored in the byte's slot and the next
byte begins or the transaction finishes (R115, R116). -/
def Obligations.InjectStoresItsSentinel : Prop :=
  ∀ s : State, s.input.rst = false →
    (∃ t, exec .injectHi s = .next t ∧ ByteStored s.cfg.sentHi s t ∧ Passed 1 s t) ∧
    ∃ t, exec .injectLo s = .next t ∧ ByteStored s.cfg.sentLo s t ∧ Passed 1 s t

/-- A timeout in a clock tick (R164): in the `Step` of the `POLL_CAP`-th failed poll the sentinel of that wait is stored
and the phase goes on; the interrupt enable, `DIR` and the operands are not changed while bytes are still to come. -/
def Obligations.TimeoutEntry : Prop :=
  ∀ s : State, s.ops = [] → s.input.rst = false → s.cfg.pollCap ≤ s.cnt + 1 →
    (s.st = .rxWaitHigh → s.line = false →
      ∃ t, step s = .next t ∧ ByteStored s.cfg.sentHi s t ∧ Passed 1 s t) ∧
    (s.st = .rxWaitLow → s.line = true →
      ∃ t, step s = .next t ∧ ByteStored s.cfg.sentLo s t ∧ Passed 1 s t)

/-! ### The transaction -/

/-- `TRANSACT` presented to an idle block always completes, within the duration of R133, with interrupts restored, the line
released and `DONE` set (R128, R131, R133, R137). -/
def Obligations.TransactAlwaysEnds : Prop :=
  ∀ (s : State) (n m : Byte), s.st = .idle → NoReset s (1 + s.transactTicks n m) →
    ∃ t r, exec (.transact n m) s = .next t ∧
      r ≤ m.toNat * (8 * (2 * s.cfg.pollCap + 2 * s.t)) ∧ (m = 0 → r = 0) ∧
      Passed (2 + 32 * s.t * n.toNat + s.t + s.cfg.stopTail + r) s t ∧
      t.st = .idle ∧ t.done = true ∧ t.dir = .input ∧ t.ie = s.ie ∧ t.ieSaved = s.ie ∧ t.n = n ∧ t.m = m ∧
      t.txidx = n ∧ SameCaller s t

/-- The memory accesses of a transaction: each command byte is read exactly once, in order, each response byte written
exactly once, in order, every read in the `p` ticks of the transmit phase and every write after them, and nothing else, so
every byte outside the response buffer is unchanged (R57, R58, R61 (a)). -/
def Obligations.TransactAccesses : Prop :=
  ∀ (s : State) (n m : Byte), s.st = .idle → NoReset s (1 + s.transactTicks n m) →
    let a := accept n m (elapse s)
    let p := 1 + 8 * s.period * n.toNat + s.t + s.cfg.stopTail
    ∃ k, exec (.transact n m) s = .next (ticks k a) ∧ (ticks k a).done = true ∧
      p ≤ k ∧ writeTrace p a = [] ∧ readTrace (k - p) (ticks p a) = [] ∧
      readTrace k a = (List.range n.toNat).map (fun i => s.wrap (s.portCmdBase + i)) ∧
      writeTrace k a = (List.range m.toNat).map (fun j => s.wrap (s.portRespBase + j)) ∧
      ∀ x, (∀ j < m.toNat, x ≠ s.wrap (s.portRespBase + j)) → memRead (ticks k a) x = memRead s x

/-- The transmit phase of a transaction puts on the line, `T` ticks a character, the images of the command bytes as they
stood in `BUF` at `start`, then the low phase of the stop bit (R65, R73, R105, R126). -/
def Obligations.TransactSendsTheCommand : Prop :=
  ∀ (s : State) (n m : Byte), s.st = .idle → NoReset s (1 + s.transactTicks n m) →
    let a := accept n m (elapse s)
    a.dir = .input ∧ a.ie = false ∧
    (∀ i < n.toNat, ∀ c < 32, ∀ j < s.t,
      (ticks (1 + 8 * s.period * i + s.t * c + j) a).dir =
        if (byteImage (memRead s (s.wrap (s.portCmdBase + i)))).getD c true then .input else .output) ∧
    ∀ j < s.t, (ticks (1 + 8 * s.period * n.toNat + j) a).dir = .output

/-- Correct reception (R118): against a conforming reply of at least M bytes, with `POLL_CAP >= 2*T - 1`, the response
buffer ends as the first M bytes of the reply, at the tick R133 gives. -/
def Obligations.TransactReceivesConformingReply : Prop :=
  ∀ (s : State) (n m : Byte) (w : List Byte) (f : Nat), s.st = .idle → NoReset s (1 + s.transactTicks n m) →
    MemOk s → 2 * s.t - 1 ≤ s.cfg.pollCap → 0 < m.toNat → m.toNat ≤ w.length →
    ConformingReply s (2 + 32 * s.t * n.toNat + s.t + s.cfg.stopTail) f w →
    ∃ t, exec (.transact n m) s = .next t ∧ t.done = true ∧
      (∀ j < m.toNat, memRead t (s.wrap (s.portRespBase + j)) = w.getD j 0) ∧
      Passed (2 + 32 * s.t * n.toNat + s.t + s.cfg.stopTail +
        (f + 32 * s.t * (m.toNat - 1) + 28 * s.t + 2 * s.t + 1)) s t

/-- A line that never moves in the receive phase: with no controller every response byte is `SENT_LO`, each costing
`1 + POLL_CAP` ticks; with the line held low every one is `SENT_HI`, each costing `POLL_CAP` ticks (R115, R116, R119). -/
def Obligations.TransactOnADeadLine : Prop :=
  ∀ (s : State) (n m : Byte), s.st = .idle → NoReset s (1 + s.transactTicks n m) → MemOk s →
    let r := 2 + 32 * s.t * n.toNat + s.t + s.cfg.stopTail
    ((∀ j < m.toNat * (1 + s.cfg.pollCap), s.wireAt (r + j) = true) →
      ∃ t, exec (.transact n m) s = .next t ∧ Passed (r + m.toNat * (1 + s.cfg.pollCap)) s t ∧
        ∀ j < m.toNat, memRead t (s.wrap (s.portRespBase + j)) = s.cfg.sentLo) ∧
    ((∀ j < m.toNat * s.cfg.pollCap, s.wireAt (r + j) = false) →
      ∃ t, exec (.transact n m) s = .next t ∧ Passed (r + m.toNat * s.cfg.pollCap) s t ∧
        ∀ j < m.toNat, memRead t (s.wrap (s.portRespBase + j)) = s.cfg.sentHi)

/-- A transaction started at the ports of a block that nobody presents operations to runs, tick by tick, to the very state
the operation `TRANSACT` gives (R125, R128). -/
def Obligations.PortStartRunsTransact : Prop :=
  ∀ (s : State) (cb rb : Nat) (n m : Byte), s.ops = [] → s.st = .idle → s.input.act = .start cb n rb m →
    NoReset s (1 + s.transactTicks n m) →
    ∃ k t, Sys2Proof.core.run k s = .next t ∧ t.done = true ∧
      exec (.transact n m) { s with portCmdBase := cb, portRespBase := rb } = .next t

/-- The complete list of `ST` transitions, each with its condition (R127). -/
def Obligations.TransitionTable : Prop :=
  ∀ s t : State, BlockInv s → step s = .next t → t.st = s.nextPlace

/-- The two flags (R32): `BUSY = 1` exactly when `ST != IDLE`; the `Step` that finishes a transaction sets `DONE`, every
other clears it. -/
def Obligations.DoneAfterFinishOnly : Prop :=
  (∀ s : State, s.busy = true ↔ s.st ≠ .idle) ∧
  ∀ s t : State, s.ops = [] → step s = .next t →
    (t.done = true ↔ s.input.rst = false ∧ s.busy = true ∧ t.busy = false)

/-! ### Invariants -/

/-- The invariant holds after reset. -/
def Obligations.InvariantAtReset : Prop := BlockInv State.reset

/-- Every step keeps the invariant: the line is driven in the low phases only, interrupts are masked while busy, every
register is in its range, memory is canonical (R22 to R36, R44, R94, R162). -/
def Obligations.StepKeepsInvariant : Prop :=
  ∀ s t : State, BlockInv s → step s = .next t → BlockInv t

/-- Every step, of a tick or of any operation presented, keeps memory canonical and inside `BUF` (R50). -/
def Obligations.EveryStepKeepsMemoryOk : Prop :=
  ∀ s t : State, MemOk s → step s = .next t → MemOk t

/-- No step, of a tick or of any operation presented, writes the configuration (R38). -/
def Obligations.NoStepWritesConfiguration : Prop :=
  ∀ s t : State, step s = .next t → t.cfg = s.cfg

/-! ### Memory -/

/-- Writes that leave every byte the same give the same state: a second write to an address replaces the first, writes to
two addresses commute, and writing what is there changes nothing. That memory is a canonical list is the model's choice
(log 5); what a read gives is R52, R53. -/
def Obligations.WritesReplaceAndCommute : Prop :=
  ∀ (s : State) (x y : Nat) (v w : Byte), Memory.wf s.mem = true →
    memWrite x v (memWrite x w s) = memWrite x v s ∧
    (x ≠ y → memWrite x v (memWrite y w s) = memWrite y w (memWrite x v s)) ∧
    memWrite x (memRead s x) s = s

/-- The memory port of a busy block: a byte written in a tick is there in the next, all else unchanged; a byte read is the
one there during the tick, and starts to go out; at most one access a tick (R52, R53, R65). -/
def Obligations.PortAccesses : Prop :=
  ∀ s : State, s.busy = true → Memory.wf s.mem = true →
    match memPort s with
    | .none => SameMemory s (tick s)
    | .read a => SameMemory s (tick s) ∧ (tick s).curbit = (memRead s a).msb ∧ (tick s).shreg = memRead s a <<< 1 ∧
        (tick s).txidx = s.txidx + 1 ∧ a = s.cmdAddr s.txidx.toNat
    | .write a v => memRead (tick s) a = v ∧ SameMemoryBut a s (tick s) ∧ a = s.respAddr s.rxidx.toNat

/-! ### The relay -/

/-- `RELAY_FRAME` completes once all its command bytes are there, at once (`w = 0`) or after waiting `w` ticks, at most the
read timeout: they are placed in `BUF` in order, nothing else there changes, and the relay goes on to the transaction (R143,
R144). That the addresses are those on the ports at the header, that the bytes are placed in the tick the last of them comes,
the tick count, and that a RELAY_FRAME presented alone has N and M from its word, the queue holding command bytes only, are the
model's choices (logs 8, 12, 17). -/
def Obligations.RelayFramePlacesTheCommand : Prop :=
  ∀ (s : State) (n m : Byte) (w : Nat), s.st = .idle → NoReset s (w + 1) → w ≤ s.cfg.readTimeout →
    (∀ j, 1 ≤ j → j ≤ w → s.readsOn j) → (w ≠ 0 → (s.hostIn ++ s.arrivals w).length < n.toNat) →
    n.toNat ≤ (s.hostIn ++ s.arrivals (w + 1)).length →
    ∃ t, exec (.relayFrame n m) s = .next t ∧ FrameBegun n m s t ∧
      CommandPlaced s.portCmdBase n (s.hostIn ++ s.arrivals (w + 1)) s t ∧ t.gap = s.gapLeft - (w + 1) ∧
      SameBlock s t ∧ PassedReading (w + 1) s t

/-- A frame whose command bytes have not all come when the read timeout has elapsed is dropped silently: its bytes are
discarded, nothing is sent, `BUF`, `IE` and the line are untouched (R141, R146, R159). That the timeout is counted in ticks
from the header, the tick count, and N and M from the word of a RELAY_FRAME presented alone, are the model's choices (logs 8,
12, 17). -/
def Obligations.RelayFrameDropsOnTimeout : Prop :=
  ∀ (s : State) (n m : Byte), let w := s.cfg.readTimeout
    s.st = .idle → NoReset s (w + 1) → (∀ j, 1 ≤ j → j ≤ w → s.readsOn j) →
    (s.hostIn ++ s.arrivals (w + 1)).length < n.toNat →
    ∃ t, exec (.relayFrame n m) s = .next t ∧ FrameBegun n m s t ∧ FrameDropped s t ∧ t.gap = s.gapLeft - (w + 1) ∧
      SameBlock s t ∧ PassedReading (w + 1) s t

/-- Until the read timeout elapses a frame whose command bytes have not all come goes on waiting for them, and nothing
else changes (R143); `relayFrame n m (elapse s)` is the state after the header's tick (logs 8, 12). -/
def Obligations.RelayFrameWaitsForItsBytes : Prop :=
  ∀ (s : State) (n m : Byte) (w : Nat), s.st = .idle → NoReset s (w + 1) → w < s.cfg.readTimeout →
    (∀ j, 1 ≤ j → j ≤ w → s.readsOn j) → (s.hostIn ++ s.arrivals (w + 1)).length < n.toNat →
    let t := ticks w (relayFrame n m (elapse s))
    t.relay = .waitCommand ∧ FrameBegun n m s t ∧ SameMemory s t ∧ t.gap = s.gapLeft - (w + 1) ∧ SameBlock s t ∧
      Passed (w + 1) s t

/-- `RELAY_REPLY` completes: the M bytes of the response buffer, sentinels among them, are written to the host verbatim
and in order, with no added framing, and the relay returns to `WAIT_HEADER` (R145). That all M bytes go in one tick is the
model's choice (log 8). -/
def Obligations.RelayReplyWritesTheBuffer : Prop :=
  ∀ (s : State) (v : Byte), s.st = .idle → s.input.rst = false →
    ∃ t reply, exec (.relayReply v) s = .next t ∧ t.hostOut = s.hostOut ++ reply ∧
      reply.length = s.frameM.toNat ∧
      (∀ j < s.frameM.toNat, reply.getD j 0 = memRead s (s.wrap (s.frameResp + j))) ∧
      t.relay = .waitHeader ∧ t.st = .idle ∧ t.dir = s.dir ∧ t.done = false ∧ SameMemory s t ∧ SameIe s t ∧
      SameDatapath s t ∧ SameOperands s t ∧ Passed 1 s t

/-- `RELAY_DROP` completes: zero bytes are written, the frame's bytes are discarded, the block is not started (R146). That a
drop outside `WAIT_COMMAND_BYTES` discards nothing and that it takes one tick is the model's choice (log 8). -/
def Obligations.RelayDropWritesNothing : Prop :=
  ∀ s : State, s.st = .idle → s.input.rst = false →
    ∃ t, exec .relayDrop s = .next t ∧ t.relay = .waitHeader ∧ t.hostOut = s.hostOut ∧
      (s.relay = .waitCommand → t.hostIn = (s.hostIn ++ s.input.rx).drop s.frameN.toNat) ∧
      (s.relay ≠ .waitCommand → t.hostIn = s.hostIn ++ s.input.rx) ∧
      t.st = .idle ∧ t.dir = s.dir ∧ t.done = false ∧ SameMemory s t ∧ SameIe s t ∧ SameDatapath s t ∧
      SameOperands s t ∧ t.now = s.now + 1

/-- The relay's loop, one action at a time, in `IDLE` ticks in which it runs (R142 to R146): it blocks until two header
bytes are there, reads N then M, waits for N command bytes as long as the read timeout allows, with the command placed raises
`start` with its frame's operands once INTER_GAP has passed, and after the transaction sends the M response bytes. That an
action takes one tick, all M bytes go in one and the addresses are those on the ports at the header is the model's choice
(log 8), and so is counting the read timeout from the header (log 12) and INTER_GAP in ticks from `DONE` (log 13). -/
def Obligations.RelayLoopActions : Prop :=
  ∀ s : State, s.ops = [] → s.st = .idle → s.input.rst = false → s.input.act = .relay →
    let bytes := s.hostIn ++ s.input.rx
    (s.relay = .waitHeader → bytes.length < 2 → step s = .next (elapse s)) ∧
    (∀ n m rest, s.relay = .waitHeader → bytes = n :: m :: rest →
      ∃ t, step s = .next t ∧ FrameBegun n m s t ∧ t.gap = s.gapLeft - 1 ∧ SameBlock s t ∧ PassedReading 1 s t ∧
        (n.toNat ≤ rest.length → CommandPlaced s.portCmdBase n rest s t) ∧
        (rest.length < n.toNat → 0 < s.cfg.readTimeout →
          t.relay = .waitCommand ∧ t.hostIn = rest ∧ SameMemory s t) ∧
        (rest.length < n.toNat → s.cfg.readTimeout = 0 → FrameDropped s t)) ∧
    (s.relay = .waitCommand → bytes.length < s.frameN.toNat → s.now + 1 < s.frameTick + s.cfg.readTimeout →
      step s = .next (elapse s)) ∧
    (s.relay = .waitCommand → bytes.length < s.frameN.toNat → s.frameTick + s.cfg.readTimeout ≤ s.now + 1 →
      ∃ t, step s = .next t ∧ FrameDropped s t ∧ t.gap = s.gapLeft - 1 ∧ SameBlock s t ∧
        SameCaller s { t with relay := s.relay } ∧ PassedReading 1 s t) ∧
    (s.relay = .waitCommand → s.frameN.toNat ≤ bytes.length →
      ∃ t, step s = .next t ∧ CommandPlaced s.frameCmd s.frameN bytes s t ∧ t.gap = s.gapLeft - 1 ∧ SameBlock s t ∧
        SameCaller s { t with relay := s.relay } ∧ PassedReading 1 s t) ∧
    (s.relay = .transact → s.gapLeft = 0 →
      ∃ t, step s = .next t ∧ t.st = .arm ∧ t.n = s.frameN ∧ t.m = s.frameM ∧ t.cbase = s.wrap s.frameCmd ∧
        t.rbase = s.wrap s.frameResp ∧ t.ieSaved = s.ie ∧ t.ie = false ∧ t.dir = .input ∧ t.relay = .reply ∧
        t.frameM = s.frameM ∧ t.frameResp = s.frameResp ∧ t.hostOut = s.hostOut ∧ SameMemory s t ∧ Passed 1 s t) ∧
    (s.relay = .transact → 0 < s.gapLeft → step s = .next (elapse s)) ∧
    (s.relay = .reply →
      ∃ t, step s = .next t ∧ t.hostOut = s.hostOut ++ memReadList s s.frameResp s.frameM.toNat ∧
        t.relay = .waitHeader ∧ SameBlock s t ∧ SameMemory s t ∧ Passed 1 s t)

/-! ### Configuration -/

/-- The parameters that make a configuration are exactly those that meet the constraints of R9; anything else is refused
before a machine exists (R160). -/
def Obligations.ConfigurationConstraints : Prop :=
  (∀ p : Params, p.wf = true ↔
    0 < p.fClkHz ∧ p.fClkHz % 1000000 = 0 ∧ 1 ≤ p.pollCap ∧ p.sentLo ≠ p.sentHi ∧
      p.stopTail ≤ 3 * p.t ∧ 8 ≤ p.addrW) ∧
  ∀ c : Config, 1 ≤ c.toParams.t ∧ c.fClkHz = 1000000 * c.toParams.t
end

