-- ==== Sys2Proof/Laws/Memory.lean ====
section
/-! SUPPORT. Read-after-write, and that every memory operation keeps the canonical form. -/

namespace Sys2Proof.Machine

@[simp] theorem Memory.read_nil (x : Nat) : Memory.read [] x = Memory.fill := rfl

@[simp] theorem Memory.read_cons (a : Nat) (v : Byte) (rest : List Host.Cell) (x : Nat) :
    Memory.read ((a, v) :: rest) x = if a = x then v else Memory.read rest x := rfl

/-- The canonical form, entry by entry. -/
theorem Memory.wf_cons (a : Nat) (v : Byte) (rest : List Host.Cell) :
    Memory.wf ((a, v) :: rest) = true ↔
      v ≠ Memory.fill ∧ (∀ c ∈ rest, a < c.1) ∧ Memory.wf rest = true := by
  simp [Memory.wf, and_assoc]

/-- An address below every listed one reads as the fill byte. -/
theorem Memory.read_of_lt {mem : List Host.Cell} {x : Nat} (h : ∀ c ∈ mem, x < c.1) :
    Memory.read mem x = Memory.fill := by
  induction mem with
  | nil => rfl
  | cons c rest ih =>
    obtain ⟨a, v⟩ := c
    have hx : x < a := h (a, v) (by simp)
    rw [Memory.read_cons, if_neg (by omega)]
    exact ih fun c hc => h c (by simp [hc])

/-- A write leaves every other address alone. -/
theorem Memory.read_write_of_ne (mem : List Host.Cell) {x y : Nat} (v : Byte) (h : y ≠ x) :
    Memory.read (Memory.write mem x v) y = Memory.read mem y := by
  have h' : ¬ x = y := fun e => h e.symm
  induction mem with
  | nil =>
    simp only [Memory.write]
    split <;> simp [h']
  | cons c rest ih =>
    obtain ⟨a, w⟩ := c
    simp only [Memory.write]
    split_ifs <;> simp_all

/-- A read after a write to the same address gives the byte written. -/
theorem Memory.read_write_self {mem : List Host.Cell} (hwf : Memory.wf mem = true) (x : Nat) (v : Byte) :
    Memory.read (Memory.write mem x v) x = v := by
  induction mem with
  | nil =>
    simp only [Memory.write]
    split <;> simp_all
  | cons c rest ih =>
    obtain ⟨a, w⟩ := c
    obtain ⟨-, hlt, hrest⟩ := (Memory.wf_cons a w rest).1 hwf
    simp only [Memory.write]
    split_ifs with h1 h2 h3 h4
    · rw [h2, Memory.read_of_lt]
      intro c hc
      rcases List.mem_cons.1 hc with rfl | hc
      · exact h1
      · exact lt_trans h1 (hlt c hc)
    · simp
    · subst h3
      rw [h4, Memory.read_of_lt hlt]
    · simp
    · rw [Memory.read_cons, if_neg (Ne.symm h3)]
      exact ih hrest

/-- What a write can list: the cell written and the old ones. -/
theorem Memory.mem_write {mem : List Host.Cell} {x : Nat} {v : Byte} {c : Host.Cell}
    (h : c ∈ Memory.write mem x v) : c = (x, v) ∨ c ∈ mem := by
  induction mem with
  | nil =>
    simp only [Memory.write] at h
    split at h <;> simp_all
  | cons d rest ih =>
    obtain ⟨a, w⟩ := d
    simp only [Memory.write] at h
    split_ifs at h <;> simp_all <;> tauto

/-- A write keeps the canonical form. -/
theorem Memory.wf_write {mem : List Host.Cell} (hwf : Memory.wf mem = true) (x : Nat) (v : Byte) :
    Memory.wf (Memory.write mem x v) = true := by
  induction mem with
  | nil =>
    simp only [Memory.write]
    split <;> simp_all [Memory.wf]
  | cons c rest ih =>
    obtain ⟨a, w⟩ := c
    obtain ⟨hw, hlt, hrest⟩ := (Memory.wf_cons a w rest).1 hwf
    simp only [Memory.write]
    split_ifs with h1 h2 h3 h4
    · exact hwf
    · refine (Memory.wf_cons _ _ _).2 ⟨h2, ?_, hwf⟩
      intro c hc
      rcases List.mem_cons.1 hc with rfl | hc
      · exact h1
      · exact lt_trans h1 (hlt c hc)
    · exact hrest
    · exact (Memory.wf_cons _ _ _).2 ⟨h4, by simpa [h3] using hlt, hrest⟩
    · refine (Memory.wf_cons _ _ _).2 ⟨hw, ?_, ih hrest⟩
      intro c hc
      rcases Memory.mem_write hc with rfl | hc
      · show a < x
        omega
      · exact hlt c hc

/-- Two canonical memories that read the same everywhere are equal data. -/
theorem Memory.ext_of_read {m₁ m₂ : List Host.Cell} (h₁ : Memory.wf m₁ = true) (h₂ : Memory.wf m₂ = true)
    (h : ∀ x, Memory.read m₁ x = Memory.read m₂ x) : m₁ = m₂ := by
  induction m₁ generalizing m₂ with
  | nil =>
    cases m₂ with
    | nil => rfl
    | cons c rest =>
      obtain ⟨a, v⟩ := c
      have := h a
      simp at this
      exact absurd this.symm ((Memory.wf_cons a v rest).1 h₂).1
  | cons c r₁ ih =>
    obtain ⟨a, v⟩ := c
    obtain ⟨hv, ha, hr₁⟩ := (Memory.wf_cons a v r₁).1 h₁
    cases m₂ with
    | nil =>
      have := h a
      simp at this
      exact absurd this hv
    | cons d r₂ =>
      obtain ⟨b, w⟩ := d
      obtain ⟨hw, hb, hr₂⟩ := (Memory.wf_cons b w r₂).1 h₂
      have hab : a = b := by
        rcases lt_trichotomy a b with hlt | heq | hgt
        · have := h a
          rw [Memory.read_cons, if_pos rfl, Memory.read_of_lt] at this
          · exact absurd this hv
          · intro c hc
            rcases List.mem_cons.1 hc with rfl | hc
            · exact hlt
            · exact lt_trans hlt (hb c hc)
        · exact heq
        · have := h b
          rw [Memory.read_cons _ _ r₂, if_pos rfl, Memory.read_of_lt] at this
          · exact absurd this.symm hw
          · intro c hc
            rcases List.mem_cons.1 hc with rfl | hc
            · exact hgt
            · exact lt_trans hgt (ha c hc)
      subst hab
      have hvw : v = w := by simpa using h a
      subst hvw
      rw [ih hr₁ hr₂]
      intro x
      by_cases hx : a = x
      · subst hx
        rw [Memory.read_of_lt ha, Memory.read_of_lt hb]
      · simpa [hx] using h x

/-- `MemRead` after `MemWrite` at another address (R53). -/
theorem memRead_memWrite_of_ne {s : State} {x y : Nat} (v : Byte) (h : y ≠ x) :
    memRead (memWrite x v s) y = memRead s y := Memory.read_write_of_ne s.mem v h

/-- `MemRead` after `MemWrite` at the same address (R53). -/
theorem memRead_memWrite_self {s : State} (hwf : Memory.wf s.mem = true) (x : Nat) (v : Byte) :
    memRead (memWrite x v s) x = v := Memory.read_write_self hwf x v

/-- Writing a list of bytes changes memory only. -/
theorem exists_memWriteList (vs : List Byte) (a : Nat) (s : State) :
    ∃ mem, memWriteList a vs s = { s with mem := mem } := by
  induction vs generalizing a s with
  | nil => exact ⟨s.mem, rfl⟩
  | cons v vs ih => exact ih (a + 1) (memWrite (s.wrap a) v s)

/-- Writing a list of bytes keeps the canonical form. -/
theorem wf_memWriteList (vs : List Byte) {a : Nat} {s : State} (h : Memory.wf s.mem = true) :
    Memory.wf (memWriteList a vs s).mem = true := by
  induction vs generalizing a s with
  | nil => exact h
  | cons v vs ih => exact ih (s := memWrite (s.wrap a) v s) (Memory.wf_write h _ _)

/-- Writing a list of bytes leaves every address outside the list's alone (R57). -/
theorem memRead_memWriteList_of_ne (vs : List Byte) {a : Nat} {s : State} {x : Nat}
    (h : ∀ i < vs.length, x ≠ s.wrap (a + i)) : memRead (memWriteList a vs s) x = memRead s x := by
  induction vs generalizing a s with
  | nil => rfl
  | cons v vs ih =>
    rw [memWriteList, ih]
    · exact memRead_memWrite_of_ne v (h 0 (by simp))
    · intro i hi
      rw [Nat.add_assoc, Nat.add_comm 1]
      exact h (i + 1) (by simpa using hi)

/-- An address has at least 8 bits (R9). -/
theorem State.le_addresses (s : State) : 256 ≤ 2 ^ s.cfg.addrW := by
  have h := s.cfg.ok
  simp only [Params.wf, Params.addrWOk, Bool.and_eq_true, decide_eq_true_eq] at h
  exact Nat.pow_le_pow_right (n := 2) (by omega) h.2

/-- Different bytes of one buffer stand at different addresses (R51). -/
theorem State.wrap_injective (s : State) {a i j : Nat} (hi : i < 256) (hj : j < 256)
    (h : s.wrap (a + i) = s.wrap (a + j)) : i = j := by
  have := s.le_addresses
  have h1 : a + i ≡ a + j [MOD 2 ^ s.cfg.addrW] := h
  have h2 : i % _ = j % _ := Nat.ModEq.add_left_cancel' a h1
  rwa [Nat.mod_eq_of_lt (by omega), Nat.mod_eq_of_lt (by omega)] at h2

/-- A list of at most 255 bytes stands where it was written. -/
theorem memRead_memWriteList_self (vs : List Byte) {a : Nat} {s : State} (hw : Memory.wf s.mem = true)
    (hl : vs.length < 256) {i : Nat} (hi : i < vs.length) :
    memRead (memWriteList a vs s) (s.wrap (a + i)) = vs.getD i 0 := by
  induction vs generalizing a s i with
  | nil => simp at hi
  | cons v vs ih =>
    simp only [List.length_cons] at hl hi
    rw [memWriteList]
    cases i with
    | zero =>
      rw [memRead_memWriteList_of_ne]
      · exact memRead_memWrite_self hw _ _
      · intro j hj he
        have he : s.wrap (a + 0) = s.wrap (a + (j + 1)) := by
          rw [← Nat.add_assoc, Nat.add_right_comm]; exact he
        have := s.wrap_injective (by omega) (by omega) he
        omega
    | succ i =>
      have h := ih (a := a + 1) (s := memWrite (s.wrap a) v s) (Memory.wf_write hw _ _) (by omega) (i := i) (by omega)
      rw [show a + (i + 1) = a + 1 + i by omega]
      exact h

end Sys2Proof.Machine
end

