-- ==== Sys2Proof/Laws/State.lean ====
section
/-! SUPPORT. For every shared update of the state, what each field is after it (true by rfl), so that no later proof
unfolds a record update. -/

namespace Sys2Proof.Machine

/-! ### The tick constants of R9, in `T` -/

@[simp] theorem State.low1_eq (s : State) : s.low1 = s.t := rfl
@[simp] theorem State.low0_eq (s : State) : s.low0 = 3 * s.t := rfl

/-! ### The fields after each update -/

section
variable (s : State)
@[simp] theorem elapse_cfg : (elapse s).cfg = s.cfg := rfl
@[simp] theorem elapse_st : (elapse s).st = s.st := rfl
@[simp] theorem elapse_dir : (elapse s).dir = s.dir := rfl
@[simp] theorem elapse_done : (elapse s).done = false := rfl
@[simp] theorem elapse_shreg : (elapse s).shreg = s.shreg := rfl
@[simp] theorem elapse_bitcnt : (elapse s).bitcnt = s.bitcnt := rfl
@[simp] theorem elapse_txidx : (elapse s).txidx = s.txidx := rfl
@[simp] theorem elapse_rxidx : (elapse s).rxidx = s.rxidx := rfl
@[simp] theorem elapse_cnt : (elapse s).cnt = s.cnt := rfl
@[simp] theorem elapse_curbit : (elapse s).curbit = s.curbit := rfl
@[simp] theorem elapse_n : (elapse s).n = s.n := rfl
@[simp] theorem elapse_m : (elapse s).m = s.m := rfl
@[simp] theorem elapse_cbase : (elapse s).cbase = s.cbase := rfl
@[simp] theorem elapse_rbase : (elapse s).rbase = s.rbase := rfl
@[simp] theorem elapse_ieSaved : (elapse s).ieSaved = s.ieSaved := rfl
@[simp] theorem elapse_ie : (elapse s).ie = s.ie := rfl
@[simp] theorem elapse_mem : (elapse s).mem = s.mem := rfl
@[simp] theorem elapse_portCmdBase : (elapse s).portCmdBase = s.portCmdBase := rfl
@[simp] theorem elapse_portRespBase : (elapse s).portRespBase = s.portRespBase := rfl
@[simp] theorem elapse_relay : (elapse s).relay = s.relay := rfl
@[simp] theorem elapse_frameN : (elapse s).frameN = s.frameN := rfl
@[simp] theorem elapse_frameM : (elapse s).frameM = s.frameM := rfl
@[simp] theorem elapse_frameCmd : (elapse s).frameCmd = s.frameCmd := rfl
@[simp] theorem elapse_frameResp : (elapse s).frameResp = s.frameResp := rfl
@[simp] theorem elapse_frameTick : (elapse s).frameTick = s.frameTick := rfl
@[simp] theorem elapse_hostIn : (elapse s).hostIn = s.hostIn ++ s.input.rx := rfl
@[simp] theorem elapse_hostOut : (elapse s).hostOut = s.hostOut := rfl
@[simp] theorem elapse_gap : (elapse s).gap = s.gapLeft - 1 := rfl
@[simp] theorem elapse_now : (elapse s).now = s.now + 1 := rfl
@[simp] theorem elapse_env : (elapse s).env = s.env.tail := rfl
@[simp] theorem elapse_ops : (elapse s).ops = s.ops := rfl
@[simp] theorem elapse_sensed : (elapse s).sensed = s.sensed := rfl
end

section
variable (s : State)
@[simp] theorem resetStep_cfg : (resetStep s).cfg = s.cfg := rfl
@[simp] theorem resetStep_st : (resetStep s).st = .idle := rfl
@[simp] theorem resetStep_dir : (resetStep s).dir = .input := rfl
@[simp] theorem resetStep_done : (resetStep s).done = false := rfl
@[simp] theorem resetStep_shreg : (resetStep s).shreg = 0 := rfl
@[simp] theorem resetStep_bitcnt : (resetStep s).bitcnt = 0 := rfl
@[simp] theorem resetStep_txidx : (resetStep s).txidx = 0 := rfl
@[simp] theorem resetStep_rxidx : (resetStep s).rxidx = 0 := rfl
@[simp] theorem resetStep_cnt : (resetStep s).cnt = 0 := rfl
@[simp] theorem resetStep_curbit : (resetStep s).curbit = false := rfl
@[simp] theorem resetStep_n : (resetStep s).n = 0 := rfl
@[simp] theorem resetStep_m : (resetStep s).m = 0 := rfl
@[simp] theorem resetStep_cbase : (resetStep s).cbase = 0 := rfl
@[simp] theorem resetStep_rbase : (resetStep s).rbase = 0 := rfl
@[simp] theorem resetStep_ieSaved : (resetStep s).ieSaved = false := rfl
@[simp] theorem resetStep_ie : (resetStep s).ie = s.cfg.ieReset := rfl
@[simp] theorem resetStep_mem : (resetStep s).mem = s.mem := rfl
@[simp] theorem resetStep_portCmdBase : (resetStep s).portCmdBase = s.portCmdBase := rfl
@[simp] theorem resetStep_portRespBase : (resetStep s).portRespBase = s.portRespBase := rfl
@[simp] theorem resetStep_relay : (resetStep s).relay = .waitHeader := rfl
@[simp] theorem resetStep_frameN : (resetStep s).frameN = 0 := rfl
@[simp] theorem resetStep_frameM : (resetStep s).frameM = 0 := rfl
@[simp] theorem resetStep_frameCmd : (resetStep s).frameCmd = 0 := rfl
@[simp] theorem resetStep_frameResp : (resetStep s).frameResp = 0 := rfl
@[simp] theorem resetStep_frameTick : (resetStep s).frameTick = 0 := rfl
@[simp] theorem resetStep_hostIn : (resetStep s).hostIn = s.hostIn ++ s.input.rx := rfl
@[simp] theorem resetStep_hostOut : (resetStep s).hostOut = s.hostOut := rfl
@[simp] theorem resetStep_gap : (resetStep s).gap = 0 := rfl
@[simp] theorem resetStep_now : (resetStep s).now = s.now + 1 := rfl
@[simp] theorem resetStep_env : (resetStep s).env = s.env.tail := rfl
@[simp] theorem resetStep_ops : (resetStep s).ops = s.ops := rfl
@[simp] theorem resetStep_sensed : (resetStep s).sensed = s.sensed := rfl
end

section
variable (s : State)
@[simp] theorem driveLow_cfg : (driveLow s).cfg = s.cfg := rfl
@[simp] theorem driveLow_st : (driveLow s).st = s.st := rfl
@[simp] theorem driveLow_dir : (driveLow s).dir = .output := rfl
@[simp] theorem driveLow_done : (driveLow s).done = s.done := rfl
@[simp] theorem driveLow_shreg : (driveLow s).shreg = s.shreg := rfl
@[simp] theorem driveLow_bitcnt : (driveLow s).bitcnt = s.bitcnt := rfl
@[simp] theorem driveLow_txidx : (driveLow s).txidx = s.txidx := rfl
@[simp] theorem driveLow_rxidx : (driveLow s).rxidx = s.rxidx := rfl
@[simp] theorem driveLow_cnt : (driveLow s).cnt = s.cnt := rfl
@[simp] theorem driveLow_curbit : (driveLow s).curbit = s.curbit := rfl
@[simp] theorem driveLow_n : (driveLow s).n = s.n := rfl
@[simp] theorem driveLow_m : (driveLow s).m = s.m := rfl
@[simp] theorem driveLow_cbase : (driveLow s).cbase = s.cbase := rfl
@[simp] theorem driveLow_rbase : (driveLow s).rbase = s.rbase := rfl
@[simp] theorem driveLow_ieSaved : (driveLow s).ieSaved = s.ieSaved := rfl
@[simp] theorem driveLow_ie : (driveLow s).ie = s.ie := rfl
@[simp] theorem driveLow_mem : (driveLow s).mem = s.mem := rfl
@[simp] theorem driveLow_portCmdBase : (driveLow s).portCmdBase = s.portCmdBase := rfl
@[simp] theorem driveLow_portRespBase : (driveLow s).portRespBase = s.portRespBase := rfl
@[simp] theorem driveLow_relay : (driveLow s).relay = s.relay := rfl
@[simp] theorem driveLow_frameN : (driveLow s).frameN = s.frameN := rfl
@[simp] theorem driveLow_frameM : (driveLow s).frameM = s.frameM := rfl
@[simp] theorem driveLow_frameCmd : (driveLow s).frameCmd = s.frameCmd := rfl
@[simp] theorem driveLow_frameResp : (driveLow s).frameResp = s.frameResp := rfl
@[simp] theorem driveLow_frameTick : (driveLow s).frameTick = s.frameTick := rfl
@[simp] theorem driveLow_hostIn : (driveLow s).hostIn = s.hostIn := rfl
@[simp] theorem driveLow_hostOut : (driveLow s).hostOut = s.hostOut := rfl
@[simp] theorem driveLow_gap : (driveLow s).gap = s.gap := rfl
@[simp] theorem driveLow_now : (driveLow s).now = s.now := rfl
@[simp] theorem driveLow_env : (driveLow s).env = s.env := rfl
@[simp] theorem driveLow_ops : (driveLow s).ops = s.ops := rfl
@[simp] theorem driveLow_sensed : (driveLow s).sensed = s.sensed := rfl
end

section
variable (s : State)
@[simp] theorem releaseLine_cfg : (releaseLine s).cfg = s.cfg := rfl
@[simp] theorem releaseLine_st : (releaseLine s).st = s.st := rfl
@[simp] theorem releaseLine_dir : (releaseLine s).dir = .input := rfl
@[simp] theorem releaseLine_done : (releaseLine s).done = s.done := rfl
@[simp] theorem releaseLine_shreg : (releaseLine s).shreg = s.shreg := rfl
@[simp] theorem releaseLine_bitcnt : (releaseLine s).bitcnt = s.bitcnt := rfl
@[simp] theorem releaseLine_txidx : (releaseLine s).txidx = s.txidx := rfl
@[simp] theorem releaseLine_rxidx : (releaseLine s).rxidx = s.rxidx := rfl
@[simp] theorem releaseLine_cnt : (releaseLine s).cnt = s.cnt := rfl
@[simp] theorem releaseLine_curbit : (releaseLine s).curbit = s.curbit := rfl
@[simp] theorem releaseLine_n : (releaseLine s).n = s.n := rfl
@[simp] theorem releaseLine_m : (releaseLine s).m = s.m := rfl
@[simp] theorem releaseLine_cbase : (releaseLine s).cbase = s.cbase := rfl
@[simp] theorem releaseLine_rbase : (releaseLine s).rbase = s.rbase := rfl
@[simp] theorem releaseLine_ieSaved : (releaseLine s).ieSaved = s.ieSaved := rfl
@[simp] theorem releaseLine_ie : (releaseLine s).ie = s.ie := rfl
@[simp] theorem releaseLine_mem : (releaseLine s).mem = s.mem := rfl
@[simp] theorem releaseLine_portCmdBase : (releaseLine s).portCmdBase = s.portCmdBase := rfl
@[simp] theorem releaseLine_portRespBase : (releaseLine s).portRespBase = s.portRespBase := rfl
@[simp] theorem releaseLine_relay : (releaseLine s).relay = s.relay := rfl
@[simp] theorem releaseLine_frameN : (releaseLine s).frameN = s.frameN := rfl
@[simp] theorem releaseLine_frameM : (releaseLine s).frameM = s.frameM := rfl
@[simp] theorem releaseLine_frameCmd : (releaseLine s).frameCmd = s.frameCmd := rfl
@[simp] theorem releaseLine_frameResp : (releaseLine s).frameResp = s.frameResp := rfl
@[simp] theorem releaseLine_frameTick : (releaseLine s).frameTick = s.frameTick := rfl
@[simp] theorem releaseLine_hostIn : (releaseLine s).hostIn = s.hostIn := rfl
@[simp] theorem releaseLine_hostOut : (releaseLine s).hostOut = s.hostOut := rfl
@[simp] theorem releaseLine_gap : (releaseLine s).gap = s.gap := rfl
@[simp] theorem releaseLine_now : (releaseLine s).now = s.now := rfl
@[simp] theorem releaseLine_env : (releaseLine s).env = s.env := rfl
@[simp] theorem releaseLine_ops : (releaseLine s).ops = s.ops := rfl
@[simp] theorem releaseLine_sensed : (releaseLine s).sensed = s.sensed := rfl
end

section
variable (s : State)
@[simp] theorem irqEnter_cfg : (irqEnter s).cfg = s.cfg := rfl
@[simp] theorem irqEnter_st : (irqEnter s).st = s.st := rfl
@[simp] theorem irqEnter_dir : (irqEnter s).dir = s.dir := rfl
@[simp] theorem irqEnter_done : (irqEnter s).done = s.done := rfl
@[simp] theorem irqEnter_shreg : (irqEnter s).shreg = s.shreg := rfl
@[simp] theorem irqEnter_bitcnt : (irqEnter s).bitcnt = s.bitcnt := rfl
@[simp] theorem irqEnter_txidx : (irqEnter s).txidx = s.txidx := rfl
@[simp] theorem irqEnter_rxidx : (irqEnter s).rxidx = s.rxidx := rfl
@[simp] theorem irqEnter_cnt : (irqEnter s).cnt = s.cnt := rfl
@[simp] theorem irqEnter_curbit : (irqEnter s).curbit = s.curbit := rfl
@[simp] theorem irqEnter_n : (irqEnter s).n = s.n := rfl
@[simp] theorem irqEnter_m : (irqEnter s).m = s.m := rfl
@[simp] theorem irqEnter_cbase : (irqEnter s).cbase = s.cbase := rfl
@[simp] theorem irqEnter_rbase : (irqEnter s).rbase = s.rbase := rfl
@[simp] theorem irqEnter_ieSaved : (irqEnter s).ieSaved = s.ie := rfl
@[simp] theorem irqEnter_ie : (irqEnter s).ie = false := rfl
@[simp] theorem irqEnter_mem : (irqEnter s).mem = s.mem := rfl
@[simp] theorem irqEnter_portCmdBase : (irqEnter s).portCmdBase = s.portCmdBase := rfl
@[simp] theorem irqEnter_portRespBase : (irqEnter s).portRespBase = s.portRespBase := rfl
@[simp] theorem irqEnter_relay : (irqEnter s).relay = s.relay := rfl
@[simp] theorem irqEnter_frameN : (irqEnter s).frameN = s.frameN := rfl
@[simp] theorem irqEnter_frameM : (irqEnter s).frameM = s.frameM := rfl
@[simp] theorem irqEnter_frameCmd : (irqEnter s).frameCmd = s.frameCmd := rfl
@[simp] theorem irqEnter_frameResp : (irqEnter s).frameResp = s.frameResp := rfl
@[simp] theorem irqEnter_frameTick : (irqEnter s).frameTick = s.frameTick := rfl
@[simp] theorem irqEnter_hostIn : (irqEnter s).hostIn = s.hostIn := rfl
@[simp] theorem irqEnter_hostOut : (irqEnter s).hostOut = s.hostOut := rfl
@[simp] theorem irqEnter_gap : (irqEnter s).gap = s.gap := rfl
@[simp] theorem irqEnter_now : (irqEnter s).now = s.now := rfl
@[simp] theorem irqEnter_env : (irqEnter s).env = s.env := rfl
@[simp] theorem irqEnter_ops : (irqEnter s).ops = s.ops := rfl
@[simp] theorem irqEnter_sensed : (irqEnter s).sensed = s.sensed := rfl
end

section
variable (s : State)
@[simp] theorem irqExit_cfg : (irqExit s).cfg = s.cfg := rfl
@[simp] theorem irqExit_st : (irqExit s).st = s.st := rfl
@[simp] theorem irqExit_dir : (irqExit s).dir = s.dir := rfl
@[simp] theorem irqExit_done : (irqExit s).done = s.done := rfl
@[simp] theorem irqExit_shreg : (irqExit s).shreg = s.shreg := rfl
@[simp] theorem irqExit_bitcnt : (irqExit s).bitcnt = s.bitcnt := rfl
@[simp] theorem irqExit_txidx : (irqExit s).txidx = s.txidx := rfl
@[simp] theorem irqExit_rxidx : (irqExit s).rxidx = s.rxidx := rfl
@[simp] theorem irqExit_cnt : (irqExit s).cnt = s.cnt := rfl
@[simp] theorem irqExit_curbit : (irqExit s).curbit = s.curbit := rfl
@[simp] theorem irqExit_n : (irqExit s).n = s.n := rfl
@[simp] theorem irqExit_m : (irqExit s).m = s.m := rfl
@[simp] theorem irqExit_cbase : (irqExit s).cbase = s.cbase := rfl
@[simp] theorem irqExit_rbase : (irqExit s).rbase = s.rbase := rfl
@[simp] theorem irqExit_ieSaved : (irqExit s).ieSaved = s.ieSaved := rfl
@[simp] theorem irqExit_ie : (irqExit s).ie = s.ieSaved := rfl
@[simp] theorem irqExit_mem : (irqExit s).mem = s.mem := rfl
@[simp] theorem irqExit_portCmdBase : (irqExit s).portCmdBase = s.portCmdBase := rfl
@[simp] theorem irqExit_portRespBase : (irqExit s).portRespBase = s.portRespBase := rfl
@[simp] theorem irqExit_relay : (irqExit s).relay = s.relay := rfl
@[simp] theorem irqExit_frameN : (irqExit s).frameN = s.frameN := rfl
@[simp] theorem irqExit_frameM : (irqExit s).frameM = s.frameM := rfl
@[simp] theorem irqExit_frameCmd : (irqExit s).frameCmd = s.frameCmd := rfl
@[simp] theorem irqExit_frameResp : (irqExit s).frameResp = s.frameResp := rfl
@[simp] theorem irqExit_frameTick : (irqExit s).frameTick = s.frameTick := rfl
@[simp] theorem irqExit_hostIn : (irqExit s).hostIn = s.hostIn := rfl
@[simp] theorem irqExit_hostOut : (irqExit s).hostOut = s.hostOut := rfl
@[simp] theorem irqExit_gap : (irqExit s).gap = s.gap := rfl
@[simp] theorem irqExit_now : (irqExit s).now = s.now := rfl
@[simp] theorem irqExit_env : (irqExit s).env = s.env := rfl
@[simp] theorem irqExit_ops : (irqExit s).ops = s.ops := rfl
@[simp] theorem irqExit_sensed : (irqExit s).sensed = s.sensed := rfl
end

section
variable (s : State)
@[simp] theorem countDown_cfg : (countDown s).cfg = s.cfg := rfl
@[simp] theorem countDown_st : (countDown s).st = s.st := rfl
@[simp] theorem countDown_dir : (countDown s).dir = s.dir := rfl
@[simp] theorem countDown_done : (countDown s).done = s.done := rfl
@[simp] theorem countDown_shreg : (countDown s).shreg = s.shreg := rfl
@[simp] theorem countDown_bitcnt : (countDown s).bitcnt = s.bitcnt := rfl
@[simp] theorem countDown_txidx : (countDown s).txidx = s.txidx := rfl
@[simp] theorem countDown_rxidx : (countDown s).rxidx = s.rxidx := rfl
@[simp] theorem countDown_cnt : (countDown s).cnt = s.cnt - 1 := rfl
@[simp] theorem countDown_curbit : (countDown s).curbit = s.curbit := rfl
@[simp] theorem countDown_n : (countDown s).n = s.n := rfl
@[simp] theorem countDown_m : (countDown s).m = s.m := rfl
@[simp] theorem countDown_cbase : (countDown s).cbase = s.cbase := rfl
@[simp] theorem countDown_rbase : (countDown s).rbase = s.rbase := rfl
@[simp] theorem countDown_ieSaved : (countDown s).ieSaved = s.ieSaved := rfl
@[simp] theorem countDown_ie : (countDown s).ie = s.ie := rfl
@[simp] theorem countDown_mem : (countDown s).mem = s.mem := rfl
@[simp] theorem countDown_portCmdBase : (countDown s).portCmdBase = s.portCmdBase := rfl
@[simp] theorem countDown_portRespBase : (countDown s).portRespBase = s.portRespBase := rfl
@[simp] theorem countDown_relay : (countDown s).relay = s.relay := rfl
@[simp] theorem countDown_frameN : (countDown s).frameN = s.frameN := rfl
@[simp] theorem countDown_frameM : (countDown s).frameM = s.frameM := rfl
@[simp] theorem countDown_frameCmd : (countDown s).frameCmd = s.frameCmd := rfl
@[simp] theorem countDown_frameResp : (countDown s).frameResp = s.frameResp := rfl
@[simp] theorem countDown_frameTick : (countDown s).frameTick = s.frameTick := rfl
@[simp] theorem countDown_hostIn : (countDown s).hostIn = s.hostIn := rfl
@[simp] theorem countDown_hostOut : (countDown s).hostOut = s.hostOut := rfl
@[simp] theorem countDown_gap : (countDown s).gap = s.gap := rfl
@[simp] theorem countDown_now : (countDown s).now = s.now := rfl
@[simp] theorem countDown_env : (countDown s).env = s.env := rfl
@[simp] theorem countDown_ops : (countDown s).ops = s.ops := rfl
@[simp] theorem countDown_sensed : (countDown s).sensed = s.sensed := rfl
end

section
variable (b : Bool) (s : State)
@[simp] theorem startSymbol_cfg : (startSymbol b s).cfg = s.cfg := rfl
@[simp] theorem startSymbol_st : (startSymbol b s).st = .txLow := rfl
@[simp] theorem startSymbol_dir : (startSymbol b s).dir = .output := rfl
@[simp] theorem startSymbol_done : (startSymbol b s).done = s.done := rfl
@[simp] theorem startSymbol_shreg : (startSymbol b s).shreg = s.shreg := rfl
@[simp] theorem startSymbol_bitcnt : (startSymbol b s).bitcnt = s.bitcnt := rfl
@[simp] theorem startSymbol_txidx : (startSymbol b s).txidx = s.txidx := rfl
@[simp] theorem startSymbol_rxidx : (startSymbol b s).rxidx = s.rxidx := rfl
@[simp] theorem startSymbol_cnt : (startSymbol b s).cnt = s.low b := rfl
@[simp] theorem startSymbol_curbit : (startSymbol b s).curbit = b := rfl
@[simp] theorem startSymbol_n : (startSymbol b s).n = s.n := rfl
@[simp] theorem startSymbol_m : (startSymbol b s).m = s.m := rfl
@[simp] theorem startSymbol_cbase : (startSymbol b s).cbase = s.cbase := rfl
@[simp] theorem startSymbol_rbase : (startSymbol b s).rbase = s.rbase := rfl
@[simp] theorem startSymbol_ieSaved : (startSymbol b s).ieSaved = s.ieSaved := rfl
@[simp] theorem startSymbol_ie : (startSymbol b s).ie = s.ie := rfl
@[simp] theorem startSymbol_mem : (startSymbol b s).mem = s.mem := rfl
@[simp] theorem startSymbol_portCmdBase : (startSymbol b s).portCmdBase = s.portCmdBase := rfl
@[simp] theorem startSymbol_portRespBase : (startSymbol b s).portRespBase = s.portRespBase := rfl
@[simp] theorem startSymbol_relay : (startSymbol b s).relay = s.relay := rfl
@[simp] theorem startSymbol_frameN : (startSymbol b s).frameN = s.frameN := rfl
@[simp] theorem startSymbol_frameM : (startSymbol b s).frameM = s.frameM := rfl
@[simp] theorem startSymbol_frameCmd : (startSymbol b s).frameCmd = s.frameCmd := rfl
@[simp] theorem startSymbol_frameResp : (startSymbol b s).frameResp = s.frameResp := rfl
@[simp] theorem startSymbol_frameTick : (startSymbol b s).frameTick = s.frameTick := rfl
@[simp] theorem startSymbol_hostIn : (startSymbol b s).hostIn = s.hostIn := rfl
@[simp] theorem startSymbol_hostOut : (startSymbol b s).hostOut = s.hostOut := rfl
@[simp] theorem startSymbol_gap : (startSymbol b s).gap = s.gap := rfl
@[simp] theorem startSymbol_now : (startSymbol b s).now = s.now := rfl
@[simp] theorem startSymbol_env : (startSymbol b s).env = s.env := rfl
@[simp] theorem startSymbol_ops : (startSymbol b s).ops = s.ops := rfl
@[simp] theorem startSymbol_sensed : (startSymbol b s).sensed = s.sensed := rfl
end

section
variable (s : State)
@[simp] theorem startBit_cfg : (startBit s).cfg = s.cfg := rfl
@[simp] theorem startBit_st : (startBit s).st = .txLow := rfl
@[simp] theorem startBit_dir : (startBit s).dir = .output := rfl
@[simp] theorem startBit_done : (startBit s).done = s.done := rfl
@[simp] theorem startBit_shreg : (startBit s).shreg = s.shreg <<< 1 := rfl
@[simp] theorem startBit_bitcnt : (startBit s).bitcnt = s.bitcnt - 1 := rfl
@[simp] theorem startBit_txidx : (startBit s).txidx = s.txidx := rfl
@[simp] theorem startBit_rxidx : (startBit s).rxidx = s.rxidx := rfl
@[simp] theorem startBit_cnt : (startBit s).cnt = s.low s.shreg.msb := rfl
@[simp] theorem startBit_curbit : (startBit s).curbit = s.shreg.msb := rfl
@[simp] theorem startBit_n : (startBit s).n = s.n := rfl
@[simp] theorem startBit_m : (startBit s).m = s.m := rfl
@[simp] theorem startBit_cbase : (startBit s).cbase = s.cbase := rfl
@[simp] theorem startBit_rbase : (startBit s).rbase = s.rbase := rfl
@[simp] theorem startBit_ieSaved : (startBit s).ieSaved = s.ieSaved := rfl
@[simp] theorem startBit_ie : (startBit s).ie = s.ie := rfl
@[simp] theorem startBit_mem : (startBit s).mem = s.mem := rfl
@[simp] theorem startBit_portCmdBase : (startBit s).portCmdBase = s.portCmdBase := rfl
@[simp] theorem startBit_portRespBase : (startBit s).portRespBase = s.portRespBase := rfl
@[simp] theorem startBit_relay : (startBit s).relay = s.relay := rfl
@[simp] theorem startBit_frameN : (startBit s).frameN = s.frameN := rfl
@[simp] theorem startBit_frameM : (startBit s).frameM = s.frameM := rfl
@[simp] theorem startBit_frameCmd : (startBit s).frameCmd = s.frameCmd := rfl
@[simp] theorem startBit_frameResp : (startBit s).frameResp = s.frameResp := rfl
@[simp] theorem startBit_frameTick : (startBit s).frameTick = s.frameTick := rfl
@[simp] theorem startBit_hostIn : (startBit s).hostIn = s.hostIn := rfl
@[simp] theorem startBit_hostOut : (startBit s).hostOut = s.hostOut := rfl
@[simp] theorem startBit_gap : (startBit s).gap = s.gap := rfl
@[simp] theorem startBit_now : (startBit s).now = s.now := rfl
@[simp] theorem startBit_env : (startBit s).env = s.env := rfl
@[simp] theorem startBit_ops : (startBit s).ops = s.ops := rfl
@[simp] theorem startBit_sensed : (startBit s).sensed = s.sensed := rfl
end

section
variable (v : Byte) (s : State)
@[simp] theorem startByte_cfg : (startByte v s).cfg = s.cfg := rfl
@[simp] theorem startByte_st : (startByte v s).st = .txLow := rfl
@[simp] theorem startByte_dir : (startByte v s).dir = .output := rfl
@[simp] theorem startByte_done : (startByte v s).done = s.done := rfl
@[simp] theorem startByte_shreg : (startByte v s).shreg = v <<< 1 := rfl
@[simp] theorem startByte_bitcnt : (startByte v s).bitcnt = 7 := rfl
@[simp] theorem startByte_txidx : (startByte v s).txidx = s.txidx + 1 := rfl
@[simp] theorem startByte_rxidx : (startByte v s).rxidx = s.rxidx := rfl
@[simp] theorem startByte_cnt : (startByte v s).cnt = s.low v.msb := rfl
@[simp] theorem startByte_curbit : (startByte v s).curbit = v.msb := rfl
@[simp] theorem startByte_n : (startByte v s).n = s.n := rfl
@[simp] theorem startByte_m : (startByte v s).m = s.m := rfl
@[simp] theorem startByte_cbase : (startByte v s).cbase = s.cbase := rfl
@[simp] theorem startByte_rbase : (startByte v s).rbase = s.rbase := rfl
@[simp] theorem startByte_ieSaved : (startByte v s).ieSaved = s.ieSaved := rfl
@[simp] theorem startByte_ie : (startByte v s).ie = s.ie := rfl
@[simp] theorem startByte_mem : (startByte v s).mem = s.mem := rfl
@[simp] theorem startByte_portCmdBase : (startByte v s).portCmdBase = s.portCmdBase := rfl
@[simp] theorem startByte_portRespBase : (startByte v s).portRespBase = s.portRespBase := rfl
@[simp] theorem startByte_relay : (startByte v s).relay = s.relay := rfl
@[simp] theorem startByte_frameN : (startByte v s).frameN = s.frameN := rfl
@[simp] theorem startByte_frameM : (startByte v s).frameM = s.frameM := rfl
@[simp] theorem startByte_frameCmd : (startByte v s).frameCmd = s.frameCmd := rfl
@[simp] theorem startByte_frameResp : (startByte v s).frameResp = s.frameResp := rfl
@[simp] theorem startByte_frameTick : (startByte v s).frameTick = s.frameTick := rfl
@[simp] theorem startByte_hostIn : (startByte v s).hostIn = s.hostIn := rfl
@[simp] theorem startByte_hostOut : (startByte v s).hostOut = s.hostOut := rfl
@[simp] theorem startByte_gap : (startByte v s).gap = s.gap := rfl
@[simp] theorem startByte_now : (startByte v s).now = s.now := rfl
@[simp] theorem startByte_env : (startByte v s).env = s.env := rfl
@[simp] theorem startByte_ops : (startByte v s).ops = s.ops := rfl
@[simp] theorem startByte_sensed : (startByte v s).sensed = s.sensed := rfl
end

section
variable (s : State)
@[simp] theorem startStop_cfg : (startStop s).cfg = s.cfg := rfl
@[simp] theorem startStop_st : (startStop s).st = .stopLow := rfl
@[simp] theorem startStop_dir : (startStop s).dir = .output := rfl
@[simp] theorem startStop_done : (startStop s).done = s.done := rfl
@[simp] theorem startStop_shreg : (startStop s).shreg = s.shreg := rfl
@[simp] theorem startStop_bitcnt : (startStop s).bitcnt = s.bitcnt := rfl
@[simp] theorem startStop_txidx : (startStop s).txidx = s.txidx := rfl
@[simp] theorem startStop_rxidx : (startStop s).rxidx = s.rxidx := rfl
@[simp] theorem startStop_cnt : (startStop s).cnt = s.t := rfl
@[simp] theorem startStop_curbit : (startStop s).curbit = true := rfl
@[simp] theorem startStop_n : (startStop s).n = s.n := rfl
@[simp] theorem startStop_m : (startStop s).m = s.m := rfl
@[simp] theorem startStop_cbase : (startStop s).cbase = s.cbase := rfl
@[simp] theorem startStop_rbase : (startStop s).rbase = s.rbase := rfl
@[simp] theorem startStop_ieSaved : (startStop s).ieSaved = s.ieSaved := rfl
@[simp] theorem startStop_ie : (startStop s).ie = s.ie := rfl
@[simp] theorem startStop_mem : (startStop s).mem = s.mem := rfl
@[simp] theorem startStop_portCmdBase : (startStop s).portCmdBase = s.portCmdBase := rfl
@[simp] theorem startStop_portRespBase : (startStop s).portRespBase = s.portRespBase := rfl
@[simp] theorem startStop_relay : (startStop s).relay = s.relay := rfl
@[simp] theorem startStop_frameN : (startStop s).frameN = s.frameN := rfl
@[simp] theorem startStop_frameM : (startStop s).frameM = s.frameM := rfl
@[simp] theorem startStop_frameCmd : (startStop s).frameCmd = s.frameCmd := rfl
@[simp] theorem startStop_frameResp : (startStop s).frameResp = s.frameResp := rfl
@[simp] theorem startStop_frameTick : (startStop s).frameTick = s.frameTick := rfl
@[simp] theorem startStop_hostIn : (startStop s).hostIn = s.hostIn := rfl
@[simp] theorem startStop_hostOut : (startStop s).hostOut = s.hostOut := rfl
@[simp] theorem startStop_gap : (startStop s).gap = s.gap := rfl
@[simp] theorem startStop_now : (startStop s).now = s.now := rfl
@[simp] theorem startStop_env : (startStop s).env = s.env := rfl
@[simp] theorem startStop_ops : (startStop s).ops = s.ops := rfl
@[simp] theorem startStop_sensed : (startStop s).sensed = s.sensed := rfl
end

section
variable (s : State)
@[simp] theorem endLow_cfg : (endLow s).cfg = s.cfg := rfl
@[simp] theorem endLow_st : (endLow s).st = .txHigh := rfl
@[simp] theorem endLow_dir : (endLow s).dir = .input := rfl
@[simp] theorem endLow_done : (endLow s).done = s.done := rfl
@[simp] theorem endLow_shreg : (endLow s).shreg = s.shreg := rfl
@[simp] theorem endLow_bitcnt : (endLow s).bitcnt = s.bitcnt := rfl
@[simp] theorem endLow_txidx : (endLow s).txidx = s.txidx := rfl
@[simp] theorem endLow_rxidx : (endLow s).rxidx = s.rxidx := rfl
@[simp] theorem endLow_cnt : (endLow s).cnt = s.period - s.low s.curbit := rfl
@[simp] theorem endLow_curbit : (endLow s).curbit = s.curbit := rfl
@[simp] theorem endLow_n : (endLow s).n = s.n := rfl
@[simp] theorem endLow_m : (endLow s).m = s.m := rfl
@[simp] theorem endLow_cbase : (endLow s).cbase = s.cbase := rfl
@[simp] theorem endLow_rbase : (endLow s).rbase = s.rbase := rfl
@[simp] theorem endLow_ieSaved : (endLow s).ieSaved = s.ieSaved := rfl
@[simp] theorem endLow_ie : (endLow s).ie = s.ie := rfl
@[simp] theorem endLow_mem : (endLow s).mem = s.mem := rfl
@[simp] theorem endLow_portCmdBase : (endLow s).portCmdBase = s.portCmdBase := rfl
@[simp] theorem endLow_portRespBase : (endLow s).portRespBase = s.portRespBase := rfl
@[simp] theorem endLow_relay : (endLow s).relay = s.relay := rfl
@[simp] theorem endLow_frameN : (endLow s).frameN = s.frameN := rfl
@[simp] theorem endLow_frameM : (endLow s).frameM = s.frameM := rfl
@[simp] theorem endLow_frameCmd : (endLow s).frameCmd = s.frameCmd := rfl
@[simp] theorem endLow_frameResp : (endLow s).frameResp = s.frameResp := rfl
@[simp] theorem endLow_frameTick : (endLow s).frameTick = s.frameTick := rfl
@[simp] theorem endLow_hostIn : (endLow s).hostIn = s.hostIn := rfl
@[simp] theorem endLow_hostOut : (endLow s).hostOut = s.hostOut := rfl
@[simp] theorem endLow_gap : (endLow s).gap = s.gap := rfl
@[simp] theorem endLow_now : (endLow s).now = s.now := rfl
@[simp] theorem endLow_env : (endLow s).env = s.env := rfl
@[simp] theorem endLow_ops : (endLow s).ops = s.ops := rfl
@[simp] theorem endLow_sensed : (endLow s).sensed = s.sensed := rfl
end

section
variable (s : State)
@[simp] theorem startWaitHigh_cfg : (startWaitHigh s).cfg = s.cfg := rfl
@[simp] theorem startWaitHigh_st : (startWaitHigh s).st = .rxWaitHigh := rfl
@[simp] theorem startWaitHigh_dir : (startWaitHigh s).dir = s.dir := rfl
@[simp] theorem startWaitHigh_done : (startWaitHigh s).done = s.done := rfl
@[simp] theorem startWaitHigh_shreg : (startWaitHigh s).shreg = s.shreg := rfl
@[simp] theorem startWaitHigh_bitcnt : (startWaitHigh s).bitcnt = s.bitcnt := rfl
@[simp] theorem startWaitHigh_txidx : (startWaitHigh s).txidx = s.txidx := rfl
@[simp] theorem startWaitHigh_rxidx : (startWaitHigh s).rxidx = s.rxidx := rfl
@[simp] theorem startWaitHigh_cnt : (startWaitHigh s).cnt = 0 := rfl
@[simp] theorem startWaitHigh_curbit : (startWaitHigh s).curbit = s.curbit := rfl
@[simp] theorem startWaitHigh_n : (startWaitHigh s).n = s.n := rfl
@[simp] theorem startWaitHigh_m : (startWaitHigh s).m = s.m := rfl
@[simp] theorem startWaitHigh_cbase : (startWaitHigh s).cbase = s.cbase := rfl
@[simp] theorem startWaitHigh_rbase : (startWaitHigh s).rbase = s.rbase := rfl
@[simp] theorem startWaitHigh_ieSaved : (startWaitHigh s).ieSaved = s.ieSaved := rfl
@[simp] theorem startWaitHigh_ie : (startWaitHigh s).ie = s.ie := rfl
@[simp] theorem startWaitHigh_mem : (startWaitHigh s).mem = s.mem := rfl
@[simp] theorem startWaitHigh_portCmdBase : (startWaitHigh s).portCmdBase = s.portCmdBase := rfl
@[simp] theorem startWaitHigh_portRespBase : (startWaitHigh s).portRespBase = s.portRespBase := rfl
@[simp] theorem startWaitHigh_relay : (startWaitHigh s).relay = s.relay := rfl
@[simp] theorem startWaitHigh_frameN : (startWaitHigh s).frameN = s.frameN := rfl
@[simp] theorem startWaitHigh_frameM : (startWaitHigh s).frameM = s.frameM := rfl
@[simp] theorem startWaitHigh_frameCmd : (startWaitHigh s).frameCmd = s.frameCmd := rfl
@[simp] theorem startWaitHigh_frameResp : (startWaitHigh s).frameResp = s.frameResp := rfl
@[simp] theorem startWaitHigh_frameTick : (startWaitHigh s).frameTick = s.frameTick := rfl
@[simp] theorem startWaitHigh_hostIn : (startWaitHigh s).hostIn = s.hostIn := rfl
@[simp] theorem startWaitHigh_hostOut : (startWaitHigh s).hostOut = s.hostOut := rfl
@[simp] theorem startWaitHigh_gap : (startWaitHigh s).gap = s.gap := rfl
@[simp] theorem startWaitHigh_now : (startWaitHigh s).now = s.now := rfl
@[simp] theorem startWaitHigh_env : (startWaitHigh s).env = s.env := rfl
@[simp] theorem startWaitHigh_ops : (startWaitHigh s).ops = s.ops := rfl
@[simp] theorem startWaitHigh_sensed : (startWaitHigh s).sensed = s.sensed := rfl
end

section
variable (s : State)
@[simp] theorem startWaitLow_cfg : (startWaitLow s).cfg = s.cfg := rfl
@[simp] theorem startWaitLow_st : (startWaitLow s).st = .rxWaitLow := rfl
@[simp] theorem startWaitLow_dir : (startWaitLow s).dir = s.dir := rfl
@[simp] theorem startWaitLow_done : (startWaitLow s).done = s.done := rfl
@[simp] theorem startWaitLow_shreg : (startWaitLow s).shreg = s.shreg := rfl
@[simp] theorem startWaitLow_bitcnt : (startWaitLow s).bitcnt = s.bitcnt := rfl
@[simp] theorem startWaitLow_txidx : (startWaitLow s).txidx = s.txidx := rfl
@[simp] theorem startWaitLow_rxidx : (startWaitLow s).rxidx = s.rxidx := rfl
@[simp] theorem startWaitLow_cnt : (startWaitLow s).cnt = 0 := rfl
@[simp] theorem startWaitLow_curbit : (startWaitLow s).curbit = s.curbit := rfl
@[simp] theorem startWaitLow_n : (startWaitLow s).n = s.n := rfl
@[simp] theorem startWaitLow_m : (startWaitLow s).m = s.m := rfl
@[simp] theorem startWaitLow_cbase : (startWaitLow s).cbase = s.cbase := rfl
@[simp] theorem startWaitLow_rbase : (startWaitLow s).rbase = s.rbase := rfl
@[simp] theorem startWaitLow_ieSaved : (startWaitLow s).ieSaved = s.ieSaved := rfl
@[simp] theorem startWaitLow_ie : (startWaitLow s).ie = s.ie := rfl
@[simp] theorem startWaitLow_mem : (startWaitLow s).mem = s.mem := rfl
@[simp] theorem startWaitLow_portCmdBase : (startWaitLow s).portCmdBase = s.portCmdBase := rfl
@[simp] theorem startWaitLow_portRespBase : (startWaitLow s).portRespBase = s.portRespBase := rfl
@[simp] theorem startWaitLow_relay : (startWaitLow s).relay = s.relay := rfl
@[simp] theorem startWaitLow_frameN : (startWaitLow s).frameN = s.frameN := rfl
@[simp] theorem startWaitLow_frameM : (startWaitLow s).frameM = s.frameM := rfl
@[simp] theorem startWaitLow_frameCmd : (startWaitLow s).frameCmd = s.frameCmd := rfl
@[simp] theorem startWaitLow_frameResp : (startWaitLow s).frameResp = s.frameResp := rfl
@[simp] theorem startWaitLow_frameTick : (startWaitLow s).frameTick = s.frameTick := rfl
@[simp] theorem startWaitLow_hostIn : (startWaitLow s).hostIn = s.hostIn := rfl
@[simp] theorem startWaitLow_hostOut : (startWaitLow s).hostOut = s.hostOut := rfl
@[simp] theorem startWaitLow_gap : (startWaitLow s).gap = s.gap := rfl
@[simp] theorem startWaitLow_now : (startWaitLow s).now = s.now := rfl
@[simp] theorem startWaitLow_env : (startWaitLow s).env = s.env := rfl
@[simp] theorem startWaitLow_ops : (startWaitLow s).ops = s.ops := rfl
@[simp] theorem startWaitLow_sensed : (startWaitLow s).sensed = s.sensed := rfl
end

section
variable (s : State)
@[simp] theorem startDelay_cfg : (startDelay s).cfg = s.cfg := rfl
@[simp] theorem startDelay_st : (startDelay s).st = .rxDelay := rfl
@[simp] theorem startDelay_dir : (startDelay s).dir = s.dir := rfl
@[simp] theorem startDelay_done : (startDelay s).done = s.done := rfl
@[simp] theorem startDelay_shreg : (startDelay s).shreg = s.shreg := rfl
@[simp] theorem startDelay_bitcnt : (startDelay s).bitcnt = s.bitcnt := rfl
@[simp] theorem startDelay_txidx : (startDelay s).txidx = s.txidx := rfl
@[simp] theorem startDelay_rxidx : (startDelay s).rxidx = s.rxidx := rfl
@[simp] theorem startDelay_cnt : (startDelay s).cnt = s.sampleDelay := rfl
@[simp] theorem startDelay_curbit : (startDelay s).curbit = s.curbit := rfl
@[simp] theorem startDelay_n : (startDelay s).n = s.n := rfl
@[simp] theorem startDelay_m : (startDelay s).m = s.m := rfl
@[simp] theorem startDelay_cbase : (startDelay s).cbase = s.cbase := rfl
@[simp] theorem startDelay_rbase : (startDelay s).rbase = s.rbase := rfl
@[simp] theorem startDelay_ieSaved : (startDelay s).ieSaved = s.ieSaved := rfl
@[simp] theorem startDelay_ie : (startDelay s).ie = s.ie := rfl
@[simp] theorem startDelay_mem : (startDelay s).mem = s.mem := rfl
@[simp] theorem startDelay_portCmdBase : (startDelay s).portCmdBase = s.portCmdBase := rfl
@[simp] theorem startDelay_portRespBase : (startDelay s).portRespBase = s.portRespBase := rfl
@[simp] theorem startDelay_relay : (startDelay s).relay = s.relay := rfl
@[simp] theorem startDelay_frameN : (startDelay s).frameN = s.frameN := rfl
@[simp] theorem startDelay_frameM : (startDelay s).frameM = s.frameM := rfl
@[simp] theorem startDelay_frameCmd : (startDelay s).frameCmd = s.frameCmd := rfl
@[simp] theorem startDelay_frameResp : (startDelay s).frameResp = s.frameResp := rfl
@[simp] theorem startDelay_frameTick : (startDelay s).frameTick = s.frameTick := rfl
@[simp] theorem startDelay_hostIn : (startDelay s).hostIn = s.hostIn := rfl
@[simp] theorem startDelay_hostOut : (startDelay s).hostOut = s.hostOut := rfl
@[simp] theorem startDelay_gap : (startDelay s).gap = s.gap := rfl
@[simp] theorem startDelay_now : (startDelay s).now = s.now := rfl
@[simp] theorem startDelay_env : (startDelay s).env = s.env := rfl
@[simp] theorem startDelay_ops : (startDelay s).ops = s.ops := rfl
@[simp] theorem startDelay_sensed : (startDelay s).sensed = s.sensed := rfl
end

section
variable (s : State)
@[simp] theorem startRxByte_cfg : (startRxByte s).cfg = s.cfg := rfl
@[simp] theorem startRxByte_st : (startRxByte s).st = .rxWaitHigh := rfl
@[simp] theorem startRxByte_dir : (startRxByte s).dir = s.dir := rfl
@[simp] theorem startRxByte_done : (startRxByte s).done = s.done := rfl
@[simp] theorem startRxByte_shreg : (startRxByte s).shreg = 0 := rfl
@[simp] theorem startRxByte_bitcnt : (startRxByte s).bitcnt = 0 := rfl
@[simp] theorem startRxByte_txidx : (startRxByte s).txidx = s.txidx := rfl
@[simp] theorem startRxByte_rxidx : (startRxByte s).rxidx = s.rxidx := rfl
@[simp] theorem startRxByte_cnt : (startRxByte s).cnt = 0 := rfl
@[simp] theorem startRxByte_curbit : (startRxByte s).curbit = s.curbit := rfl
@[simp] theorem startRxByte_n : (startRxByte s).n = s.n := rfl
@[simp] theorem startRxByte_m : (startRxByte s).m = s.m := rfl
@[simp] theorem startRxByte_cbase : (startRxByte s).cbase = s.cbase := rfl
@[simp] theorem startRxByte_rbase : (startRxByte s).rbase = s.rbase := rfl
@[simp] theorem startRxByte_ieSaved : (startRxByte s).ieSaved = s.ieSaved := rfl
@[simp] theorem startRxByte_ie : (startRxByte s).ie = s.ie := rfl
@[simp] theorem startRxByte_mem : (startRxByte s).mem = s.mem := rfl
@[simp] theorem startRxByte_portCmdBase : (startRxByte s).portCmdBase = s.portCmdBase := rfl
@[simp] theorem startRxByte_portRespBase : (startRxByte s).portRespBase = s.portRespBase := rfl
@[simp] theorem startRxByte_relay : (startRxByte s).relay = s.relay := rfl
@[simp] theorem startRxByte_frameN : (startRxByte s).frameN = s.frameN := rfl
@[simp] theorem startRxByte_frameM : (startRxByte s).frameM = s.frameM := rfl
@[simp] theorem startRxByte_frameCmd : (startRxByte s).frameCmd = s.frameCmd := rfl
@[simp] theorem startRxByte_frameResp : (startRxByte s).frameResp = s.frameResp := rfl
@[simp] theorem startRxByte_frameTick : (startRxByte s).frameTick = s.frameTick := rfl
@[simp] theorem startRxByte_hostIn : (startRxByte s).hostIn = s.hostIn := rfl
@[simp] theorem startRxByte_hostOut : (startRxByte s).hostOut = s.hostOut := rfl
@[simp] theorem startRxByte_gap : (startRxByte s).gap = s.gap := rfl
@[simp] theorem startRxByte_now : (startRxByte s).now = s.now := rfl
@[simp] theorem startRxByte_env : (startRxByte s).env = s.env := rfl
@[simp] theorem startRxByte_ops : (startRxByte s).ops = s.ops := rfl
@[simp] theorem startRxByte_sensed : (startRxByte s).sensed = s.sensed := rfl
end

section
variable (s : State)
@[simp] theorem finish_cfg : (finish s).cfg = s.cfg := rfl
@[simp] theorem finish_st : (finish s).st = .idle := rfl
@[simp] theorem finish_dir : (finish s).dir = .input := rfl
@[simp] theorem finish_done : (finish s).done = true := rfl
@[simp] theorem finish_shreg : (finish s).shreg = s.shreg := rfl
@[simp] theorem finish_bitcnt : (finish s).bitcnt = s.bitcnt := rfl
@[simp] theorem finish_txidx : (finish s).txidx = s.txidx := rfl
@[simp] theorem finish_rxidx : (finish s).rxidx = s.rxidx := rfl
@[simp] theorem finish_cnt : (finish s).cnt = s.cnt := rfl
@[simp] theorem finish_curbit : (finish s).curbit = s.curbit := rfl
@[simp] theorem finish_n : (finish s).n = s.n := rfl
@[simp] theorem finish_m : (finish s).m = s.m := rfl
@[simp] theorem finish_cbase : (finish s).cbase = s.cbase := rfl
@[simp] theorem finish_rbase : (finish s).rbase = s.rbase := rfl
@[simp] theorem finish_ieSaved : (finish s).ieSaved = s.ieSaved := rfl
@[simp] theorem finish_ie : (finish s).ie = s.ieSaved := rfl
@[simp] theorem finish_mem : (finish s).mem = s.mem := rfl
@[simp] theorem finish_portCmdBase : (finish s).portCmdBase = s.portCmdBase := rfl
@[simp] theorem finish_portRespBase : (finish s).portRespBase = s.portRespBase := rfl
@[simp] theorem finish_relay : (finish s).relay = s.relay := rfl
@[simp] theorem finish_frameN : (finish s).frameN = s.frameN := rfl
@[simp] theorem finish_frameM : (finish s).frameM = s.frameM := rfl
@[simp] theorem finish_frameCmd : (finish s).frameCmd = s.frameCmd := rfl
@[simp] theorem finish_frameResp : (finish s).frameResp = s.frameResp := rfl
@[simp] theorem finish_frameTick : (finish s).frameTick = s.frameTick := rfl
@[simp] theorem finish_hostIn : (finish s).hostIn = s.hostIn := rfl
@[simp] theorem finish_hostOut : (finish s).hostOut = s.hostOut := rfl
@[simp] theorem finish_gap : (finish s).gap = s.gap := rfl
@[simp] theorem finish_now : (finish s).now = s.now := rfl
@[simp] theorem finish_env : (finish s).env = s.env := rfl
@[simp] theorem finish_ops : (finish s).ops = s.ops := rfl
@[simp] theorem finish_sensed : (finish s).sensed = s.sensed := rfl
end

section
variable (a : Nat) (v : Byte) (s : State)
@[simp] theorem memWrite_cfg : (memWrite a v s).cfg = s.cfg := rfl
@[simp] theorem memWrite_st : (memWrite a v s).st = s.st := rfl
@[simp] theorem memWrite_dir : (memWrite a v s).dir = s.dir := rfl
@[simp] theorem memWrite_done : (memWrite a v s).done = s.done := rfl
@[simp] theorem memWrite_shreg : (memWrite a v s).shreg = s.shreg := rfl
@[simp] theorem memWrite_bitcnt : (memWrite a v s).bitcnt = s.bitcnt := rfl
@[simp] theorem memWrite_txidx : (memWrite a v s).txidx = s.txidx := rfl
@[simp] theorem memWrite_rxidx : (memWrite a v s).rxidx = s.rxidx := rfl
@[simp] theorem memWrite_cnt : (memWrite a v s).cnt = s.cnt := rfl
@[simp] theorem memWrite_curbit : (memWrite a v s).curbit = s.curbit := rfl
@[simp] theorem memWrite_n : (memWrite a v s).n = s.n := rfl
@[simp] theorem memWrite_m : (memWrite a v s).m = s.m := rfl
@[simp] theorem memWrite_cbase : (memWrite a v s).cbase = s.cbase := rfl
@[simp] theorem memWrite_rbase : (memWrite a v s).rbase = s.rbase := rfl
@[simp] theorem memWrite_ieSaved : (memWrite a v s).ieSaved = s.ieSaved := rfl
@[simp] theorem memWrite_ie : (memWrite a v s).ie = s.ie := rfl
@[simp] theorem memWrite_mem : (memWrite a v s).mem = Memory.write s.mem a v := rfl
@[simp] theorem memWrite_portCmdBase : (memWrite a v s).portCmdBase = s.portCmdBase := rfl
@[simp] theorem memWrite_portRespBase : (memWrite a v s).portRespBase = s.portRespBase := rfl
@[simp] theorem memWrite_relay : (memWrite a v s).relay = s.relay := rfl
@[simp] theorem memWrite_frameN : (memWrite a v s).frameN = s.frameN := rfl
@[simp] theorem memWrite_frameM : (memWrite a v s).frameM = s.frameM := rfl
@[simp] theorem memWrite_frameCmd : (memWrite a v s).frameCmd = s.frameCmd := rfl
@[simp] theorem memWrite_frameResp : (memWrite a v s).frameResp = s.frameResp := rfl
@[simp] theorem memWrite_frameTick : (memWrite a v s).frameTick = s.frameTick := rfl
@[simp] theorem memWrite_hostIn : (memWrite a v s).hostIn = s.hostIn := rfl
@[simp] theorem memWrite_hostOut : (memWrite a v s).hostOut = s.hostOut := rfl
@[simp] theorem memWrite_gap : (memWrite a v s).gap = s.gap := rfl
@[simp] theorem memWrite_now : (memWrite a v s).now = s.now := rfl
@[simp] theorem memWrite_env : (memWrite a v s).env = s.env := rfl
@[simp] theorem memWrite_ops : (memWrite a v s).ops = s.ops := rfl
@[simp] theorem memWrite_sensed : (memWrite a v s).sensed = s.sensed := rfl
end

section
variable (x : Byte) (s : State)
@[simp] theorem store_cfg : (store x s).cfg = s.cfg := rfl
@[simp] theorem store_st : (store x s).st = s.st := rfl
@[simp] theorem store_dir : (store x s).dir = s.dir := rfl
@[simp] theorem store_done : (store x s).done = s.done := rfl
@[simp] theorem store_shreg : (store x s).shreg = s.shreg := rfl
@[simp] theorem store_bitcnt : (store x s).bitcnt = s.bitcnt := rfl
@[simp] theorem store_txidx : (store x s).txidx = s.txidx := rfl
@[simp] theorem store_rxidx : (store x s).rxidx = s.rxidx := rfl
@[simp] theorem store_cnt : (store x s).cnt = s.cnt := rfl
@[simp] theorem store_curbit : (store x s).curbit = s.curbit := rfl
@[simp] theorem store_n : (store x s).n = s.n := rfl
@[simp] theorem store_m : (store x s).m = s.m := rfl
@[simp] theorem store_cbase : (store x s).cbase = s.cbase := rfl
@[simp] theorem store_rbase : (store x s).rbase = s.rbase := rfl
@[simp] theorem store_ieSaved : (store x s).ieSaved = s.ieSaved := rfl
@[simp] theorem store_ie : (store x s).ie = s.ie := rfl
@[simp] theorem store_mem : (store x s).mem = Memory.write s.mem (s.respAddr s.rxidx.toNat) x := rfl
@[simp] theorem store_portCmdBase : (store x s).portCmdBase = s.portCmdBase := rfl
@[simp] theorem store_portRespBase : (store x s).portRespBase = s.portRespBase := rfl
@[simp] theorem store_relay : (store x s).relay = s.relay := rfl
@[simp] theorem store_frameN : (store x s).frameN = s.frameN := rfl
@[simp] theorem store_frameM : (store x s).frameM = s.frameM := rfl
@[simp] theorem store_frameCmd : (store x s).frameCmd = s.frameCmd := rfl
@[simp] theorem store_frameResp : (store x s).frameResp = s.frameResp := rfl
@[simp] theorem store_frameTick : (store x s).frameTick = s.frameTick := rfl
@[simp] theorem store_hostIn : (store x s).hostIn = s.hostIn := rfl
@[simp] theorem store_hostOut : (store x s).hostOut = s.hostOut := rfl
@[simp] theorem store_gap : (store x s).gap = s.gap := rfl
@[simp] theorem store_now : (store x s).now = s.now := rfl
@[simp] theorem store_env : (store x s).env = s.env := rfl
@[simp] theorem store_ops : (store x s).ops = s.ops := rfl
@[simp] theorem store_sensed : (store x s).sensed = s.sensed := rfl
end

section
variable (n m : Byte) (s : State)
@[simp] theorem accept_cfg : (accept n m s).cfg = s.cfg := rfl
@[simp] theorem accept_st : (accept n m s).st = .arm := rfl
@[simp] theorem accept_dir : (accept n m s).dir = .input := rfl
@[simp] theorem accept_done : (accept n m s).done = s.done := rfl
@[simp] theorem accept_shreg : (accept n m s).shreg = 0 := rfl
@[simp] theorem accept_bitcnt : (accept n m s).bitcnt = 0 := rfl
@[simp] theorem accept_txidx : (accept n m s).txidx = 0 := rfl
@[simp] theorem accept_rxidx : (accept n m s).rxidx = 0 := rfl
@[simp] theorem accept_cnt : (accept n m s).cnt = 0 := rfl
@[simp] theorem accept_curbit : (accept n m s).curbit = false := rfl
@[simp] theorem accept_n : (accept n m s).n = n := rfl
@[simp] theorem accept_m : (accept n m s).m = m := rfl
@[simp] theorem accept_cbase : (accept n m s).cbase = s.wrap s.portCmdBase := rfl
@[simp] theorem accept_rbase : (accept n m s).rbase = s.wrap s.portRespBase := rfl
@[simp] theorem accept_ieSaved : (accept n m s).ieSaved = s.ie := rfl
@[simp] theorem accept_ie : (accept n m s).ie = false := rfl
@[simp] theorem accept_mem : (accept n m s).mem = s.mem := rfl
@[simp] theorem accept_portCmdBase : (accept n m s).portCmdBase = s.portCmdBase := rfl
@[simp] theorem accept_portRespBase : (accept n m s).portRespBase = s.portRespBase := rfl
@[simp] theorem accept_relay : (accept n m s).relay = s.relay := rfl
@[simp] theorem accept_frameN : (accept n m s).frameN = s.frameN := rfl
@[simp] theorem accept_frameM : (accept n m s).frameM = s.frameM := rfl
@[simp] theorem accept_frameCmd : (accept n m s).frameCmd = s.frameCmd := rfl
@[simp] theorem accept_frameResp : (accept n m s).frameResp = s.frameResp := rfl
@[simp] theorem accept_frameTick : (accept n m s).frameTick = s.frameTick := rfl
@[simp] theorem accept_hostIn : (accept n m s).hostIn = s.hostIn := rfl
@[simp] theorem accept_hostOut : (accept n m s).hostOut = s.hostOut := rfl
@[simp] theorem accept_gap : (accept n m s).gap = s.gap := rfl
@[simp] theorem accept_now : (accept n m s).now = s.now := rfl
@[simp] theorem accept_env : (accept n m s).env = s.env := rfl
@[simp] theorem accept_ops : (accept n m s).ops = s.ops := rfl
@[simp] theorem accept_sensed : (accept n m s).sensed = s.sensed := rfl
end

end Sys2Proof.Machine
end

