-- ==== Sys2Proof/Laws/Relay.lean ====
section
/-! SUPPORT. All that one tick of a read of command bytes can do: place them, drop the starved frame, or wait. -/

namespace Sys2Proof.Machine

variable {s : State}

/-- N bytes are there: they are placed and the transaction is next. -/
theorem relayPoll_of_enough (h : s.frameN.toNat ≤ s.hostIn.length) :
    relayPoll s =
      { memWriteList s.frameCmd (s.hostIn.take s.frameN.toNat) s with
        hostIn := s.hostIn.drop s.frameN.toNat, relay := .transact } := by
  rw [relayPoll, relayRead, if_pos h, relayTimeout, if_neg (by simp)]

/-- Bytes are missing and the read timeout has elapsed: the frame is dropped. -/
theorem relayPoll_of_expired (h : s.hostIn.length < s.frameN.toNat) (he : s.frameTick + s.cfg.readTimeout ≤ s.now) :
    relayPoll s = { s with hostIn := s.hostIn.drop s.frameN.toNat, relay := .waitHeader } := by
  rw [relayPoll, relayRead, if_neg (by omega), relayTimeout, if_pos ⟨rfl, h, by simpa [State.readExpired] using he⟩]
  rfl

/-- Bytes are missing and the read timeout has not elapsed: the relay waits. -/
theorem relayPoll_of_waiting (h : s.hostIn.length < s.frameN.toNat) (he : s.now < s.frameTick + s.cfg.readTimeout) :
    relayPoll s = { s with relay := .waitCommand } := by
  rw [relayPoll, relayRead, if_neg (by omega), relayTimeout, if_neg]
  rintro ⟨-, -, h⟩
  have : s.frameTick + s.cfg.readTimeout ≤ s.now := by simpa [State.readExpired] using h
  omega

/-- A poll changes memory, the host-to-device queue and the relay's place, and nothing else. -/
theorem exists_relayPoll (s : State) :
    ∃ mem hostIn relay, relayPoll s = { s with mem := mem, hostIn := hostIn, relay := relay } := by
  by_cases h : s.frameN.toNat ≤ s.hostIn.length
  · obtain ⟨m, hm⟩ := exists_memWriteList (s.hostIn.take s.frameN.toNat) s.frameCmd s
    exact ⟨m, _, _, by rw [relayPoll_of_enough h, hm]⟩
  · by_cases he : s.frameTick + s.cfg.readTimeout ≤ s.now
    · exact ⟨s.mem, _, _, relayPoll_of_expired (by omega) he⟩
    · exact ⟨s.mem, s.hostIn, _, relayPoll_of_waiting (by omega) (by omega)⟩

/-- So does a quiet tick. -/
theorem exists_relayWait (s : State) :
    ∃ mem hostIn relay, relayWait s = { s with mem := mem, hostIn := hostIn, relay := relay } := by
  unfold relayWait
  split
  · exact exists_relayPoll s
  · exact ⟨s.mem, s.hostIn, s.relay, rfl⟩

/-- With no read in progress a quiet tick changes nothing. -/
theorem relayWait_of_ne (h : s.relay ≠ .waitCommand) : relayWait s = s := if_neg h

end Sys2Proof.Machine
end

