-- ==== Sys2Proof/Laws/Clock.lean ====
section
/-! SUPPORT. The passing of ticks: inputs seen later, many ticks at once, and the runs of an operation. -/

namespace Sys2Proof.Machine

/-! ### Inputs -/

/-- What is `j` ticks away one tick later is `j+1` ticks away now. -/
@[simp] theorem inputAt_elapse (s : State) (j : Nat) : (elapse s).inputAt j = s.inputAt (j + 1) := by
  simp only [State.inputAt, elapse_env, elapse_now, List.getElem?_tail]
  rw [Nat.add_assoc, Nat.add_comm 1 j]

theorem input_eq_inputAt (s : State) : s.input = s.inputAt 0 := rfl

@[simp] theorem input_elapse (s : State) : (elapse s).input = s.inputAt 1 := by
  simp [input_eq_inputAt]

/-- The inputs depend on the schedule and the tick number only. -/
theorem inputAt_congr {s t : State} (he : t.env = s.env) (hn : t.now = s.now) (j : Nat) :
    t.inputAt j = s.inputAt j := by simp [State.inputAt, he, hn]

theorem NoReset.mono {s : State} {k k' : Nat} (h : NoReset s k) (hk : k' ≤ k) : NoReset s k' :=
  fun j hj => h j (lt_of_lt_of_le hj hk)

theorem NoReset.head {s : State} {k : Nat} (h : NoReset s (k + 1)) : s.input.rst = false :=
  h 0 (by omega)

/-! ### Many ticks with no other action -/

@[simp] theorem elapseN_zero (s : State) : elapseN 0 s = s := rfl

theorem elapseN_succ (k : Nat) (s : State) : elapseN (k + 1) s = elapseN k (elapse s) := rfl

theorem elapseN_succ' (k : Nat) (s : State) : elapseN (k + 1) s = elapse (elapseN k s) := by
  induction k generalizing s with
  | zero => rfl
  | succ k ih => rw [elapseN_succ, ih, elapseN_succ]

theorem elapseN_add (j k : Nat) (s : State) : elapseN (j + k) s = elapseN k (elapseN j s) := by
  induction j generalizing s with
  | zero => simp
  | succ j ih => rw [Nat.succ_add, elapseN_succ, ih, elapseN_succ]

/-- An update that a tick's passing neither reads nor writes commutes with the passing of any number. -/
theorem elapseN_comm {f : State → State} (h : ∀ s, elapse (f s) = f (elapse s)) (k : Nat) (s : State) :
    elapseN k (f s) = f (elapseN k s) := by
  induction k generalizing s with
  | zero => rfl
  | succ k ih => rw [elapseN_succ, h, ih, elapseN_succ]

@[simp] theorem inputAt_elapseN (k : Nat) (s : State) (j : Nat) :
    (elapseN k s).inputAt j = s.inputAt (k + j) := by
  induction k generalizing s with
  | zero => simp
  | succ k ih =>
    rw [elapseN_succ, ih, inputAt_elapse]
    congr 1
    omega

@[simp] theorem input_elapseN (k : Nat) (s : State) : (elapseN k s).input = s.inputAt k := by
  simp [input_eq_inputAt]

/-- A field that a tick's passing leaves alone is left alone by the passing of any number. -/
theorem elapseN_field {α : Type} (f : State → α) (h : ∀ s, f (elapse s) = f s) (k : Nat) (s : State) :
    f (elapseN k s) = f s := by
  induction k generalizing s with
  | zero => rfl
  | succ k ih => rw [elapseN_succ, ih, h]

section
variable (k : Nat) (s : State)

@[simp] theorem elapseN_cfg : (elapseN k s).cfg = s.cfg := elapseN_field State.cfg (fun _ => rfl) k s
@[simp] theorem elapseN_st : (elapseN k s).st = s.st := elapseN_field State.st (fun _ => rfl) k s
@[simp] theorem elapseN_dir : (elapseN k s).dir = s.dir := elapseN_field State.dir (fun _ => rfl) k s
@[simp] theorem elapseN_shreg : (elapseN k s).shreg = s.shreg := elapseN_field State.shreg (fun _ => rfl) k s
@[simp] theorem elapseN_bitcnt : (elapseN k s).bitcnt = s.bitcnt := elapseN_field State.bitcnt (fun _ => rfl) k s
@[simp] theorem elapseN_txidx : (elapseN k s).txidx = s.txidx := elapseN_field State.txidx (fun _ => rfl) k s
@[simp] theorem elapseN_rxidx : (elapseN k s).rxidx = s.rxidx := elapseN_field State.rxidx (fun _ => rfl) k s
@[simp] theorem elapseN_cnt : (elapseN k s).cnt = s.cnt := elapseN_field State.cnt (fun _ => rfl) k s
@[simp] theorem elapseN_curbit : (elapseN k s).curbit = s.curbit := elapseN_field State.curbit (fun _ => rfl) k s
@[simp] theorem elapseN_n : (elapseN k s).n = s.n := elapseN_field State.n (fun _ => rfl) k s
@[simp] theorem elapseN_m : (elapseN k s).m = s.m := elapseN_field State.m (fun _ => rfl) k s
@[simp] theorem elapseN_cbase : (elapseN k s).cbase = s.cbase := elapseN_field State.cbase (fun _ => rfl) k s
@[simp] theorem elapseN_rbase : (elapseN k s).rbase = s.rbase := elapseN_field State.rbase (fun _ => rfl) k s
@[simp] theorem elapseN_ieSaved : (elapseN k s).ieSaved = s.ieSaved := elapseN_field State.ieSaved (fun _ => rfl) k s
@[simp] theorem elapseN_ie : (elapseN k s).ie = s.ie := elapseN_field State.ie (fun _ => rfl) k s
@[simp] theorem elapseN_mem : (elapseN k s).mem = s.mem := elapseN_field State.mem (fun _ => rfl) k s
@[simp] theorem elapseN_portCmdBase : (elapseN k s).portCmdBase = s.portCmdBase :=
  elapseN_field State.portCmdBase (fun _ => rfl) k s
@[simp] theorem elapseN_portRespBase : (elapseN k s).portRespBase = s.portRespBase :=
  elapseN_field State.portRespBase (fun _ => rfl) k s
@[simp] theorem elapseN_relay : (elapseN k s).relay = s.relay := elapseN_field State.relay (fun _ => rfl) k s
@[simp] theorem elapseN_frameN : (elapseN k s).frameN = s.frameN := elapseN_field State.frameN (fun _ => rfl) k s
@[simp] theorem elapseN_frameM : (elapseN k s).frameM = s.frameM := elapseN_field State.frameM (fun _ => rfl) k s
@[simp] theorem elapseN_frameCmd : (elapseN k s).frameCmd = s.frameCmd := elapseN_field State.frameCmd (fun _ => rfl) k s
@[simp] theorem elapseN_frameResp : (elapseN k s).frameResp = s.frameResp :=
  elapseN_field State.frameResp (fun _ => rfl) k s
@[simp] theorem elapseN_frameTick : (elapseN k s).frameTick = s.frameTick :=
  elapseN_field State.frameTick (fun _ => rfl) k s
@[simp] theorem elapseN_hostOut : (elapseN k s).hostOut = s.hostOut := elapseN_field State.hostOut (fun _ => rfl) k s
@[simp] theorem elapseN_ops : (elapseN k s).ops = s.ops := elapseN_field State.ops (fun _ => rfl) k s
@[simp] theorem elapseN_sensed : (elapseN k s).sensed = s.sensed := elapseN_field State.sensed (fun _ => rfl) k s

/-- The gap runs down while ticks pass. -/
theorem elapseN_gap : (elapseN (k + 1) s).gap = s.gapLeft - (k + 1) := by
  induction k with
  | zero => rfl
  | succ k ih => rw [elapseN_succ', elapse_gap, State.gapLeft, elapseN_succ' k, elapse_done, ← elapseN_succ', ih]; simp; omega

@[simp] theorem elapseN_now : (elapseN k s).now = s.now + k := by
  induction k generalizing s with
  | zero => rfl
  | succ k ih => rw [elapseN_succ, ih, elapse_now]; omega

@[simp] theorem elapseN_env : (elapseN k s).env = s.env.drop k := by
  induction k generalizing s with
  | zero => rfl
  | succ k ih => rw [elapseN_succ, ih, elapse_env, List.drop_tail]

@[simp] theorem elapseN_hostIn : (elapseN k s).hostIn = s.hostIn ++ s.arrivals k := by
  induction k with
  | zero => simp [State.arrivals]
  | succ k ih => rw [elapseN_succ', elapse_hostIn, ih, input_elapseN, State.arrivals, List.append_assoc]

theorem elapseN_done (hk : 0 < k) : (elapseN k s).done = false := by
  obtain ⟨j, rfl⟩ : ∃ j, k = j + 1 := ⟨k - 1, by omega⟩
  rw [elapseN_succ', elapse_done]

end

/-- The passing of ticks is `Passed`. -/
theorem passed_elapseN (k : Nat) (s : State) : Passed k s (elapseN k s) := by
  constructor <;> simp

/-- The ticks passed add up. -/
theorem Passed.trans {j k : Nat} {s t u : State} (h₁ : Passed j s t) (h₂ : Passed k t u) :
    Passed (j + k) s u where
  now := by rw [h₂.now, h₁.now]; omega
  env := by rw [h₂.env, h₁.env, List.drop_drop]
  hostIn := by
    have hin : ∀ i, t.inputAt i = s.inputAt (j + i) := by
      intro i
      simp only [State.inputAt, h₁.env, h₁.now, List.getElem?_drop, Nat.add_assoc]
    have harr : ∀ i, s.arrivals (j + i) = s.arrivals j ++ t.arrivals i := by
      intro i
      induction i with
      | zero => simp [State.arrivals]
      | succ i ih => rw [← Nat.add_assoc, State.arrivals, ih, State.arrivals, hin, List.append_assoc]
    rw [h₂.hostIn, h₁.hostIn, harr, List.append_assoc]
  cfg := by rw [h₂.cfg, h₁.cfg]
  ops := by rw [h₂.ops, h₁.ops]
  sensed := by rw [h₂.sensed, h₁.sensed]

/-- What two runs leave alone, both together leave alone. -/
theorem SameOperands.trans {s t u : State} (h₁ : SameOperands s t) (h₂ : SameOperands t u) : SameOperands s u where
  n := h₂.n.trans h₁.n
  m := h₂.m.trans h₁.m
  cbase := h₂.cbase.trans h₁.cbase
  rbase := h₂.rbase.trans h₁.rbase

/-- The same of the caller. -/
theorem SameCaller.trans {s t u : State} (h₁ : SameCaller s t) (h₂ : SameCaller t u) : SameCaller s u where
  portCmdBase := h₂.portCmdBase.trans h₁.portCmdBase
  portRespBase := h₂.portRespBase.trans h₁.portRespBase
  relay := h₂.relay.trans h₁.relay
  frameN := h₂.frameN.trans h₁.frameN
  frameM := h₂.frameM.trans h₁.frameM
  frameCmd := h₂.frameCmd.trans h₁.frameCmd
  frameResp := h₂.frameResp.trans h₁.frameResp
  frameTick := h₂.frameTick.trans h₁.frameTick
  hostOut := h₂.hostOut.trans h₁.hostOut

/-- Where ticks have passed, the inputs are those of later ticks. -/
theorem Passed.inputAt {k : Nat} {s t : State} (h : Passed k s t) (j : Nat) : t.inputAt j = s.inputAt (k + j) := by
  simp only [State.inputAt, h.env, h.now, List.getElem?_drop, Nat.add_assoc]

theorem NoReset.passed {k k' : Nat} {s t : State} (h : NoReset s (k + k')) (hp : Passed k s t) : NoReset t k' :=
  fun j hj => by rw [hp.inputAt]; exact h _ (by omega)

/-- What the transport delivers depends on the schedule and the tick number only. -/
theorem arrivals_congr {s t : State} (he : t.env = s.env) (hn : t.now = s.now) (k : Nat) :
    t.arrivals k = s.arrivals k := by
  induction k with
  | zero => rfl
  | succ k ih => rw [State.arrivals, ih, inputAt_congr he hn, State.arrivals]

/-- The ticks after a start that leaves alone what `Passed` speaks of follow the tick it is presented in. -/
theorem Passed.start {s a t : State} {k : Nat} (h : Passed k a t) (henv : a.env = s.env.tail)
    (hnow : a.now = s.now + 1) (hin : a.hostIn = s.hostIn ++ s.input.rx) (hcfg : a.cfg = s.cfg)
    (hops : a.ops = s.ops) (hsen : a.sensed = s.sensed) : Passed (1 + k) s t := by
  refine Passed.trans (t := elapse s) (passed_elapseN 1 s) ⟨h.now.trans ?_, h.env.trans ?_, h.hostIn.trans ?_,
    h.cfg.trans hcfg, h.ops.trans hops, h.sensed.trans hsen⟩
  · rw [hnow]; rfl
  · rw [henv]; rfl
  · rw [hin, arrivals_congr (s := elapse s) henv hnow]; rfl

/-! ### Ticks -/

@[simp] theorem ticks_zero (s : State) : ticks 0 s = s := rfl

theorem ticks_succ (k : Nat) (s : State) : ticks (k + 1) s = ticks k (tick s) := rfl

theorem ticks_add (j k : Nat) (s : State) : ticks (j + k) s = ticks k (ticks j s) := by
  induction j generalizing s with
  | zero => simp
  | succ j ih => rw [Nat.succ_add, ticks_succ, ih, ticks_succ]

theorem ticks_succ' (k : Nat) (s : State) : ticks (k + 1) s = tick (ticks k s) := by
  rw [ticks_add]; rfl

/-- A tick with `rst = 1` (R175). -/
theorem tick_of_rst {s : State} (h : s.input.rst = true) : tick s = resetStep s := by simp [tick, h]

/-- A tick with `rst = 0`. -/
theorem tick_of_noRst {s : State} (h : s.input.rst = false) :
    tick s = tickCase s.input.act (s.gapLeft == 0) s.line (elapse s) := by simp [tick, h]

section
variable {s : State} (h : s.input.rst = false)
include h

theorem tick_idle (hs : s.st = .idle) : tick s = tickIdle s.input.act (s.gapLeft == 0) (elapse s) := by
  simp [tick_of_noRst h, tickCase, hs]
theorem tick_arm (hs : s.st = .arm) : tick s = nextSymbol (elapse s) := by
  simp [tick_of_noRst h, tickCase, hs]
theorem tick_txLow (hs : s.st = .txLow) : tick s = tickTxLow (elapse s) := by
  simp [tick_of_noRst h, tickCase, hs]
theorem tick_txHigh (hs : s.st = .txHigh) : tick s = tickTxHigh (elapse s) := by
  simp [tick_of_noRst h, tickCase, hs]
theorem tick_stopLow (hs : s.st = .stopLow) : tick s = tickStopLow (elapse s) := by
  simp [tick_of_noRst h, tickCase, hs]
theorem tick_stopHigh (hs : s.st = .stopHigh) : tick s = tickStopHigh (elapse s) := by
  simp [tick_of_noRst h, tickCase, hs]
theorem tick_rxWaitHigh (hs : s.st = .rxWaitHigh) : tick s = tickWaitHigh s.line (elapse s) := by
  simp [tick_of_noRst h, tickCase, hs]
theorem tick_rxWaitLow (hs : s.st = .rxWaitLow) : tick s = tickWaitLow s.line (elapse s) := by
  simp [tick_of_noRst h, tickCase, hs]
theorem tick_rxDelay (hs : s.st = .rxDelay) : tick s = tickDelay s.line (elapse s) := by
  simp [tick_of_noRst h, tickCase, hs]

end

/-! ### Runs -/

/-- Without a reset, running until a cut is running all the ticks. -/
theorem runUntil_cut {s : State} {k : Nat} (h : ∀ j < k, (ticks j s).input.rst = false) :
    runUntil untilCut k s = ticks k s := by
  induction k generalizing s with
  | zero => rfl
  | succ k ih =>
    have h0 : s.input.rst = false := h 0 (by omega)
    simp only [runUntil, h0, untilCut, Bool.or_self, Bool.false_eq_true, if_false, ticks_succ]
    exact ih fun j hj => by simpa [ticks_succ] using h (j + 1) (by omega)

/-- A run whose end condition first holds after `j` ticks ends one tick later. -/
theorem runUntil_ends {last : State → Bool} {s : State} {j k : Nat} (hjk : j < k)
    (hrst : ∀ i < j, (ticks i s).input.rst = false) (hgo : ∀ i < j, last (ticks i s) = false)
    (hend : last (ticks j s) = true) : runUntil last k s = ticks (j + 1) s := by
  induction j generalizing s k with
  | zero =>
    obtain ⟨k, rfl⟩ : ∃ i, k = i + 1 := ⟨k - 1, by omega⟩
    have : last s = true := hend
    simp [runUntil, this, ticks_succ]
  | succ j ih =>
    obtain ⟨k, rfl⟩ : ∃ i, k = i + 1 := ⟨k - 1, by omega⟩
    have h0 : s.input.rst = false := hrst 0 (by omega)
    have h1 : last s = false := hgo 0 (by omega)
    simp only [runUntil, h0, h1, Bool.or_self, Bool.false_eq_true, if_false, ticks_succ]
    exact ih (by omega) (fun i hi => by simpa [ticks_succ] using hrst (i + 1) (by omega))
      (fun i hi => by simpa [ticks_succ] using hgo (i + 1) (by omega)) (by simpa [ticks_succ] using hend)

/-- While the block is busy, its run is its ticks; once idle it stays where it is. -/
theorem runBusy_eq {s : State} {j k : Nat} (hjk : j ≤ k) (hgo : ∀ i < j, (ticks i s).busy = true)
    (hend : (ticks j s).busy = false) : runBusy k s = ticks j s := by
  induction j generalizing s k with
  | zero =>
    have : s.busy = false := hend
    cases k <;> simp [runBusy, this]
  | succ j ih =>
    obtain ⟨k, rfl⟩ : ∃ i, k = i + 1 := ⟨k - 1, by omega⟩
    have h0 : s.busy = true := hgo 0 (by omega)
    simp only [runBusy, h0, if_true, ticks_succ]
    exact ih (by omega) (fun i hi => by simpa [ticks_succ] using hgo (i + 1) (by omega))
      (by simpa [ticks_succ] using hend)

/-- While the relay waits for command bytes, its run is its ticks; once it waits no more it stays where it is. -/
theorem runRelayWait_eq {s : State} {j k : Nat} (hjk : j ≤ k) (hgo : ∀ i < j, (ticks i s).relay = .waitCommand)
    (hend : (ticks j s).relay ≠ .waitCommand) : runRelayWait k s = ticks j s := by
  induction j generalizing s k with
  | zero =>
    have : s.relay ≠ .waitCommand := hend
    cases k <;> simp [runRelayWait, frameRead, this]
  | succ j ih =>
    obtain ⟨k, rfl⟩ : ∃ i, k = i + 1 := ⟨k - 1, by omega⟩
    have h0 : s.relay = .waitCommand := hgo 0 (by omega)
    simp only [runRelayWait, frameRead, h0, bne_self_eq_false, Bool.false_eq_true, if_false, ticks_succ]
    exact ih (by omega) (fun i hi => by simpa [ticks_succ] using hgo (i + 1) (by omega))
      (by simpa [ticks_succ] using hend)

/-! ### The clock of a run -/

/-- Every tick uses up one tick's inputs (R11). -/
theorem tick_clock (s : State) : (tick s).env = s.env.tail ∧ (tick s).now = s.now + 1 := by
  have ns : ∀ u : State, (nextSymbol u).env = u.env ∧ (nextSymbol u).now = u.now := by
    intro u; unfold nextSymbol; split; exact ⟨rfl, rfl⟩; split <;> exact ⟨rfl, rfl⟩
  have as : ∀ u : State, (afterStop u).env = u.env ∧ (afterStop u).now = u.now := by
    intro u; unfold afterStop; split <;> exact ⟨rfl, rfl⟩
  have nb : ∀ u : State, (nextByte u).env = u.env ∧ (nextByte u).now = u.now := by
    intro u; unfold nextByte; split <;> exact ⟨rfl, rfl⟩
  have rp : ∀ u : State, (relayPoll u).env = u.env ∧ (relayPoll u).now = u.now := by
    intro u; obtain ⟨m, h, r, e⟩ := exists_relayPoll u; rw [e]; exact ⟨rfl, rfl⟩
  have rw' : ∀ u : State, (relayWait u).env = u.env ∧ (relayWait u).now = u.now := by
    intro u; obtain ⟨m, h, r, e⟩ := exists_relayWait u; rw [e]; exact ⟨rfl, rfl⟩
  by_cases hr : s.input.rst = true
  · rw [tick_of_rst hr]; exact ⟨rfl, rfl⟩
  · rw [tick_of_noRst (by simpa using hr)]
    have h1 : (elapse s).env = s.env.tail ∧ (elapse s).now = s.now + 1 := ⟨rfl, rfl⟩
    rw [← h1.1, ← h1.2]
    generalize elapse s = u
    unfold tickCase; split
    · unfold tickIdle; split <;> try exact ⟨rfl, rfl⟩
      · exact rw' _
      · unfold relayAct; split
        · split
          · exact rp _
          · exact ⟨rfl, rfl⟩
        · exact rp _
        · split <;> exact ⟨rfl, rfl⟩
        · exact ⟨rfl, rfl⟩
    · exact ns u
    · unfold tickTxLow; split <;> exact ⟨rfl, rfl⟩
    · unfold tickTxHigh; split; exact ⟨rfl, rfl⟩; exact ns u
    · unfold tickStopLow; split; exact ⟨rfl, rfl⟩; split; exact ⟨rfl, rfl⟩; exact as _
    · unfold tickStopHigh; split; exact ⟨rfl, rfl⟩; exact as _
    · unfold tickWaitHigh; split; exact ⟨rfl, rfl⟩; split; exact nb _; exact ⟨rfl, rfl⟩
    · unfold tickWaitLow; split; exact ⟨rfl, rfl⟩; split; exact nb _; exact ⟨rfl, rfl⟩
    · unfold tickDelay; split; exact ⟨rfl, rfl⟩; unfold sampleBit; split; exact nb _; exact ⟨rfl, rfl⟩

theorem ticks_clock (k : Nat) (s : State) : (ticks k s).env = s.env.drop k ∧ (ticks k s).now = s.now + k := by
  induction k generalizing s with
  | zero => exact ⟨rfl, rfl⟩
  | succ k ih =>
    obtain ⟨a, b⟩ := ih (tick s)
    obtain ⟨c, d⟩ := tick_clock s
    rw [ticks_succ, a, b, c, d, List.drop_tail]
    exact ⟨rfl, by omega⟩

/-- After any ticks the inputs are those of later ticks. -/
theorem inputAt_ticks (k : Nat) (s : State) (j : Nat) : (ticks k s).inputAt j = s.inputAt (k + j) := by
  obtain ⟨a, b⟩ := ticks_clock k s
  simp only [State.inputAt, a, b, List.getElem?_drop, Nat.add_assoc]

theorem NoReset.ticks {s : State} {k k' : Nat} (h : NoReset s (k + k')) : NoReset (ticks k s) k' := by
  intro j hj
  rw [inputAt_ticks]
  exact h _ (by omega)

/-- A start that leaves the clock alone sees the inputs of the tick after the one it is presented in. -/
theorem NoReset.start {f : State → State} {s : State} {k : Nat} (hf : ∀ s, (f s).env = s.env ∧ (f s).now = s.now)
    (h : NoReset s (k + 1)) : NoReset (f (elapse s)) k := by
  intro j hj
  rw [inputAt_congr (hf _).1 (hf _).2, inputAt_elapse]
  exact h _ (by omega)

/-- Without a reset, an operation of exactly `k` ticks is its start and `k` ticks. -/
theorem presentFor_cut {f : State → State} {s : State} {k : Nat} (hf : ∀ s, (f s).env = s.env ∧ (f s).now = s.now)
    (h : NoReset s (k + 1)) : presentFor f untilCut k s = ticks k (f (elapse s)) := by
  rw [presentFor, if_neg (by rw [h.head]; simp), runUntil_cut]
  intro j hj
  rw [input_eq_inputAt, inputAt_ticks]
  exact h.start hf _ (by omega)

/-- Without a reset, an operation whose end condition first holds after `j` ticks is its start and `j+1` ticks. -/
theorem presentFor_ends {f : State → State} {last : State → Bool} {s : State} {j k : Nat}
    (hf : ∀ s, (f s).env = s.env ∧ (f s).now = s.now) (hjk : j < k) (h : NoReset s (j + 1))
    (hgo : ∀ i < j, last (ticks i (f (elapse s))) = false) (hend : last (ticks j (f (elapse s))) = true) :
    presentFor f last k s = ticks (j + 1) (f (elapse s)) := by
  rw [presentFor, if_neg (by rw [h.head]; simp), runUntil_ends hjk _ hgo hend]
  intro i hi
  rw [input_eq_inputAt, inputAt_ticks]
  exact h.start hf _ (by omega)

end Sys2Proof.Machine
end

