-- ==== Sys2Proof/Laws/PerInstr.lean ====
section
/-! SUPPORT. A statement about every operation as syntax, one lemma a constructor. -/

namespace Sys2Proof.Laws.Format

/-- The image of an operation has the length of the format its row gives it (R70, R84); a dropped frame's is empty
(R146). -/
def Statement (i : Instr) : Prop := (encode i).image.length = (encode i).site.chars

theorem driveLow : Statement .driveLow := rfl
theorem release : Statement .release := rfl
theorem sense (p : Bool) : Statement (.sense p) := rfl
theorem tx0 : Statement .tx0 := rfl
theorem tx1 : Statement .tx1 := rfl
theorem txstop : Statement .txstop := rfl
theorem waitHigh : Statement .waitHigh := rfl
theorem waitLow : Statement .waitLow := rfl
theorem rxbit (d : Bool) : Statement (.rxbit d) := rfl
theorem txbyte (v : Byte) : Statement (.txbyte v) := rfl
theorem rxbyte (v : Byte) : Statement (.rxbyte v) := rfl
theorem injectHi : Statement .injectHi := rfl
theorem injectLo : Statement .injectLo := rfl
theorem irqEnter : Statement .irqEnter := rfl
theorem irqExit (s : Bool) : Statement (.irqExit s) := rfl
theorem transact (n m : Byte) : Statement (.transact n m) := rfl
theorem relayFrame (n m : Byte) : Statement (.relayFrame n m) := rfl
theorem relayReply (v : Byte) : Statement (.relayReply v) := rfl
theorem relayDrop : Statement .relayDrop := rfl

end Sys2Proof.Laws.Format
end

