-- ==== Sys2Proof/Laws/Updates.lean ====
section
/-! SUPPORT. For the updates that statements are written with, what each field is after them (true by rfl), and that they
commute with the passing of ticks. -/

namespace Sys2Proof.Machine

section
variable (s : State) (c : Nat)
@[simp] theorem withCnt_cfg : (s.withCnt c).cfg = s.cfg := rfl
@[simp] theorem withCnt_st : (s.withCnt c).st = s.st := rfl
@[simp] theorem withCnt_dir : (s.withCnt c).dir = s.dir := rfl
@[simp] theorem withCnt_done : (s.withCnt c).done = s.done := rfl
@[simp] theorem withCnt_shreg : (s.withCnt c).shreg = s.shreg := rfl
@[simp] theorem withCnt_bitcnt : (s.withCnt c).bitcnt = s.bitcnt := rfl
@[simp] theorem withCnt_txidx : (s.withCnt c).txidx = s.txidx := rfl
@[simp] theorem withCnt_rxidx : (s.withCnt c).rxidx = s.rxidx := rfl
@[simp] theorem withCnt_cnt : (s.withCnt c).cnt = c := rfl
@[simp] theorem withCnt_curbit : (s.withCnt c).curbit = s.curbit := rfl
@[simp] theorem withCnt_n : (s.withCnt c).n = s.n := rfl
@[simp] theorem withCnt_m : (s.withCnt c).m = s.m := rfl
@[simp] theorem withCnt_cbase : (s.withCnt c).cbase = s.cbase := rfl
@[simp] theorem withCnt_rbase : (s.withCnt c).rbase = s.rbase := rfl
@[simp] theorem withCnt_ieSaved : (s.withCnt c).ieSaved = s.ieSaved := rfl
@[simp] theorem withCnt_ie : (s.withCnt c).ie = s.ie := rfl
@[simp] theorem withCnt_mem : (s.withCnt c).mem = s.mem := rfl
@[simp] theorem withCnt_portCmdBase : (s.withCnt c).portCmdBase = s.portCmdBase := rfl
@[simp] theorem withCnt_portRespBase : (s.withCnt c).portRespBase = s.portRespBase := rfl
@[simp] theorem withCnt_relay : (s.withCnt c).relay = s.relay := rfl
@[simp] theorem withCnt_frameN : (s.withCnt c).frameN = s.frameN := rfl
@[simp] theorem withCnt_frameM : (s.withCnt c).frameM = s.frameM := rfl
@[simp] theorem withCnt_frameCmd : (s.withCnt c).frameCmd = s.frameCmd := rfl
@[simp] theorem withCnt_frameResp : (s.withCnt c).frameResp = s.frameResp := rfl
@[simp] theorem withCnt_frameTick : (s.withCnt c).frameTick = s.frameTick := rfl
@[simp] theorem withCnt_hostIn : (s.withCnt c).hostIn = s.hostIn := rfl
@[simp] theorem withCnt_hostOut : (s.withCnt c).hostOut = s.hostOut := rfl
@[simp] theorem withCnt_gap : (s.withCnt c).gap = s.gap := rfl
@[simp] theorem withCnt_now : (s.withCnt c).now = s.now := rfl
@[simp] theorem withCnt_env : (s.withCnt c).env = s.env := rfl
@[simp] theorem withCnt_ops : (s.withCnt c).ops = s.ops := rfl
@[simp] theorem withCnt_sensed : (s.withCnt c).sensed = s.sensed := rfl
@[simp] theorem elapse_withCnt : elapse (s.withCnt c) = (elapse s).withCnt c := rfl
@[simp] theorem withCnt_inputAt (j : Nat) : (s.withCnt c).inputAt j = s.inputAt j := rfl
@[simp] theorem withCnt_input : (s.withCnt c).input = s.input := rfl
@[simp] theorem withCnt_t : (s.withCnt c).t = s.t := rfl
@[simp] theorem withCnt_period : (s.withCnt c).period = s.period := rfl
@[simp] theorem withCnt_sampleDelay : (s.withCnt c).sampleDelay = s.sampleDelay := rfl
@[simp] theorem withCnt_low (b : Bool) : (s.withCnt c).low b = s.low b := rfl
end

section
variable (s : State) (st : SeqState) (d : Dir) (c : Nat)
@[simp] theorem inPhase_cfg : (s.inPhase st d c).cfg = s.cfg := rfl
@[simp] theorem inPhase_st : (s.inPhase st d c).st = st := rfl
@[simp] theorem inPhase_dir : (s.inPhase st d c).dir = d := rfl
@[simp] theorem inPhase_done : (s.inPhase st d c).done = s.done := rfl
@[simp] theorem inPhase_shreg : (s.inPhase st d c).shreg = s.shreg := rfl
@[simp] theorem inPhase_bitcnt : (s.inPhase st d c).bitcnt = s.bitcnt := rfl
@[simp] theorem inPhase_txidx : (s.inPhase st d c).txidx = s.txidx := rfl
@[simp] theorem inPhase_rxidx : (s.inPhase st d c).rxidx = s.rxidx := rfl
@[simp] theorem inPhase_cnt : (s.inPhase st d c).cnt = c := rfl
@[simp] theorem inPhase_curbit : (s.inPhase st d c).curbit = s.curbit := rfl
@[simp] theorem inPhase_n : (s.inPhase st d c).n = s.n := rfl
@[simp] theorem inPhase_m : (s.inPhase st d c).m = s.m := rfl
@[simp] theorem inPhase_cbase : (s.inPhase st d c).cbase = s.cbase := rfl
@[simp] theorem inPhase_rbase : (s.inPhase st d c).rbase = s.rbase := rfl
@[simp] theorem inPhase_ieSaved : (s.inPhase st d c).ieSaved = s.ieSaved := rfl
@[simp] theorem inPhase_ie : (s.inPhase st d c).ie = s.ie := rfl
@[simp] theorem inPhase_mem : (s.inPhase st d c).mem = s.mem := rfl
@[simp] theorem inPhase_portCmdBase : (s.inPhase st d c).portCmdBase = s.portCmdBase := rfl
@[simp] theorem inPhase_portRespBase : (s.inPhase st d c).portRespBase = s.portRespBase := rfl
@[simp] theorem inPhase_relay : (s.inPhase st d c).relay = s.relay := rfl
@[simp] theorem inPhase_frameN : (s.inPhase st d c).frameN = s.frameN := rfl
@[simp] theorem inPhase_frameM : (s.inPhase st d c).frameM = s.frameM := rfl
@[simp] theorem inPhase_frameCmd : (s.inPhase st d c).frameCmd = s.frameCmd := rfl
@[simp] theorem inPhase_frameResp : (s.inPhase st d c).frameResp = s.frameResp := rfl
@[simp] theorem inPhase_frameTick : (s.inPhase st d c).frameTick = s.frameTick := rfl
@[simp] theorem inPhase_hostIn : (s.inPhase st d c).hostIn = s.hostIn := rfl
@[simp] theorem inPhase_hostOut : (s.inPhase st d c).hostOut = s.hostOut := rfl
@[simp] theorem inPhase_gap : (s.inPhase st d c).gap = s.gap := rfl
@[simp] theorem inPhase_now : (s.inPhase st d c).now = s.now := rfl
@[simp] theorem inPhase_env : (s.inPhase st d c).env = s.env := rfl
@[simp] theorem inPhase_ops : (s.inPhase st d c).ops = s.ops := rfl
@[simp] theorem inPhase_sensed : (s.inPhase st d c).sensed = s.sensed := rfl
@[simp] theorem elapse_inPhase : elapse (s.inPhase st d c) = (elapse s).inPhase st d c := rfl
@[simp] theorem inPhase_inputAt (j : Nat) : (s.inPhase st d c).inputAt j = s.inputAt j := rfl
@[simp] theorem inPhase_input : (s.inPhase st d c).input = s.input := rfl
@[simp] theorem inPhase_t : (s.inPhase st d c).t = s.t := rfl
@[simp] theorem inPhase_period : (s.inPhase st d c).period = s.period := rfl
@[simp] theorem inPhase_sampleDelay : (s.inPhase st d c).sampleDelay = s.sampleDelay := rfl
@[simp] theorem inPhase_low (b : Bool) : (s.inPhase st d c).low b = s.low b := rfl
end

section
variable (s : State) (sh : Byte) (bc : BitVec 4) (cb : Bool)
@[simp] theorem withBits_cfg : (s.withBits sh bc cb).cfg = s.cfg := rfl
@[simp] theorem withBits_st : (s.withBits sh bc cb).st = s.st := rfl
@[simp] theorem withBits_dir : (s.withBits sh bc cb).dir = s.dir := rfl
@[simp] theorem withBits_done : (s.withBits sh bc cb).done = s.done := rfl
@[simp] theorem withBits_shreg : (s.withBits sh bc cb).shreg = sh := rfl
@[simp] theorem withBits_bitcnt : (s.withBits sh bc cb).bitcnt = bc := rfl
@[simp] theorem withBits_txidx : (s.withBits sh bc cb).txidx = s.txidx := rfl
@[simp] theorem withBits_rxidx : (s.withBits sh bc cb).rxidx = s.rxidx := rfl
@[simp] theorem withBits_cnt : (s.withBits sh bc cb).cnt = s.cnt := rfl
@[simp] theorem withBits_curbit : (s.withBits sh bc cb).curbit = cb := rfl
@[simp] theorem withBits_n : (s.withBits sh bc cb).n = s.n := rfl
@[simp] theorem withBits_m : (s.withBits sh bc cb).m = s.m := rfl
@[simp] theorem withBits_cbase : (s.withBits sh bc cb).cbase = s.cbase := rfl
@[simp] theorem withBits_rbase : (s.withBits sh bc cb).rbase = s.rbase := rfl
@[simp] theorem withBits_ieSaved : (s.withBits sh bc cb).ieSaved = s.ieSaved := rfl
@[simp] theorem withBits_ie : (s.withBits sh bc cb).ie = s.ie := rfl
@[simp] theorem withBits_mem : (s.withBits sh bc cb).mem = s.mem := rfl
@[simp] theorem withBits_portCmdBase : (s.withBits sh bc cb).portCmdBase = s.portCmdBase := rfl
@[simp] theorem withBits_portRespBase : (s.withBits sh bc cb).portRespBase = s.portRespBase := rfl
@[simp] theorem withBits_relay : (s.withBits sh bc cb).relay = s.relay := rfl
@[simp] theorem withBits_frameN : (s.withBits sh bc cb).frameN = s.frameN := rfl
@[simp] theorem withBits_frameM : (s.withBits sh bc cb).frameM = s.frameM := rfl
@[simp] theorem withBits_frameCmd : (s.withBits sh bc cb).frameCmd = s.frameCmd := rfl
@[simp] theorem withBits_frameResp : (s.withBits sh bc cb).frameResp = s.frameResp := rfl
@[simp] theorem withBits_frameTick : (s.withBits sh bc cb).frameTick = s.frameTick := rfl
@[simp] theorem withBits_hostIn : (s.withBits sh bc cb).hostIn = s.hostIn := rfl
@[simp] theorem withBits_hostOut : (s.withBits sh bc cb).hostOut = s.hostOut := rfl
@[simp] theorem withBits_gap : (s.withBits sh bc cb).gap = s.gap := rfl
@[simp] theorem withBits_now : (s.withBits sh bc cb).now = s.now := rfl
@[simp] theorem withBits_env : (s.withBits sh bc cb).env = s.env := rfl
@[simp] theorem withBits_ops : (s.withBits sh bc cb).ops = s.ops := rfl
@[simp] theorem withBits_sensed : (s.withBits sh bc cb).sensed = s.sensed := rfl
@[simp] theorem elapse_withBits : elapse (s.withBits sh bc cb) = (elapse s).withBits sh bc cb := rfl
@[simp] theorem withBits_inputAt (j : Nat) : (s.withBits sh bc cb).inputAt j = s.inputAt j := rfl
@[simp] theorem withBits_input : (s.withBits sh bc cb).input = s.input := rfl
@[simp] theorem withBits_t : (s.withBits sh bc cb).t = s.t := rfl
@[simp] theorem withBits_period : (s.withBits sh bc cb).period = s.period := rfl
@[simp] theorem withBits_sampleDelay : (s.withBits sh bc cb).sampleDelay = s.sampleDelay := rfl
@[simp] theorem withBits_low (b : Bool) : (s.withBits sh bc cb).low b = s.low b := rfl
end

section
variable (s : State) (i : Byte)
@[simp] theorem withTxidx_cfg : (s.withTxidx i).cfg = s.cfg := rfl
@[simp] theorem withTxidx_st : (s.withTxidx i).st = s.st := rfl
@[simp] theorem withTxidx_dir : (s.withTxidx i).dir = s.dir := rfl
@[simp] theorem withTxidx_done : (s.withTxidx i).done = s.done := rfl
@[simp] theorem withTxidx_shreg : (s.withTxidx i).shreg = s.shreg := rfl
@[simp] theorem withTxidx_bitcnt : (s.withTxidx i).bitcnt = s.bitcnt := rfl
@[simp] theorem withTxidx_txidx : (s.withTxidx i).txidx = i := rfl
@[simp] theorem withTxidx_rxidx : (s.withTxidx i).rxidx = s.rxidx := rfl
@[simp] theorem withTxidx_cnt : (s.withTxidx i).cnt = s.cnt := rfl
@[simp] theorem withTxidx_curbit : (s.withTxidx i).curbit = s.curbit := rfl
@[simp] theorem withTxidx_n : (s.withTxidx i).n = s.n := rfl
@[simp] theorem withTxidx_m : (s.withTxidx i).m = s.m := rfl
@[simp] theorem withTxidx_cbase : (s.withTxidx i).cbase = s.cbase := rfl
@[simp] theorem withTxidx_rbase : (s.withTxidx i).rbase = s.rbase := rfl
@[simp] theorem withTxidx_ieSaved : (s.withTxidx i).ieSaved = s.ieSaved := rfl
@[simp] theorem withTxidx_ie : (s.withTxidx i).ie = s.ie := rfl
@[simp] theorem withTxidx_mem : (s.withTxidx i).mem = s.mem := rfl
@[simp] theorem withTxidx_portCmdBase : (s.withTxidx i).portCmdBase = s.portCmdBase := rfl
@[simp] theorem withTxidx_portRespBase : (s.withTxidx i).portRespBase = s.portRespBase := rfl
@[simp] theorem withTxidx_relay : (s.withTxidx i).relay = s.relay := rfl
@[simp] theorem withTxidx_frameN : (s.withTxidx i).frameN = s.frameN := rfl
@[simp] theorem withTxidx_frameM : (s.withTxidx i).frameM = s.frameM := rfl
@[simp] theorem withTxidx_frameCmd : (s.withTxidx i).frameCmd = s.frameCmd := rfl
@[simp] theorem withTxidx_frameResp : (s.withTxidx i).frameResp = s.frameResp := rfl
@[simp] theorem withTxidx_frameTick : (s.withTxidx i).frameTick = s.frameTick := rfl
@[simp] theorem withTxidx_hostIn : (s.withTxidx i).hostIn = s.hostIn := rfl
@[simp] theorem withTxidx_hostOut : (s.withTxidx i).hostOut = s.hostOut := rfl
@[simp] theorem withTxidx_gap : (s.withTxidx i).gap = s.gap := rfl
@[simp] theorem withTxidx_now : (s.withTxidx i).now = s.now := rfl
@[simp] theorem withTxidx_env : (s.withTxidx i).env = s.env := rfl
@[simp] theorem withTxidx_ops : (s.withTxidx i).ops = s.ops := rfl
@[simp] theorem withTxidx_sensed : (s.withTxidx i).sensed = s.sensed := rfl
@[simp] theorem elapse_withTxidx : elapse (s.withTxidx i) = (elapse s).withTxidx i := rfl
@[simp] theorem withTxidx_inputAt (j : Nat) : (s.withTxidx i).inputAt j = s.inputAt j := rfl
@[simp] theorem withTxidx_input : (s.withTxidx i).input = s.input := rfl
@[simp] theorem withTxidx_t : (s.withTxidx i).t = s.t := rfl
@[simp] theorem withTxidx_period : (s.withTxidx i).period = s.period := rfl
@[simp] theorem withTxidx_sampleDelay : (s.withTxidx i).sampleDelay = s.sampleDelay := rfl
@[simp] theorem withTxidx_low (b : Bool) : (s.withTxidx i).low b = s.low b := rfl
end

end Sys2Proof.Machine
end

