-- ==== Sys2Proof/Laws/Tick.lean ====
section
/-! SUPPORT. The `Step` of each place of R125 as an equation in the state before the tick: together with `tick_idle` to
`tick_rxDelay` (Laws/Clock.lean), all that a tick without a reset can do. -/

namespace Sys2Proof.Machine

variable (s : State) (pin : Bool)

/-- `TX_LOW` (R125). -/
theorem tickTxLow_elapse :
    tickTxLow (elapse s) = if 1 < s.cnt then countDown (elapse s) else endLow (elapse s) := rfl

/-- `TX_HIGH` (R125). -/
theorem tickTxHigh_elapse :
    tickTxHigh (elapse s) = if 1 < s.cnt then countDown (elapse s) else nextSymbol (elapse s) := rfl

/-- `STOP_LOW` (R125). -/
theorem tickStopLow_elapse :
    tickStopLow (elapse s) =
      if 1 < s.cnt then countDown (elapse s)
      else if 0 < s.cfg.stopTail then (elapse s).inPhase .stopHigh .input s.cfg.stopTail
      else afterStop (releaseLine (elapse s)) := rfl

/-- `STOP_HIGH` (R125). -/
theorem tickStopHigh_elapse :
    tickStopHigh (elapse s) = if 1 < s.cnt then countDown (elapse s) else afterStop (elapse s) := rfl

/-- `RX_WAIT_HIGH` (R111). -/
theorem tickWaitHigh_elapse :
    tickWaitHigh pin (elapse s) =
      if pin then startWaitLow (elapse s)
      else if s.cfg.pollCap ≤ s.cnt + 1 then timeoutHigh (elapse s)
      else (elapse s).withCnt (s.cnt + 1) := by
  show (if pin then startWaitLow (elapse s) else if s.lastPoll then timeoutHigh (elapse s) else (elapse s).withCnt (s.cnt + 1)) = _
  by_cases h : s.cfg.pollCap ≤ s.cnt + 1 <;> simp [State.lastPoll, h]

/-- `RX_WAIT_LOW` (R112). -/
theorem tickWaitLow_elapse :
    tickWaitLow pin (elapse s) =
      if !pin then startDelay (elapse s)
      else if s.cfg.pollCap ≤ s.cnt + 1 then timeoutLow (elapse s)
      else (elapse s).withCnt (s.cnt + 1) := by
  show (if !pin then startDelay (elapse s) else if s.lastPoll then timeoutLow (elapse s) else (elapse s).withCnt (s.cnt + 1)) = _
  by_cases h : s.cfg.pollCap ≤ s.cnt + 1 <;> simp [State.lastPoll, h]

/-- `RX_DELAY` (R113). -/
theorem tickDelay_elapse :
    tickDelay pin (elapse s) =
      if 1 < s.cnt then countDown (elapse s)
      else if s.bitcnt = 7 then nextByte (store (shiftIn s.shreg pin) (elapse s))
      else startWaitHigh ((elapse s).withBits (shiftIn s.shreg pin) (s.bitcnt + 1) s.curbit) := rfl

end Sys2Proof.Machine
end

