-- ==== Sys2Proof/Laws/Transmit.lean ====
section
/-! SUPPORT. What the transmit phase does, phase by phase, in closed form: counting down, a symbol, a byte, the
stop bit, a whole command. -/

namespace Sys2Proof.Machine

/-- `T` is at least 1 (R9). -/
theorem State.one_le_t (s : State) : 1 ≤ s.t := by
  have h := s.cfg.ok
  simp only [Params.wf, Params.clockOk, Bool.and_eq_true, decide_eq_true_eq] at h
  obtain ⟨⟨⟨⟨⟨hpos, hmod⟩, -⟩, -⟩, -⟩, -⟩ := h
  show 1 ≤ s.cfg.fClkHz / 1000000
  omega

/-- `POLL_CAP` is at least 1 (R9). -/
theorem State.one_le_pollCap (s : State) : 1 ≤ s.cfg.pollCap := by
  have h := s.cfg.ok
  simp only [Params.wf, Params.pollCapOk, Bool.and_eq_true, decide_eq_true_eq] at h
  exact h.1.1.1.2

theorem State.one_le_low (s : State) (b : Bool) : 1 ≤ s.low b := by
  have := s.one_le_t
  cases b <;> simp [State.low] <;> omega

theorem State.low_lt_period (s : State) (b : Bool) : s.low b < s.period := by
  have := s.one_le_t
  cases b <;> simp [State.low, State.period] <;> omega

/-! ### Constants of the configuration are those of any later state -/

@[simp] theorem elapseN_t (k : Nat) (s : State) : (elapseN k s).t = s.t := by simp [State.t]
@[simp] theorem elapseN_low (k : Nat) (s : State) (b : Bool) : (elapseN k s).low b = s.low b := by simp [State.low]
@[simp] theorem elapseN_period (k : Nat) (s : State) : (elapseN k s).period = s.period := by simp [State.period]
@[simp] theorem elapseN_sampleDelay (k : Nat) (s : State) : (elapseN k s).sampleDelay = s.sampleDelay := by
  simp [State.sampleDelay]
@[simp] theorem elapseN_wrap (k : Nat) (s : State) (a : Nat) : (elapseN k s).wrap a = s.wrap a := by simp [State.wrap]
@[simp] theorem elapseN_cmdAddr (k : Nat) (s : State) (i : Nat) : (elapseN k s).cmdAddr i = s.cmdAddr i := by
  simp [State.cmdAddr]
@[simp] theorem elapseN_respAddr (k : Nat) (s : State) (i : Nat) : (elapseN k s).respAddr i = s.respAddr i := by
  simp [State.respAddr]
@[simp] theorem elapseN_bitTicks (k : Nat) (s : State) : (elapseN k s).bitTicks = s.bitTicks := by
  simp [State.bitTicks]

/-! ### The updates commute with the passing of ticks -/

theorem elapseN_withCnt (k : Nat) (s : State) (c : Nat) : elapseN k (s.withCnt c) = (elapseN k s).withCnt c :=
  elapseN_comm (f := fun u => u.withCnt c) (fun _ => rfl) k s
theorem elapseN_inPhase (k : Nat) (s : State) (st : SeqState) (d : Dir) (c : Nat) :
    elapseN k (s.inPhase st d c) = (elapseN k s).inPhase st d c :=
  elapseN_comm (f := fun u => u.inPhase st d c) (fun _ => rfl) k s
theorem elapseN_withBits (k : Nat) (s : State) (sh : Byte) (bc : BitVec 4) (cb : Bool) :
    elapseN k (s.withBits sh bc cb) = (elapseN k s).withBits sh bc cb :=
  elapseN_comm (f := fun u => u.withBits sh bc cb) (fun _ => rfl) k s
theorem elapseN_withTxidx (k : Nat) (s : State) (i : Byte) : elapseN k (s.withTxidx i) = (elapseN k s).withTxidx i :=
  elapseN_comm (f := fun u => u.withTxidx i) (fun _ => rfl) k s
theorem elapseN_startSymbol (k : Nat) (b : Bool) (s : State) :
    elapseN k (startSymbol b s) = startSymbol b (elapseN k s) := elapseN_comm (f := startSymbol b) (fun _ => rfl) k s
theorem elapseN_startBit (k : Nat) (s : State) : elapseN k (startBit s) = startBit (elapseN k s) :=
  elapseN_comm (f := startBit) (fun _ => rfl) k s
theorem elapseN_startByte (k : Nat) (v : Byte) (s : State) : elapseN k (startByte v s) = startByte v (elapseN k s) :=
  elapseN_comm (f := startByte v) (fun _ => rfl) k s
theorem elapseN_startStop (k : Nat) (s : State) : elapseN k (startStop s) = startStop (elapseN k s) :=
  elapseN_comm (f := startStop) (fun _ => rfl) k s

/-! ### The starts, written with the updates -/

theorem endLow_eq (s : State) : endLow s = s.inPhase .txHigh .input (s.period - s.low s.curbit) := rfl
theorem startSymbol_eq (b : Bool) (s : State) :
    startSymbol b s = (s.inPhase .txLow .output (s.low b)).withBits s.shreg s.bitcnt b := rfl
theorem startBit_eq (s : State) :
    startBit s = (s.inPhase .txLow .output (s.low s.shreg.msb)).withBits (s.shreg <<< 1) (s.bitcnt - 1) s.shreg.msb := rfl
theorem startByte_eq (v : Byte) (s : State) :
    startByte v s =
      ((s.inPhase .txLow .output (s.low v.msb)).withBits (v <<< 1) 7 v.msb).withTxidx (s.txidx + 1) := rfl
theorem startStop_eq (s : State) :
    startStop s = (s.inPhase .stopLow .output s.t).withBits s.shreg s.bitcnt true := rfl

/-- Putting back the bits a state has changes nothing. -/
theorem withBits_self {s : State} {sh : Byte} {bc : BitVec 4} {cb : Bool} (h₁ : s.shreg = sh) (h₂ : s.bitcnt = bc)
    (h₃ : s.curbit = cb) : s.withBits sh bc cb = s := by
  subst h₁ h₂ h₃
  rfl

/-! ### Counting down -/

/-- The states in which CNT counts down to 1 (R26). -/
def State.timed (s : State) : Prop :=
  s.st = .txLow ∨ s.st = .txHigh ∨ s.st = .stopLow ∨ s.st = .stopHigh ∨ s.st = .rxDelay

/-- While CNT is above 1, a timed tick only counts down. -/
theorem tick_countDown {s : State} (hs : s.timed) (hc : 1 < s.cnt) (h : s.input.rst = false) :
    tick s = (elapse s).withCnt (s.cnt - 1) := by
  rcases hs with hs | hs | hs | hs | hs
  · rw [tick_txLow h hs, tickTxLow, elapse_cnt, if_pos hc]; rfl
  · rw [tick_txHigh h hs, tickTxHigh, elapse_cnt, if_pos hc]; rfl
  · rw [tick_stopLow h hs, tickStopLow, elapse_cnt, if_pos hc]; rfl
  · rw [tick_stopHigh h hs, tickStopHigh, elapse_cnt, if_pos hc]; rfl
  · rw [tick_rxDelay h hs, tickDelay, elapse_cnt, if_pos hc]; rfl

/-- `k` timed ticks count down by `k`. -/
theorem ticks_countDown {s : State} (hs : s.timed) {k : Nat} (hk : k < s.cnt) (h : NoReset s k) :
    ticks k s = (elapseN k s).withCnt (s.cnt - k) := by
  induction k with
  | zero => rfl
  | succ k ih =>
    have hr : ((elapseN k s).withCnt (s.cnt - k)).input.rst = false := by
      rw [withCnt_input, input_elapseN]
      exact h k (by omega)
    rw [ticks_succ', ih (by omega) (h.mono (by omega)), tick_countDown _ _ hr, elapseN_succ', elapse_withCnt,
      withCnt_cnt]
    · show (elapse (elapseN k s)).withCnt (s.cnt - k - 1) = _
      rw [Nat.sub_sub]
    · simpa [State.timed] using hs
    · show 1 < s.cnt - k
      omega

/-! ### One symbol -/

/-- During the low phase the line is driven and CNT counts down. -/
theorem ticks_symbol_low {s : State} (hs : s.st = .txLow) (hc : s.cnt = s.low s.curbit) {k : Nat}
    (hk : k < s.low s.curbit) (h : NoReset s k) :
    ticks k s = (elapseN k s).withCnt (s.low s.curbit - k) := by
  rw [ticks_countDown (Or.inl hs) (by omega) h, hc]

/-- During the released phase the line is released and CNT counts down. -/
theorem ticks_symbol_high {s : State} (hs : s.st = .txLow) (hc : s.cnt = s.low s.curbit) {k : Nat}
    (hl : s.low s.curbit ≤ k) (hk : k < s.period) (h : NoReset s k) :
    ticks k s = (elapseN k s).inPhase .txHigh .input (s.period - k) := by
  have hpos := s.one_le_low s.curbit
  obtain ⟨l, hle⟩ : ∃ l, s.low s.curbit = l + 1 := ⟨s.low s.curbit - 1, by omega⟩
  obtain ⟨d, rfl⟩ : ∃ d, k = l + 1 + d := ⟨k - (l + 1), by omega⟩
  have h1 : ticks (l + 1) s = (elapseN (l + 1) s).inPhase .txHigh .input (s.period - (l + 1)) := by
    have hr : ((elapseN l s).withCnt (s.low s.curbit - l)).input.rst = false := by
      rw [withCnt_input, input_elapseN]
      exact h l (by omega)
    rw [ticks_succ', ticks_symbol_low hs hc (by omega) (h.mono (by omega)), tick_txLow hr (by simpa using hs),
      tickTxLow, elapse_withCnt, withCnt_cnt, if_neg (by omega), ← elapseN_succ', ← hle]
    rw [endLow_eq, withCnt_curbit, elapseN_curbit, withCnt_low, withCnt_period, elapseN_low, elapseN_period]
    rfl
  rw [ticks_add, h1, ticks_countDown (Or.inr (Or.inl rfl)), elapseN_inPhase, ← elapseN_add, inPhase_cnt, Nat.sub_sub]
  · rfl
  · show d < s.period - (l + 1)
    omega
  · intro j hj
    rw [inPhase_inputAt, inputAt_elapseN]
    exact h _ (by omega)

/-- A symbol lasts exactly `4*T` ticks, whatever its bit (R102), and the `Step` of its last tick starts the next
symbol. -/
theorem ticks_symbol {s : State} (hs : s.st = .txLow) (hc : s.cnt = s.low s.curbit) (h : NoReset s s.period) :
    ticks s.period s = nextSymbol ((elapseN s.period s).inPhase .txHigh .input 1) := by
  have hp := s.low_lt_period s.curbit
  obtain ⟨p, hpe⟩ : ∃ p, s.period = p + 1 := ⟨s.period - 1, by omega⟩
  have hr : ((elapseN p s).inPhase .txHigh .input (s.period - p)).input.rst = false := by
    rw [inPhase_input, input_elapseN]
    exact h p (by omega)
  have h1 : s.period - p = 1 := by omega
  rw [hpe, ticks_succ', ticks_symbol_high hs hc (by omega) (by omega) (h.mono (by omega)), tick_txHigh hr rfl,
    elapseN_succ', tickTxHigh, elapse_inPhase, inPhase_cnt, h1, if_neg (by omega)]

/-! ### A byte -/

/-- `NextSymbol` with bits of the byte left (R103). -/
theorem nextSymbol_bit {s : State} (h : 0 < s.bitcnt.toNat) : nextSymbol s = startBit s := by
  rw [nextSymbol, if_pos h]

/-- `NextSymbol` at the end of a byte, with a command byte to come (R65, R103). -/
theorem nextSymbol_byte {s : State} (h : s.bitcnt = 0) (hn : s.txidx.toNat < s.n.toNat) :
    nextSymbol s = startByte (memRead s (s.cmdAddr s.txidx.toNat)) s := by
  rw [nextSymbol, if_neg (by simp [h]), if_pos hn]

/-- `NextSymbol` after the last command byte (R104). -/
theorem nextSymbol_stop {s : State} (h : s.bitcnt = 0) (hn : s.n.toNat ≤ s.txidx.toNat) :
    nextSymbol s = startStop s := by
  rw [nextSymbol, if_neg (by simp [h]), if_neg (by omega)]

/-- `NextSymbol` writes `ST`, `DIR`, CNT and `CURBIT` whatever they were. -/
theorem nextSymbol_inPhase (s : State) (st : SeqState) (d : Dir) (c : Nat) :
    nextSymbol (s.inPhase st d c) = nextSymbol s := rfl

/-- The bits left in `SHREG` go out one symbol after another. -/
theorem ticks_bits (b : Nat) {s : State} (hs : s.st = .txLow) (hc : s.cnt = s.low s.curbit)
    (hb : s.bitcnt.toNat = b) (h : NoReset s ((b + 1) * s.period)) :
    ticks ((b + 1) * s.period) s =
      nextSymbol (((elapseN ((b + 1) * s.period) s).inPhase .txHigh .input 1).withBits (s.shreg <<< b) 0
        (if b = 0 then s.curbit else (s.shreg <<< (b - 1)).msb)) := by
  induction b generalizing s with
  | zero =>
    have hb0 : s.bitcnt = 0 := BitVec.eq_of_toNat_eq (by simpa using hb)
    simp only [Nat.zero_add, Nat.one_mul] at h ⊢
    rw [ticks_symbol hs hc h, if_pos trivial, BitVec.shiftLeft_zero, withBits_self] <;> simp [hb0]
  | succ b ih =>
    have hmul : (b + 1 + 1) * s.period = s.period + (b + 1) * s.period := by rw [Nat.add_mul, Nat.one_mul]; omega
    rw [hmul] at h ⊢
    have hstart : ticks s.period s = startBit (elapseN s.period s) := by
      rw [ticks_symbol hs hc (h.mono (by omega)), nextSymbol_inPhase, nextSymbol_bit (by simp [hb])]
    have hper : (startBit (elapseN s.period s)).period = s.period := by simp [State.period, State.t]
    have hub : (startBit (elapseN s.period s)).bitcnt.toNat = b := by
      rw [startBit_bitcnt, elapseN_bitcnt, BitVec.toNat_sub, hb]
      have := s.bitcnt.isLt
      simp
      omega
    have hnr : NoReset (startBit (elapseN s.period s)) ((b + 1) * s.period) := by
      intro j hj
      have : (startBit (elapseN s.period s)).inputAt j = s.inputAt (s.period + j) := by
        rw [← inputAt_elapseN]
        exact inputAt_congr rfl rfl j
      rw [this]
      exact h _ (by omega)
    have := ih (s := startBit (elapseN s.period s)) rfl (by simp [State.low, State.t]) hub (by rw [hper]; exact hnr)
    rw [hper] at this
    rw [ticks_add, hstart, this, elapseN_startBit, ← elapseN_add]
    congr 1
    rw [startBit_eq]
    simp only [startBit_shreg, startBit_curbit, elapseN_shreg, elapseN_bitcnt]
    rw [← BitVec.shiftLeft_add, Nat.add_comm 1 b, if_neg (Nat.succ_ne_zero b)]
    have hcb : (if b = 0 then s.shreg.msb else (s.shreg <<< 1 <<< (b - 1)).msb) = (s.shreg <<< (b + 1 - 1)).msb := by
      cases b with
      | zero => simp
      | succ b =>
        rw [if_neg (Nat.succ_ne_zero b), ← BitVec.shiftLeft_add]
        congr 2
        omega
    rw [hcb]
    rfl

theorem byte_shifted_out (v : Byte) : v <<< 1 <<< 7 = 0 := by revert v; decide

theorem byte_last_bit (v : Byte) : (v <<< 1 <<< 6).msb = v.getLsbD 0 := by revert v; decide

/-- A command byte lasts exactly `32*T` ticks (R103). -/
theorem ticks_startByte {s : State} (v : Byte) (h : NoReset s (8 * s.period)) :
    ticks (8 * s.period) (startByte v s) =
      nextSymbol ((((elapseN (8 * s.period) s).inPhase .txHigh .input 1).withBits 0 0 (v.getLsbD 0)).withTxidx
        (s.txidx + 1)) := by
  have hper : (startByte v s).period = s.period := by simp [State.period, State.t]
  have := ticks_bits 7 (s := startByte v s) rfl rfl rfl
    (by rw [hper]; exact fun j hj => h j hj)
  rw [hper, if_neg (by omega), startByte_shreg, byte_shifted_out, byte_last_bit] at this
  rw [this, elapseN_startByte, startByte_eq, elapseN_txidx]
  rfl

/-! ### The stop bit -/

/-- The end of the stop bit's low phase with a `STOP_TAIL` to wait. -/
theorem tickStopLow_tail {s : State} (hc : ¬ 1 < s.cnt) (ht : 0 < s.cfg.stopTail) :
    tickStopLow s = s.inPhase .stopHigh .input s.cfg.stopTail := by
  rw [tickStopLow, if_neg hc, if_pos ht]
  rfl

/-- The end of the stop bit's low phase with none. -/
theorem tickStopLow_noTail {s : State} (hc : ¬ 1 < s.cnt) (ht : ¬ 0 < s.cfg.stopTail) :
    tickStopLow s = afterStop (releaseLine s) := by
  rw [tickStopLow, if_neg hc, if_neg ht]

/-- The place of the stop bit's last tick (R104). -/
def stopEnd (s : State) : SeqState := if s.cfg.stopTail = 0 then .stopLow else .stopHigh

/-- The stop bit lasts `T + STOP_TAIL` ticks (R104), and the `Step` of its last tick starts what follows. -/
theorem ticks_startStop {s : State} (h : NoReset s (s.t + s.cfg.stopTail)) :
    ticks (s.t + s.cfg.stopTail) (startStop s) =
      afterStop (((elapseN (s.t + s.cfg.stopTail) s).inPhase (stopEnd s) .input 1).withBits s.shreg s.bitcnt true) := by
  have ht := s.one_le_t
  obtain ⟨t, hte⟩ : ∃ t, s.t = t + 1 := ⟨s.t - 1, by omega⟩
  have hlow : ticks t (startStop s) = (startStop (elapseN t s)).withCnt 1 := by
    rw [ticks_countDown (s := startStop s) (by simp [State.timed]) (by simp; omega) (fun j hj => h j (by omega)),
      elapseN_startStop, startStop_cnt, hte, Nat.add_sub_cancel_left]
  have hr : ((startStop (elapseN t s)).withCnt 1).input.rst = false := by
    show (elapseN t s).input.rst = false
    rw [input_elapseN]
    exact h t (by omega)
  have hend : ticks (t + 1) (startStop s) = tickStopLow ((startStop (elapseN (t + 1) s)).withCnt 1) := by
    rw [ticks_succ', hlow, tick_stopLow hr rfl, elapseN_succ']
    rfl
  have hbits : ∀ k st d c, ((elapseN k s).inPhase st d c).withBits s.shreg s.bitcnt true =
      ((elapseN k s).inPhase st d c).withBits (elapseN k s).shreg (elapseN k s).bitcnt true := by simp
  by_cases htail : s.cfg.stopTail = 0
  · rw [htail, Nat.add_zero, hte, hend, tickStopLow_noTail (by simp) (by simp [htail]), stopEnd, if_pos htail, hbits]
    rfl
  · obtain ⟨d, hd⟩ : ∃ d, s.cfg.stopTail = d + 1 := ⟨s.cfg.stopTail - 1, by omega⟩
    have hhigh : tickStopLow ((startStop (elapseN (t + 1) s)).withCnt 1) =
        ((elapseN (t + 1) s).inPhase .stopHigh .input (d + 1)).withBits s.shreg s.bitcnt true := by
      rw [tickStopLow_tail (by simp) (by simp; omega), withCnt_cfg, startStop_cfg, elapseN_cfg, hd, hbits]
      rfl
    have hnr : NoReset (((elapseN (t + 1) s).inPhase .stopHigh .input (d + 1)).withBits s.shreg s.bitcnt true) (d + 1) := by
      intro j hj
      rw [withBits_inputAt, inPhase_inputAt, inputAt_elapseN]
      exact h _ (by omega)
    have hd' : ticks d (((elapseN (t + 1) s).inPhase .stopHigh .input (d + 1)).withBits s.shreg s.bitcnt true) =
        ((elapseN (t + 1 + d) s).inPhase .stopHigh .input 1).withBits s.shreg s.bitcnt true := by
      rw [ticks_countDown (by simp [State.timed]) (by simp) (hnr.mono (by omega)), elapseN_withBits, elapseN_inPhase,
        ← elapseN_add]
      simp only [withBits_cnt, inPhase_cnt, Nat.add_sub_cancel_left]
      rfl
    rw [hte, hd, ticks_add, hend, hhigh, ticks_succ', hd', tick_stopHigh _ rfl, tickStopHigh]
    · rw [if_neg (by simp), stopEnd, if_neg htail, ← Nat.add_assoc, elapseN_succ']
      rfl
    · rw [withBits_input, inPhase_input, input_elapseN]
      exact h _ (by omega)

/-! ### A whole command -/

/-- The command bytes still to be sent go out one after another with no gap, then the stop bit begins (R105). -/
theorem ticks_command (r : Nat) {s : State} (hb : s.bitcnt = 0) (hsh : s.shreg = 0)
    (hr : s.txidx.toNat + r = s.n.toNat) (h : NoReset s (r * (8 * s.period))) :
    ticks (r * (8 * s.period)) (nextSymbol s) = startStop ((elapseN (r * (8 * s.period)) s).withTxidx s.n) := by
  induction r generalizing s with
  | zero =>
    have htx : s.txidx = s.n := BitVec.eq_of_toNat_eq (by omega)
    rw [nextSymbol_stop hb (by omega), Nat.zero_mul, ← htx]
    rfl
  | succ r ih =>
    have hmul : (r + 1) * (8 * s.period) = 8 * s.period + r * (8 * s.period) := by rw [Nat.add_mul, Nat.one_mul]; omega
    rw [hmul] at h ⊢
    have hlt := s.n.isLt
    set u := (((elapseN (8 * s.period) s).inPhase .txHigh .input 1).withBits 0 0
      ((memRead s (s.cmdAddr s.txidx.toNat)).getLsbD 0)).withTxidx (s.txidx + 1) with hu
    have hper : u.period = s.period := by simp [hu]
    have htx : u.txidx.toNat = s.txidx.toNat + 1 := by
      rw [hu, withTxidx_txidx, BitVec.toNat_add]
      simp
      omega
    have := ih (s := u) rfl rfl (by rw [htx, hu]; simp; omega) (by
      rw [hper]
      intro j hj
      rw [hu, withTxidx_inputAt, withBits_inputAt, inPhase_inputAt, inputAt_elapseN]
      exact h _ (by omega))
    rw [hper] at this
    rw [ticks_add, nextSymbol_byte hb (by omega), ticks_startByte _ (h.mono (by omega)), this, hu]
    rw [elapseN_withTxidx, elapseN_withBits, elapseN_inPhase, ← elapseN_add]
    rw [startStop_eq, startStop_eq]
    have h1 := elapseN_shreg (8 * s.period + r * (8 * s.period)) s
    have h2 := elapseN_bitcnt (8 * s.period + r * (8 * s.period)) s
    rw [hsh] at h1
    rw [hb] at h2
    simp only [withTxidx_shreg, withTxidx_bitcnt, withBits_shreg, withBits_bitcnt, h1, h2, withTxidx_n, withBits_n,
      inPhase_n, elapseN_n]
    rfl

/-! ### Inside a command -/

/-- Bit `i` of a command byte as it begins: `i` symbols of the byte have gone out (R103). -/
theorem ticks_startByte_bit (i : Nat) {s : State} (v : Byte) (hi : i ≤ 7) (h : NoReset s (i * s.period)) :
    ticks (i * s.period) (startByte v s) =
      (((elapseN (i * s.period) s).inPhase .txLow .output (s.low (v.getLsbD (7 - i)))).withBits
        (v <<< (i + 1)) (BitVec.ofNat 4 (7 - i)) (v.getLsbD (7 - i))).withTxidx (s.txidx + 1) := by
  induction i with
  | zero =>
    rw [Nat.zero_mul, ticks_zero, startByte_eq, elapseN_zero]
    have : v.msb = v.getLsbD (7 - 0) := by revert v; decide
    rw [this]
    rfl
  | succ i ih =>
    have hmul : (i + 1) * s.period = i * s.period + s.period := by rw [Nat.add_mul, Nat.one_mul]
    rw [hmul] at h ⊢
    have hbits : ∀ (v : Byte) (i : Fin 7), (v <<< (i.val + 1)).msb = v.getLsbD (7 - (i.val + 1)) := by decide
    have hb := hbits v ⟨i, by omega⟩
    simp only at hb
    have hcnt : BitVec.ofNat 4 (7 - i) - 1 = BitVec.ofNat 4 (7 - (i + 1)) := by
      have : ∀ i : Fin 7, BitVec.ofNat 4 (7 - i.val) - 1 = BitVec.ofNat 4 (7 - (i.val + 1)) := by decide
      exact this ⟨i, by omega⟩
    have hpos : 0 < (BitVec.ofNat 4 (7 - i)).toNat := by
      have : ∀ i : Fin 7, 0 < (BitVec.ofNat 4 (7 - i.val)).toNat := by decide
      exact this ⟨i, by omega⟩
    rw [ticks_add, ih (by omega) (h.mono (by omega))]
    set u := (((elapseN (i * s.period) s).inPhase .txLow .output (s.low (v.getLsbD (7 - i)))).withBits
        (v <<< (i + 1)) (BitVec.ofNat 4 (7 - i)) (v.getLsbD (7 - i))).withTxidx (s.txidx + 1) with hu
    have hper : u.period = s.period := by simp [hu]
    have := ticks_symbol (s := u) rfl (by simp [hu]) (by
      rw [hper]
      intro j hj
      rw [hu, withTxidx_inputAt, withBits_inputAt, inPhase_inputAt, inputAt_elapseN]
      exact h _ (by omega))
    rw [hper] at this
    rw [this, nextSymbol_inPhase, nextSymbol_bit (by simpa [hu] using hpos), hu, elapseN_withTxidx, elapseN_withBits,
      elapseN_inPhase, ← elapseN_add, startBit_eq]
    simp only [withTxidx_shreg, withBits_shreg, withTxidx_bitcnt, withBits_bitcnt, ← BitVec.shiftLeft_add, hb, hcnt]
    have : ((((elapseN (i * s.period + s.period) s).inPhase .txLow .output (s.low (v.getLsbD (7 - i)))).withBits
        (v <<< (i + 1)) (BitVec.ofNat 4 (7 - i)) (v.getLsbD (7 - i))).withTxidx (s.txidx + 1)).low (v.getLsbD (7 - (i+1))) =
        s.low (v.getLsbD (7 - (i+1))) := by simp
    rw [this]
    rfl

/-- Where the block is, and what it does to the line, `j` ticks into bit `i` of a command byte (R100, R101, R103). -/
theorem ticks_startByte_at {s : State} (v : Byte) {i j : Nat} (hi : i ≤ 7) (hj : j < s.period)
    (h : NoReset s (i * s.period + j)) :
    (ticks (i * s.period + j) (startByte v s)).st = (if j < s.low (v.getLsbD (7 - i)) then .txLow else .txHigh) ∧
    (ticks (i * s.period + j) (startByte v s)).dir = if j < s.low (v.getLsbD (7 - i)) then .output else .input := by
  rw [ticks_add, ticks_startByte_bit i v hi (h.mono (by omega))]
  set u := (((elapseN (i * s.period) s).inPhase .txLow .output (s.low (v.getLsbD (7 - i)))).withBits
    (v <<< (i + 1)) (BitVec.ofNat 4 (7 - i)) (v.getLsbD (7 - i))).withTxidx (s.txidx + 1) with hu
  have hlow : u.low u.curbit = s.low (v.getLsbD (7 - i)) := by simp [hu]
  have hper : u.period = s.period := by simp [hu]
  have hr : NoReset u j := by
    intro k hk
    rw [hu, withTxidx_inputAt, withBits_inputAt, inPhase_inputAt, inputAt_elapseN]
    exact h _ (by omega)
  have hcnt : u.cnt = u.low u.curbit := by rw [hlow, hu]; rfl
  by_cases hlt : j < s.low (v.getLsbD (7 - i))
  · rw [ticks_symbol_low rfl hcnt (by rw [hlow]; exact hlt) hr, if_pos hlt, if_pos hlt]
    exact ⟨by simp [hu], by simp [hu]⟩
  · rw [ticks_symbol_high rfl hcnt (by rw [hlow]; omega) (by rw [hper]; exact hj) hr, if_neg hlt, if_neg hlt]
    exact ⟨rfl, rfl⟩

/-- The command byte `i` bytes on begins, or the stop bit does (R105). -/
theorem ticks_commandByte (i : Nat) {s : State} (hb : s.bitcnt = 0) (hsh : s.shreg = 0)
    (hi : s.txidx.toNat + i ≤ s.n.toNat) (h : NoReset s (i * (8 * s.period))) :
    ∃ cb, ticks (i * (8 * s.period)) (nextSymbol s) =
      nextSymbol (((elapseN (i * (8 * s.period)) s).withTxidx (s.txidx + BitVec.ofNat 8 i)).withBits 0 0 cb) := by
  induction i with
  | zero =>
    refine ⟨s.curbit, ?_⟩
    rw [Nat.zero_mul, ticks_zero, elapseN_zero]
    congr 1
    cases s
    simp_all [State.withTxidx, State.withBits]
  | succ i ih =>
    obtain ⟨cb, hcb⟩ := ih (by omega) (h.mono (by rw [Nat.add_mul]; omega))
    have hmul : (i + 1) * (8 * s.period) = i * (8 * s.period) + 8 * s.period := by rw [Nat.add_mul, Nat.one_mul]
    rw [hmul] at h ⊢
    rw [ticks_add, hcb]
    have hlt := s.n.isLt
    set u := ((elapseN (i * (8 * s.period)) s).withTxidx (s.txidx + BitVec.ofNat 8 i)).withBits 0 0 cb with hu
    have hper : u.period = s.period := by simp [hu]
    have htx : u.txidx.toNat = s.txidx.toNat + i := by
      rw [hu, withBits_txidx, withTxidx_txidx, BitVec.toNat_add, BitVec.toNat_ofNat]
      omega
    have hn : u.n = s.n := by simp [hu]
    rw [nextSymbol_byte rfl (by rw [htx, hn]; omega), ← hper, ticks_startByte]
    · refine ⟨(memRead u (u.cmdAddr u.txidx.toNat)).getLsbD 0, ?_⟩
      have hadd : s.txidx + BitVec.ofNat 8 i + 1 = s.txidx + BitVec.ofNat 8 (i + 1) := by
        rw [BitVec.ofNat_add, ← BitVec.add_assoc]
        rfl
      have hut : u.txidx = s.txidx + BitVec.ofNat 8 i := rfl
      have hcomm : ∀ (w : State) (b : Bool), ((w.inPhase .txHigh .input 1).withBits 0 0 b).withTxidx
          (s.txidx + BitVec.ofNat 8 (i + 1)) =
          ((w.withTxidx (s.txidx + BitVec.ofNat 8 (i + 1))).withBits 0 0 b).inPhase .txHigh .input 1 := fun _ _ => rfl
      rw [hut, hadd, hcomm, nextSymbol_inPhase, hper]
      congr 1
      rw [hu, elapseN_withBits, elapseN_withTxidx, ← elapseN_add]
      rfl
    · rw [hper]
      intro j hj
      rw [hu, withBits_inputAt, withTxidx_inputAt, inputAt_elapseN]
      exact h _ (by omega)

/-! ### Inside the stop bit -/

/-- The block is in the stop bit for all its ticks (R104). -/
theorem ticks_startStop_at {s : State} {j : Nat} (hj : j < s.t + s.cfg.stopTail) (h : NoReset s (s.t + s.cfg.stopTail)) :
    ((ticks j (startStop s)).st = .stopLow ∧ (ticks j (startStop s)).dir = .output ∧ j < s.t) ∨
      ((ticks j (startStop s)).st = .stopHigh ∧ (ticks j (startStop s)).dir = .input ∧ s.t ≤ j) := by
  have ht := s.one_le_t
  have hr : ∀ k, k ≤ s.t + s.cfg.stopTail → NoReset (startStop s) k := fun k hk i hi => h i (by omega)
  by_cases hlt : j < s.t
  · rw [ticks_countDown (s := startStop s) (by simp [State.timed]) (by simpa using hlt) (hr j (by omega))]
    exact Or.inl ⟨by simp, by simp, hlt⟩
  · obtain ⟨t, hte⟩ : ∃ t, s.t = t + 1 := ⟨s.t - 1, by omega⟩
    obtain ⟨d, rfl⟩ : ∃ d, j = s.t + d := ⟨j - s.t, by omega⟩
    have hlow : ticks t (startStop s) = (startStop (elapseN t s)).withCnt 1 := by
      rw [ticks_countDown (s := startStop s) (by simp [State.timed]) (by simp; omega) (hr t (by omega)),
        elapseN_startStop, startStop_cnt, hte, Nat.add_sub_cancel_left]
    have hmid : ticks s.t (startStop s) =
        ((startStop (elapseN s.t s)).withCnt 1).inPhase .stopHigh .input s.cfg.stopTail := by
      rw [hte, ticks_succ', hlow, tick_stopLow _ rfl, elapse_withCnt, tickStopLow_tail (by simp), elapseN_succ']
      · simp only [withCnt_cfg, elapse_cfg, startStop_cfg, elapseN_cfg]
        rfl
      · simp
        omega
      · show (elapseN t s).input.rst = false
        rw [input_elapseN]
        exact h t (by omega)
    refine Or.inr ?_
    rw [ticks_add, hmid, ticks_countDown (by simp [State.timed]) (by simp; omega)]
    · exact ⟨by simp, by simp, by omega⟩
    · intro i hi
      rw [inPhase_inputAt]
      have : ((startStop (elapseN s.t s)).withCnt 1).inputAt i = s.inputAt (s.t + i) := inputAt_elapseN s.t s i
      rw [this]
      exact h _ (by omega)

end Sys2Proof.Machine
end

