-- ==== Sys2Proof/Laws/Receive.lean ====
section
/-! SUPPORT. What the receive phase does, in closed form: the polls of a wait, the delay and the sample, one bit on any
waveform, one byte on any waveform. -/

namespace Sys2Proof.Machine

/-! ### The line while the block releases it -/

theorem line_of_input {s : State} (h : s.dir = .input) : s.line = s.wireAt 0 := by
  simp [State.line, State.wireAt, h, input_eq_inputAt]

@[simp] theorem wireAt_elapseN (k : Nat) (s : State) (j : Nat) : (elapseN k s).wireAt j = s.wireAt (k + j) := by
  simp [State.wireAt]
@[simp] theorem withCnt_wireAt (s : State) (c j : Nat) : (s.withCnt c).wireAt j = s.wireAt j := rfl
@[simp] theorem inPhase_wireAt (s : State) (st : SeqState) (d : Dir) (c j : Nat) :
    (s.inPhase st d c).wireAt j = s.wireAt j := rfl
@[simp] theorem withBits_wireAt (s : State) (sh : Byte) (bc : BitVec 4) (cb : Bool) (j : Nat) :
    (s.withBits sh bc cb).wireAt j = s.wireAt j := rfl
@[simp] theorem startWaitHigh_wireAt (s : State) (j : Nat) : (startWaitHigh s).wireAt j = s.wireAt j := rfl
@[simp] theorem startWaitLow_wireAt (s : State) (j : Nat) : (startWaitLow s).wireAt j = s.wireAt j := rfl
@[simp] theorem startDelay_wireAt (s : State) (j : Nat) : (startDelay s).wireAt j = s.wireAt j := rfl
@[simp] theorem startRxByte_wireAt (s : State) (j : Nat) : (startRxByte s).wireAt j = s.wireAt j := rfl

/-- A state is itself in the phase it is in. -/
theorem inPhase_self {s : State} {st : SeqState} {d : Dir} {c : Nat} (h₁ : s.st = st) (h₂ : s.dir = d)
    (h₃ : s.cnt = c) : s.inPhase st d c = s := by
  subst h₁ h₂ h₃
  rfl

theorem inPhase_inPhase (s : State) (st st' : SeqState) (d d' : Dir) (c c' : Nat) :
    (s.inPhase st d c).inPhase st' d' c' = s.inPhase st' d' c' := rfl

theorem startWaitHigh_eq {s : State} (h : s.dir = .input) : startWaitHigh s = s.inPhase .rxWaitHigh .input 0 := by
  rw [← h]; rfl
theorem startWaitLow_eq {s : State} (h : s.dir = .input) : startWaitLow s = s.inPhase .rxWaitLow .input 0 := by
  rw [← h]; rfl
theorem startDelay_eq {s : State} (h : s.dir = .input) :
    startDelay s = s.inPhase .rxDelay .input s.sampleDelay := by
  rw [← h]; rfl

/-! ### One poll -/

/-- Both tests of a `RX_WAIT_HIGH` tick (R111). -/
theorem tick_pollHigh {s : State} (hs : s.st = .rxWaitHigh) (hd : s.dir = .input) (h : s.input.rst = false) :
    tick s = if s.wireAt 0 then startWaitLow (elapse s)
      else if s.cfg.pollCap ≤ s.cnt + 1 then timeoutHigh (elapse s) else (elapse s).withCnt (s.cnt + 1) := by
  rw [tick_rxWaitHigh h hs, tickWaitHigh, line_of_input hd]
  have hcnt : { elapse s with cnt := (elapse s).cnt + 1 } = (elapse s).withCnt (s.cnt + 1) := rfl
  rw [hcnt]
  by_cases hl : s.cfg.pollCap ≤ s.cnt + 1 <;> simp [State.lastPoll, hl]

/-- Both tests of a `RX_WAIT_LOW` tick (R112). -/
theorem tick_pollLow {s : State} (hs : s.st = .rxWaitLow) (hd : s.dir = .input) (h : s.input.rst = false) :
    tick s = if s.wireAt 0 = false then startDelay (elapse s)
      else if s.cfg.pollCap ≤ s.cnt + 1 then timeoutLow (elapse s) else (elapse s).withCnt (s.cnt + 1) := by
  rw [tick_rxWaitLow h hs, tickWaitLow, line_of_input hd]
  have hcnt : { elapse s with cnt := (elapse s).cnt + 1 } = (elapse s).withCnt (s.cnt + 1) := rfl
  rw [hcnt]
  by_cases hl : s.cfg.pollCap ≤ s.cnt + 1 <;> simp [State.lastPoll, hl]

/-! ### A wait -/

/-- Failed polls only count up. -/
theorem ticks_waitHigh_failing {s : State} (hs : s.st = .rxWaitHigh) (hd : s.dir = .input) (hc : s.cnt = 0) {k : Nat}
    (hk : k < s.cfg.pollCap) (hw : ∀ j < k, s.wireAt j = false) (h : NoReset s k) :
    ticks k s = (elapseN k s).inPhase .rxWaitHigh .input k := by
  induction k with
  | zero => exact (inPhase_self hs hd hc).symm
  | succ k ih =>
    have hr : ((elapseN k s).inPhase .rxWaitHigh .input k).input.rst = false := by
      rw [inPhase_input, input_elapseN]
      exact h k (by omega)
    rw [ticks_succ', ih (by omega) (fun j hj => hw j (by omega)) (h.mono (by omega)), tick_pollHigh rfl rfl hr,
      inPhase_wireAt, wireAt_elapseN, Nat.add_zero, hw k (by omega), if_neg (by simp), inPhase_cfg, elapseN_cfg,
      inPhase_cnt, if_neg (by omega), elapseN_succ']
    rfl

/-- A wait for high ends at the first high poll (R111). -/
theorem ticks_waitHigh_succeeds {s : State} (hs : s.st = .rxWaitHigh) (hd : s.dir = .input) (hc : s.cnt = 0) {k : Nat}
    (hk : k < s.cfg.pollCap) (hw : ∀ j < k, s.wireAt j = false) (hhigh : s.wireAt k = true) (h : NoReset s (k + 1)) :
    ticks (k + 1) s = startWaitLow (elapseN (k + 1) s) := by
  have hr : ((elapseN k s).inPhase .rxWaitHigh .input k).input.rst = false := by
    rw [inPhase_input, input_elapseN]
    exact h k (by omega)
  rw [ticks_succ', ticks_waitHigh_failing hs hd hc hk hw (h.mono (by omega)), tick_pollHigh rfl rfl hr,
    inPhase_wireAt, wireAt_elapseN, Nat.add_zero, hhigh, if_pos rfl, elapseN_succ', startWaitLow_eq, startWaitLow_eq]
  · rfl
  · simpa using hd
  · rfl

/-- `POLL_CAP` failed polls time a wait for high out (R111, R115). -/
theorem ticks_waitHigh_timesOut {s : State} (hs : s.st = .rxWaitHigh) (hd : s.dir = .input) (hc : s.cnt = 0)
    (hw : ∀ j < s.cfg.pollCap, s.wireAt j = false) (h : NoReset s s.cfg.pollCap) :
    ticks s.cfg.pollCap s =
      timeoutHigh ((elapseN s.cfg.pollCap s).inPhase .rxWaitHigh .input (s.cfg.pollCap - 1)) := by
  obtain ⟨k, hk⟩ : ∃ k, s.cfg.pollCap = k + 1 := ⟨s.cfg.pollCap - 1, by have := s.one_le_pollCap; omega⟩
  have hr : ((elapseN k s).inPhase .rxWaitHigh .input k).input.rst = false := by
    rw [inPhase_input, input_elapseN]
    exact h k (by omega)
  rw [hk, ticks_succ', ticks_waitHigh_failing hs hd hc (by omega) (fun j hj => hw j (by omega)) (h.mono (by omega)),
    tick_pollHigh rfl rfl hr, inPhase_wireAt, wireAt_elapseN, Nat.add_zero, hw k (by omega), if_neg (by simp),
    inPhase_cfg, elapseN_cfg, inPhase_cnt, if_pos (by omega), elapseN_succ']
  rfl

/-- Failed polls only count up. -/
theorem ticks_waitLow_failing {s : State} (hs : s.st = .rxWaitLow) (hd : s.dir = .input) (hc : s.cnt = 0) {k : Nat}
    (hk : k < s.cfg.pollCap) (hw : ∀ j < k, s.wireAt j = true) (h : NoReset s k) :
    ticks k s = (elapseN k s).inPhase .rxWaitLow .input k := by
  induction k with
  | zero => exact (inPhase_self hs hd hc).symm
  | succ k ih =>
    have hr : ((elapseN k s).inPhase .rxWaitLow .input k).input.rst = false := by
      rw [inPhase_input, input_elapseN]
      exact h k (by omega)
    rw [ticks_succ', ih (by omega) (fun j hj => hw j (by omega)) (h.mono (by omega)), tick_pollLow rfl rfl hr,
      inPhase_wireAt, wireAt_elapseN, Nat.add_zero, hw k (by omega), if_neg (by simp), inPhase_cfg, elapseN_cfg,
      inPhase_cnt, if_neg (by omega), elapseN_succ']
    rfl

/-- A wait for low ends at the first low poll (R112). -/
theorem ticks_waitLow_succeeds {s : State} (hs : s.st = .rxWaitLow) (hd : s.dir = .input) (hc : s.cnt = 0) {k : Nat}
    (hk : k < s.cfg.pollCap) (hw : ∀ j < k, s.wireAt j = true) (hlow : s.wireAt k = false) (h : NoReset s (k + 1)) :
    ticks (k + 1) s = startDelay (elapseN (k + 1) s) := by
  have hr : ((elapseN k s).inPhase .rxWaitLow .input k).input.rst = false := by
    rw [inPhase_input, input_elapseN]
    exact h k (by omega)
  rw [ticks_succ', ticks_waitLow_failing hs hd hc hk hw (h.mono (by omega)), tick_pollLow rfl rfl hr,
    inPhase_wireAt, wireAt_elapseN, Nat.add_zero, if_pos hlow, elapseN_succ', startDelay_eq, startDelay_eq]
  · rfl
  · simpa using hd
  · rfl

/-- `POLL_CAP` failed polls time a wait for low out (R112, R116). -/
theorem ticks_waitLow_timesOut {s : State} (hs : s.st = .rxWaitLow) (hd : s.dir = .input) (hc : s.cnt = 0)
    (hw : ∀ j < s.cfg.pollCap, s.wireAt j = true) (h : NoReset s s.cfg.pollCap) :
    ticks s.cfg.pollCap s =
      timeoutLow ((elapseN s.cfg.pollCap s).inPhase .rxWaitLow .input (s.cfg.pollCap - 1)) := by
  obtain ⟨k, hk⟩ : ∃ k, s.cfg.pollCap = k + 1 := ⟨s.cfg.pollCap - 1, by have := s.one_le_pollCap; omega⟩
  have hr : ((elapseN k s).inPhase .rxWaitLow .input k).input.rst = false := by
    rw [inPhase_input, input_elapseN]
    exact h k (by omega)
  rw [hk, ticks_succ', ticks_waitLow_failing hs hd hc (by omega) (fun j hj => hw j (by omega)) (h.mono (by omega)),
    tick_pollLow rfl rfl hr, inPhase_wireAt, wireAt_elapseN, Nat.add_zero, hw k (by omega), if_neg (by simp),
    inPhase_cfg, elapseN_cfg, inPhase_cnt, if_pos (by omega), elapseN_succ']
  rfl

/-! ### The delay and the sample -/

/-- The delay counts down. -/
theorem ticks_delay {s : State} (hs : s.st = .rxDelay) (hd : s.dir = .input) (hc : s.cnt = s.sampleDelay) {k : Nat}
    (hk : k < s.sampleDelay) (h : NoReset s k) :
    ticks k s = (elapseN k s).inPhase .rxDelay .input (s.sampleDelay - k) := by
  rw [ticks_countDown (by simp [State.timed, hs]) (by omega) h, hc, ← inPhase_self (s := elapseN k s) (c := s.cnt)
    (by simpa using hs) (by simpa using hd) (by simp)]
  rfl

/-- The sample is taken in the delay's last tick, `2*T` ticks after the fall was observed (R113). -/
theorem ticks_sample {s : State} (hs : s.st = .rxDelay) (hd : s.dir = .input) (hc : s.cnt = s.sampleDelay)
    (h : NoReset s s.sampleDelay) :
    ticks s.sampleDelay s =
      sampleBit (s.wireAt (s.sampleDelay - 1)) ((elapseN s.sampleDelay s).inPhase .rxDelay .input 1) := by
  obtain ⟨k, hk⟩ : ∃ k, s.sampleDelay = k + 1 :=
    ⟨s.sampleDelay - 1, by have := s.one_le_t; simp only [State.sampleDelay]; omega⟩
  have hr : ((elapseN k s).inPhase .rxDelay .input (s.sampleDelay - k)).input.rst = false := by
    rw [inPhase_input, input_elapseN]
    exact h k (by omega)
  have h1 : s.sampleDelay - k = 1 := by omega
  rw [hk, ticks_succ', ticks_delay hs hd hc (by omega) (h.mono (by omega)), tick_rxDelay hr rfl, tickDelay,
    elapse_inPhase, inPhase_cnt, h1, if_neg (by omega), line_of_input rfl, inPhase_wireAt, wireAt_elapseN,
    elapseN_succ']
  rfl

/-! ### One bit, on any waveform -/

/-- The least index below a bound where a test holds, or none below it. -/
theorem exists_least_or_none (p : Nat → Bool) (k : Nat) :
    (∃ i < k, (∀ j < i, p j = false) ∧ p i = true) ∨ ∀ j < k, p j = false := by
  induction k with
  | zero => exact Or.inr fun j hj => absurd hj (Nat.not_lt_zero j)
  | succ k ih =>
    rcases ih with ⟨i, hi, hlt, hp⟩ | hnone
    · exact Or.inl ⟨i, by omega, hlt, hp⟩
    · cases hk : p k with
      | true => exact Or.inl ⟨k, by omega, hnone, hk⟩
      | false =>
        refine Or.inr fun j hj => ?_
        rcases Nat.lt_succ_iff_lt_or_eq.1 hj with h | rfl
        · exact hnone j h
        · exact hk

/-- How a bit's run of `k` ticks ends: in a sample, or in a timeout of one of its two waits. -/
inductive BitEnd (s : State) (k : Nat) : Prop where
  | sampled (h : ticks k s = sampleBit (s.wireAt (k - 1)) ((elapseN k s).inPhase .rxDelay .input 1))
      (hl : ticks (k - 1) s = (elapseN (k - 1) s).inPhase .rxDelay .input 1)
  | neverRose (h : ticks k s = timeoutHigh ((elapseN k s).inPhase .rxWaitHigh .input (s.cfg.pollCap - 1)))
      (hl : ticks (k - 1) s = (elapseN (k - 1) s).inPhase .rxWaitHigh .input (s.cfg.pollCap - 1))
      (hw : s.wireAt (k - 1) = false)
  | neverFell (h : ticks k s = timeoutLow ((elapseN k s).inPhase .rxWaitLow .input (s.cfg.pollCap - 1)))
      (hl : ticks (k - 1) s = (elapseN (k - 1) s).inPhase .rxWaitLow .input (s.cfg.pollCap - 1))
      (hw : s.wireAt (k - 1) = true)

/-- A bit's run of `k` ticks: it stays in the receive phase, ends in no tick before its last, and then ends. -/
structure BitRun (s : State) (k : Nat) : Prop where
  pos : 1 ≤ k
  bound : k ≤ s.bitTicks
  during : ∀ j < k, ∃ st c, (st = .rxWaitHigh ∨ st = .rxWaitLow ∨ st = .rxDelay) ∧
    ticks j s = (elapseN j s).inPhase st .input c ∧ (j + 1 < k → rxBitEnds (ticks j s) = false)
  ends : BitEnd s k

/-- The end condition of a bit in a polling tick that does not end it. -/
theorem rxBitEnds_wait {s : State} {st : SeqState} {c : Nat} (hs : st = .rxWaitHigh ∨ st = .rxWaitLow)
    (hc : c + 1 < s.cfg.pollCap ∨ (st = .rxWaitHigh ∧ s.wireAt 0 = true) ∨ (st = .rxWaitLow ∧ s.wireAt 0 = false)) :
    rxBitEnds (s.inPhase st .input c) = false := by
  have hl : (s.inPhase st .input c).line = s.wireAt 0 := by rw [line_of_input rfl, inPhase_wireAt]
  have hp : (s.inPhase st .input c).lastPoll = decide (s.cfg.pollCap ≤ c + 1) := rfl
  rcases hs with rfl | rfl <;> rcases hc with hc | ⟨h, hw⟩ | ⟨h, hw⟩ <;>
    simp_all [rxBitEnds, timesOut, samples]

/-- The end condition of a bit in a delay tick that is not its last. -/
theorem rxBitEnds_delay {s : State} {c : Nat} (hc : 1 < c) : rxBitEnds (s.inPhase .rxDelay .input c) = false := by
  have : ¬ c ≤ 1 := by omega
  simp [rxBitEnds, timesOut, samples, this]

/-- A bit whose line rises at poll `h` and falls at poll `l` after that: sampled `2*T` ticks after the fall (R113). -/
theorem bitRun_sampled {s : State} (hs : s.st = .rxWaitHigh) (hd : s.dir = .input) (hc : s.cnt = 0) {h l : Nat}
    (hh : h < s.cfg.pollCap) (hl : l < s.cfg.pollCap) (hlow : ∀ j < h, s.wireAt j = false) (hhigh : s.wireAt h = true)
    (hhi' : ∀ j < l, s.wireAt (h + 1 + j) = true) (hlo' : s.wireAt (h + 1 + l) = false)
    (hr : NoReset s (h + 1 + (l + 1) + s.sampleDelay)) : BitRun s (h + 1 + (l + 1) + s.sampleDelay) := by
  have hcap := s.one_le_pollCap
  have ht := s.one_le_t
  have hb : s.bitTicks = 2 * s.cfg.pollCap + s.sampleDelay := rfl
  have hsd : s.sampleDelay = 2 * s.t := rfl
  have h1 : ticks (h + 1) s = (elapseN (h + 1) s).inPhase .rxWaitLow .input 0 := by
    rw [ticks_waitHigh_succeeds hs hd hc hh hlow hhigh (hr.mono (by omega)), startWaitLow_eq (by simpa using hd)]
  have hfail : ∀ j ≤ h, ticks j s = (elapseN j s).inPhase .rxWaitHigh .input j := fun j hj =>
    ticks_waitHigh_failing hs hd hc (by omega) (fun i hi => hlow i (by omega)) (hr.mono (by omega))
  have hhighEnds : ∀ j ≤ h, rxBitEnds (ticks j s) = false := by
    intro j hj
    rw [hfail j hj]
    refine rxBitEnds_wait (Or.inl rfl) ?_
    rcases Nat.lt_or_eq_of_le hj with hj' | rfl
    · exact Or.inl (by rw [elapseN_cfg]; omega)
    · exact Or.inr (Or.inl ⟨rfl, by simpa using hhigh⟩)
  set u := (elapseN (h + 1) s).inPhase .rxWaitLow .input 0 with hu
  have hur : ∀ k, h + 1 + k ≤ h + 1 + (l + 1) + s.sampleDelay → NoReset u k := by
    intro k hk j hj
    rw [hu, inPhase_inputAt, inputAt_elapseN]
    exact hr _ (by omega)
  have huw : ∀ j, u.wireAt j = s.wireAt (h + 1 + j) := by intro j; simp [hu]
  have hucap : u.cfg.pollCap = s.cfg.pollCap := by simp [hu]
  have husd : u.sampleDelay = s.sampleDelay := by simp [hu]
  have hue : ∀ k st c, (elapseN k u).inPhase st .input c = (elapseN (h + 1 + k) s).inPhase st .input c := by
    intro k st c
    rw [hu, elapseN_inPhase, ← elapseN_add]
    rfl
  have hadd : ∀ k, ticks (h + 1 + k) s = ticks k u := fun k => by rw [ticks_add, h1]
  have hhi : ∀ j < l, u.wireAt j = true := fun j hj => by rw [huw]; exact hhi' j hj
  have hlo : u.wireAt l = false := by rw [huw]; exact hlo'
  have hfail2 : ∀ j ≤ l, ticks j u = (elapseN j u).inPhase .rxWaitLow .input j := fun j hj =>
    ticks_waitLow_failing rfl rfl rfl (by omega) (fun i hi => hhi i (by omega)) (hur j (by omega))
  have h2 : ticks (l + 1) u = (elapseN (l + 1) u).inPhase .rxDelay .input s.sampleDelay := by
    rw [ticks_waitLow_succeeds rfl rfl rfl (by omega) hhi hlo (hur _ (by omega)), startDelay_eq (by simp [hu]),
      elapseN_sampleDelay, husd]
  set v := (elapseN (l + 1) u).inPhase .rxDelay .input s.sampleDelay with hv
  have hvsd : v.sampleDelay = s.sampleDelay := by rw [hv, inPhase_sampleDelay, elapseN_sampleDelay, husd]
  have hvr : ∀ k, h + 1 + (l + 1) + k ≤ h + 1 + (l + 1) + s.sampleDelay → NoReset v k := by
    intro k hk j hj
    rw [hv, inPhase_inputAt, inputAt_elapseN]
    exact hur (l + 1 + k) (by omega) _ (by omega)
  have hve : ∀ k st c, (elapseN k v).inPhase st .input c = (elapseN (h + 1 + (l + 1) + k) s).inPhase st .input c := by
    intro k st c
    rw [hv, elapseN_inPhase, inPhase_inPhase, ← elapseN_add, hue, Nat.add_assoc (h + 1)]
  have hadd2 : ∀ k, ticks (h + 1 + (l + 1) + k) s = ticks k v := fun k => by
    rw [Nat.add_assoc, hadd, ticks_add, h2]
  have hdel : ∀ j < s.sampleDelay, ticks j v = (elapseN j v).inPhase .rxDelay .input (s.sampleDelay - j) := by
    intro j hj
    rw [ticks_delay rfl rfl hvsd.symm (by omega) (hvr j (by omega)), hvsd]
  refine ⟨by omega, by omega, ?_, ?_⟩
  · intro j hj
    rcases Nat.lt_or_ge j (h + 1) with hj1 | hj1
    · exact ⟨_, _, Or.inl rfl, hfail j (by omega), fun _ => hhighEnds j (by omega)⟩
    · obtain ⟨i, rfl⟩ : ∃ i, j = h + 1 + i := ⟨j - (h + 1), by omega⟩
      rcases Nat.lt_or_ge i (l + 1) with hi | hi
      · refine ⟨.rxWaitLow, i, by simp, by rw [hadd, hfail2 i (by omega), hue], fun _ => ?_⟩
        rw [hadd, hfail2 i (by omega)]
        refine rxBitEnds_wait (Or.inr rfl) ?_
        rcases Nat.lt_or_eq_of_le (Nat.lt_succ_iff.1 hi) with hi' | rfl
        · exact Or.inl (by rw [elapseN_cfg, hucap]; omega)
        · exact Or.inr (Or.inr ⟨rfl, by simpa using hlo⟩)
      · obtain ⟨d, rfl⟩ : ∃ d, i = l + 1 + d := ⟨i - (l + 1), by omega⟩
        rw [← Nat.add_assoc, hadd2, hdel d (by omega)]
        exact ⟨_, _, by simp, hve _ _ _, fun _ => rxBitEnds_delay (by omega)⟩
  · have hlast : h + 1 + (l + 1) + s.sampleDelay - 1 = h + 1 + (l + 1) + (s.sampleDelay - 1) := by omega
    refine .sampled ?_ ?_
    · rw [hadd2, ← hvsd, ticks_sample rfl rfl hvsd.symm (by rw [hvsd]; exact hvr _ (by omega)), hve, hvsd, hlast]
      congr 1
      rw [hv, inPhase_wireAt, wireAt_elapseN, huw]
      congr 1
      omega
    · rw [hlast, hadd2, hdel _ (by omega), hve]
      congr 1
      omega

/-- A bit whose line rises at poll `h` and does not fall in the wait for low: the byte times out (R112, R116). -/
theorem bitRun_neverFell {s : State} (hs : s.st = .rxWaitHigh) (hd : s.dir = .input) (hc : s.cnt = 0) {h : Nat}
    (hh : h < s.cfg.pollCap) (hlow : ∀ j < h, s.wireAt j = false) (hhigh : s.wireAt h = true)
    (hhi' : ∀ j < s.cfg.pollCap, s.wireAt (h + 1 + j) = true)
    (hr : NoReset s (h + 1 + s.cfg.pollCap)) : BitRun s (h + 1 + s.cfg.pollCap) := by
  have hcap := s.one_le_pollCap
  have ht := s.one_le_t
  have hb : s.bitTicks = 2 * s.cfg.pollCap + s.sampleDelay := rfl
  have hsd : s.sampleDelay = 2 * s.t := rfl
  have h1 : ticks (h + 1) s = (elapseN (h + 1) s).inPhase .rxWaitLow .input 0 := by
    rw [ticks_waitHigh_succeeds hs hd hc hh hlow hhigh (hr.mono (by omega)), startWaitLow_eq (by simpa using hd)]
  have hfail : ∀ j ≤ h, ticks j s = (elapseN j s).inPhase .rxWaitHigh .input j := fun j hj =>
    ticks_waitHigh_failing hs hd hc (by omega) (fun i hi => hlow i (by omega)) (hr.mono (by omega))
  have hhighEnds : ∀ j ≤ h, rxBitEnds (ticks j s) = false := by
    intro j hj
    rw [hfail j hj]
    refine rxBitEnds_wait (Or.inl rfl) ?_
    rcases Nat.lt_or_eq_of_le hj with hj' | rfl
    · exact Or.inl (by rw [elapseN_cfg]; omega)
    · exact Or.inr (Or.inl ⟨rfl, by simpa using hhigh⟩)
  set u := (elapseN (h + 1) s).inPhase .rxWaitLow .input 0 with hu
  have hur : ∀ k, h + 1 + k ≤ h + 1 + s.cfg.pollCap → NoReset u k := by
    intro k hk j hj
    rw [hu, inPhase_inputAt, inputAt_elapseN]
    exact hr _ (by omega)
  have huw : ∀ j, u.wireAt j = s.wireAt (h + 1 + j) := by intro j; simp [hu]
  have hucap : u.cfg.pollCap = s.cfg.pollCap := by simp [hu]
  have husd : u.sampleDelay = s.sampleDelay := by simp [hu]
  have hue : ∀ k st c, (elapseN k u).inPhase st .input c = (elapseN (h + 1 + k) s).inPhase st .input c := by
    intro k st c
    rw [hu, elapseN_inPhase, ← elapseN_add]
    rfl
  have hadd : ∀ k, ticks (h + 1 + k) s = ticks k u := fun k => by rw [ticks_add, h1]
  have hhi : ∀ j < s.cfg.pollCap, u.wireAt j = true := fun j hj => by rw [huw]; exact hhi' j hj
  have hfail2 : ∀ j < s.cfg.pollCap, ticks j u = (elapseN j u).inPhase .rxWaitLow .input j := fun j hj =>
    ticks_waitLow_failing rfl rfl rfl (by omega) (fun i hi => hhi i (by omega)) (hur j (by omega))
  refine ⟨by omega, by omega, ?_, ?_⟩
  · intro j hj
    rcases Nat.lt_or_ge j (h + 1) with hj1 | hj1
    · exact ⟨_, _, Or.inl rfl, hfail j (by omega), fun _ => hhighEnds j (by omega)⟩
    · obtain ⟨i, rfl⟩ : ∃ i, j = h + 1 + i := ⟨j - (h + 1), by omega⟩
      rw [hadd, hfail2 i (by omega)]
      exact ⟨_, _, by simp, hue _ _ _, fun hlt => rxBitEnds_wait (Or.inr rfl) (Or.inl (by
        rw [elapseN_cfg, hucap]; omega))⟩
  · have hlast : h + 1 + s.cfg.pollCap - 1 = h + 1 + (s.cfg.pollCap - 1) := by omega
    refine .neverFell ?_ ?_ ?_
    · rw [hadd, ← hucap, ticks_waitLow_timesOut rfl rfl rfl (by rw [hucap]; exact hhi)
        (by rw [hucap]; exact hur _ (by omega)), hue, hucap]
    · rw [hlast, hadd, hfail2 _ (by omega), hue]
    · rw [hlast, ← huw]
      exact hhi _ (by omega)

/-- A bit whose line does not rise in the wait for high: the byte times out (R111, R115). -/
theorem bitRun_neverRose {s : State} (hs : s.st = .rxWaitHigh) (hd : s.dir = .input) (hc : s.cnt = 0)
    (hlow : ∀ j < s.cfg.pollCap, s.wireAt j = false) (hr : NoReset s s.cfg.pollCap) : BitRun s s.cfg.pollCap := by
  have hcap := s.one_le_pollCap
  have ht := s.one_le_t
  have hb : s.bitTicks = 2 * s.cfg.pollCap + s.sampleDelay := rfl
  have hsd : s.sampleDelay = 2 * s.t := rfl
  have hfail : ∀ j < s.cfg.pollCap, ticks j s = (elapseN j s).inPhase .rxWaitHigh .input j := fun j hj =>
    ticks_waitHigh_failing hs hd hc (by omega) (fun i hi => hlow i (by omega)) (hr.mono (by omega))
  refine ⟨by omega, by omega, ?_, ?_⟩
  · intro j hj
    rw [hfail j hj]
    exact ⟨_, _, Or.inl rfl, rfl, fun hlt => rxBitEnds_wait (Or.inl rfl) (Or.inl (by rw [elapseN_cfg]; omega))⟩
  · exact .neverRose (ticks_waitHigh_timesOut hs hd hc hlow (hr.mono (by omega))) (hfail _ (by omega))
      (hlow _ (by omega))

/-- One bit, on any waveform (R113, R119): within `2*POLL_CAP + 2*T` ticks it is sampled or timed out. -/
theorem exists_bitRun {s : State} (hs : s.st = .rxWaitHigh) (hd : s.dir = .input) (hc : s.cnt = 0)
    (hr : NoReset s s.bitTicks) : ∃ k, BitRun s k := by
  have hcap := s.one_le_pollCap
  have hb : s.bitTicks = 2 * s.cfg.pollCap + s.sampleDelay := rfl
  rcases exists_least_or_none s.wireAt s.cfg.pollCap with ⟨h, hh, hlow, hhigh⟩ | hlow
  · rcases exists_least_or_none (fun j => !s.wireAt (h + 1 + j)) s.cfg.pollCap with ⟨l, hl, hhi, hlo⟩ | hhi
    · simp only [Bool.not_eq_false', Bool.not_eq_true'] at hhi hlo
      exact ⟨_, bitRun_sampled hs hd hc hh hl hlow hhigh hhi hlo (hr.mono (by omega))⟩
    · simp only [Bool.not_eq_false'] at hhi
      exact ⟨_, bitRun_neverFell hs hd hc hh hlow hhigh hhi (hr.mono (by omega))⟩
  · exact ⟨_, bitRun_neverRose hs hd hc hlow (hr.mono (by omega))⟩

/-- A bit ends in its run's last tick. -/
theorem BitRun.lastTick {s : State} {k : Nat} (h : BitRun s k) : rxBitEnds (ticks (k - 1) s) = true := by
  have hcap := s.one_le_pollCap
  cases h.ends with
  | sampled _ hl =>
    rw [hl]
    simp [rxBitEnds, samples]
  | neverRose _ hl hw =>
    have hp : ((elapseN (k - 1) s).inPhase .rxWaitHigh .input (s.cfg.pollCap - 1)).lastPoll = true := by
      simp only [State.lastPoll, inPhase_cfg, elapseN_cfg, inPhase_cnt, decide_eq_true_eq]
      omega
    rw [hl, rxBitEnds, timesOut, line_of_input rfl, hp]
    simp [hw]
  | neverFell _ hl hw =>
    have hp : ((elapseN (k - 1) s).inPhase .rxWaitLow .input (s.cfg.pollCap - 1)).lastPoll = true := by
      simp only [State.lastPoll, inPhase_cfg, elapseN_cfg, inPhase_cnt, decide_eq_true_eq]
      omega
    rw [hl, rxBitEnds, timesOut, line_of_input rfl, hp]
    simp [hw]

/-- The state in and after the sampling tick of a bit whose line rises at poll `h` and falls at poll `l` after that
(R113). -/
theorem ticks_bit_sampled {s : State} (hs : s.st = .rxWaitHigh) (hd : s.dir = .input) (hc : s.cnt = 0) {h l : Nat}
    (hh : h < s.cfg.pollCap) (hl : l < s.cfg.pollCap) (hlow : ∀ j < h, s.wireAt j = false) (hhigh : s.wireAt h = true)
    (hhi : ∀ j < l, s.wireAt (h + 1 + j) = true) (hlo : s.wireAt (h + 1 + l) = false)
    (hr : NoReset s (h + 1 + (l + 1) + s.sampleDelay)) :
    ticks (h + 1 + (l + 1) + s.sampleDelay) s = sampleBit (s.wireAt (h + 1 + l + s.sampleDelay))
      ((elapseN (h + 1 + (l + 1) + s.sampleDelay) s).inPhase .rxDelay .input 1) ∧
    ticks (h + 1 + l + s.sampleDelay) s = (elapseN (h + 1 + l + s.sampleDelay) s).inPhase .rxDelay .input 1 := by
  have hsd : 1 ≤ s.sampleDelay := by
    have := s.one_le_t
    simp only [State.sampleDelay]
    omega
  have h1 : ticks (h + 1) s = (elapseN (h + 1) s).inPhase .rxWaitLow .input 0 := by
    rw [ticks_waitHigh_succeeds hs hd hc hh hlow hhigh (hr.mono (by omega)), startWaitLow_eq (by simpa using hd)]
  set u := (elapseN (h + 1) s).inPhase .rxWaitLow .input 0 with hu
  have huw : ∀ j, u.wireAt j = s.wireAt (h + 1 + j) := by intro j; simp [hu]
  have hucap : u.cfg.pollCap = s.cfg.pollCap := by simp [hu]
  have hur : ∀ k, h + 1 + k ≤ h + 1 + (l + 1) + s.sampleDelay → NoReset u k := by
    intro k hk j hj
    rw [hu, inPhase_inputAt, inputAt_elapseN]
    exact hr _ (by omega)
  have h2 : ticks (l + 1) u = (elapseN (l + 1) u).inPhase .rxDelay .input s.sampleDelay := by
    rw [ticks_waitLow_succeeds rfl rfl rfl (by omega) (fun j hj => by rw [huw]; exact hhi j hj)
      (by rw [huw]; exact hlo) (hur _ (by omega)), startDelay_eq (by simp [hu])]
    simp [hu]
  set v := (elapseN (l + 1) u).inPhase .rxDelay .input s.sampleDelay with hv
  have hvsd : v.sampleDelay = s.sampleDelay := by simp [hv, hu]
  have hvr : NoReset v s.sampleDelay := by
    intro j hj
    rw [hv, inPhase_inputAt, inputAt_elapseN]
    exact hur (l + 1 + s.sampleDelay) (by omega) _ (by omega)
  have h3 := ticks_sample (s := v) rfl rfl hvsd.symm (by rw [hvsd]; exact hvr)
  rw [hvsd] at h3
  have hw : v.wireAt (s.sampleDelay - 1) = s.wireAt (h + 1 + l + s.sampleDelay) := by
    rw [hv, inPhase_wireAt, wireAt_elapseN, huw]
    congr 1
    omega
  have hve : ∀ k, (elapseN k v).inPhase .rxDelay .input 1 =
      (elapseN (h + 1 + (l + 1 + k)) s).inPhase .rxDelay .input 1 := by
    intro k
    rw [hv, elapseN_inPhase, inPhase_inPhase, ← elapseN_add, hu, elapseN_inPhase, inPhase_inPhase, ← elapseN_add]
  constructor
  · rw [Nat.add_assoc, ticks_add, h1, ticks_add, h2, h3, hw, hve]
  · have h4 := ticks_delay (s := v) rfl rfl hvsd.symm (k := s.sampleDelay - 1) (by omega) (hvr.mono (by omega))
    have hone : v.sampleDelay - (s.sampleDelay - 1) = 1 := by omega
    rw [show h + 1 + l + s.sampleDelay = h + 1 + (l + 1 + (s.sampleDelay - 1)) by omega, ticks_add, h1, ticks_add, h2,
      h4, hone, hve]

/-- The state after a bit whose line rises at poll `h` and does not fall (R112, R116). -/
theorem ticks_bit_neverFell {s : State} (hs : s.st = .rxWaitHigh) (hd : s.dir = .input) (hc : s.cnt = 0) {h : Nat}
    (hh : h < s.cfg.pollCap) (hlow : ∀ j < h, s.wireAt j = false) (hhigh : s.wireAt h = true)
    (hhi : ∀ j < s.cfg.pollCap, s.wireAt (h + 1 + j) = true) (hr : NoReset s (h + 1 + s.cfg.pollCap)) :
    ticks (h + 1 + s.cfg.pollCap) s =
      timeoutLow ((elapseN (h + 1 + s.cfg.pollCap) s).inPhase .rxWaitLow .input (s.cfg.pollCap - 1)) := by
  have h1 : ticks (h + 1) s = (elapseN (h + 1) s).inPhase .rxWaitLow .input 0 := by
    rw [ticks_waitHigh_succeeds hs hd hc hh hlow hhigh (hr.mono (by omega)), startWaitLow_eq (by simpa using hd)]
  set u := (elapseN (h + 1) s).inPhase .rxWaitLow .input 0 with hu
  have huw : ∀ j, u.wireAt j = s.wireAt (h + 1 + j) := by intro j; simp [hu]
  have hucap : u.cfg.pollCap = s.cfg.pollCap := by simp [hu]
  have hur : NoReset u s.cfg.pollCap := by
    intro j hj
    rw [hu, inPhase_inputAt, inputAt_elapseN]
    exact hr _ (by omega)
  have h2 := ticks_waitLow_timesOut (s := u) rfl rfl rfl (by rw [hucap]; intro j hj; rw [huw]; exact hhi j hj)
    (by rw [hucap]; exact hur)
  rw [hucap] at h2
  rw [ticks_add, h1, h2]
  congr 1
  rw [hu, elapseN_inPhase, inPhase_inPhase, ← elapseN_add]

/-! ### One byte, on any waveform -/

/-- A state of the receive phase `j` ticks after `s`: only the place and the bits sampled so far differ from `s`. -/
def Receiving (s : State) (j : Nat) (t : State) : Prop :=
  ∃ st c sh bc, (st = .rxWaitHigh ∨ st = .rxWaitLow ∨ st = .rxDelay) ∧
    t = ((elapseN j s).inPhase st .input c).withBits sh bc s.curbit

/-- A byte's run of `k` ticks: it stays in the receive phase, ends in no tick before its last, and then exactly one
byte `v` is stored and the next byte begins or the transaction finishes (R114). -/
structure ByteRun (s : State) (k : Nat) (v : Byte) : Prop where
  pos : 1 ≤ k
  during : ∀ j < k, Receiving s j (ticks j s)
  goesOn : ∀ j, j + 1 < k → rxByteEnds (ticks j s) = false
  lastTick : rxByteEnds (ticks (k - 1) s) = true
  ends : ∃ t, Receiving s k t ∧ ticks k s = nextByte (store v t)

theorem rxByteEnds_of_rxBitEnds {s : State} (h : rxBitEnds s = false) : rxByteEnds s = false := by
  simp only [rxBitEnds, Bool.or_eq_false_iff] at h
  simp [rxByteEnds, h.1, h.2]

theorem inPhase_receiving (s : State) (j : Nat) (st : SeqState) (c : Nat)
    (hst : st = .rxWaitHigh ∨ st = .rxWaitLow ∨ st = .rxDelay) :
    Receiving s j ((elapseN j s).inPhase st .input c) := by
  refine ⟨st, c, s.shreg, s.bitcnt, hst, ?_⟩
  rw [withBits_self] <;> simp

/-- Time goes on in the receive phase. -/
theorem Receiving.trans {s t u : State} {i j : Nat} (h₁ : Receiving s i t) (h₂ : Receiving t j u) :
    Receiving s (i + j) u := by
  obtain ⟨st₁, c₁, sh₁, bc₁, -, rfl⟩ := h₁
  obtain ⟨st, c, sh, bc, hst, rfl⟩ := h₂
  refine ⟨st, c, sh, bc, hst, ?_⟩
  rw [elapseN_withBits, elapseN_inPhase, ← elapseN_add]
  rfl

theorem Receiving.inputAt {s t : State} {j : Nat} (h : Receiving s j t) (i : Nat) :
    t.inputAt i = s.inputAt (j + i) := by
  obtain ⟨st, c, sh, bc, -, rfl⟩ := h
  simp

theorem Receiving.noReset {s t : State} {j k : Nat} (h : Receiving s j t) (hr : NoReset s (j + k)) : NoReset t k := by
  intro i hi
  rw [h.inputAt]
  exact hr _ (by omega)

theorem Receiving.cfg {s t : State} {j : Nat} (h : Receiving s j t) : t.cfg = s.cfg := by
  obtain ⟨st, c, sh, bc, -, rfl⟩ := h
  simp

theorem Receiving.bitTicks {s t : State} {j : Nat} (h : Receiving s j t) : t.bitTicks = s.bitTicks := by
  simp [State.bitTicks, State.sampleDelay, State.t, h.cfg]

theorem Receiving.busy {s t : State} {j : Nat} (h : Receiving s j t) : t.busy = true := by
  obtain ⟨st, c, sh, bc, hst, rfl⟩ := h
  rcases hst with rfl | rfl | rfl <;> rfl

/-- A sample that does not complete the byte. -/
theorem sampleBit_bit {s : State} {d : Bool} (h : s.bitcnt ≠ 7) (hd : s.dir = .input) :
    sampleBit d s = (s.inPhase .rxWaitHigh .input 0).withBits (shiftIn s.shreg d) (s.bitcnt + 1) s.curbit := by
  rw [sampleBit, if_neg h, ← hd]
  rfl

/-- The eighth sample. -/
theorem sampleBit_byte {s : State} {d : Bool} (h : s.bitcnt = 7) :
    sampleBit d s = nextByte (store (shiftIn s.shreg d) s) := by rw [sampleBit, if_pos h]

/-- The end condition of a byte in a bit's last tick that times out. -/
theorem rxByteEnds_timesOut {s : State} {st : SeqState} {c : Nat} (hc : s.cfg.pollCap ≤ c + 1)
    (h : (st = .rxWaitHigh ∧ s.wireAt 0 = false) ∨ (st = .rxWaitLow ∧ s.wireAt 0 = true)) :
    rxByteEnds (s.inPhase st .input c) = true := by
  have hl : (s.inPhase st .input c).line = s.wireAt 0 := by rw [line_of_input rfl, inPhase_wireAt]
  have hp : (s.inPhase st .input c).lastPoll = decide (s.cfg.pollCap ≤ c + 1) := rfl
  rcases h with ⟨rfl, hw⟩ | ⟨rfl, hw⟩ <;> simp_all [rxByteEnds, timesOut]

/-- The end condition of a byte in a bit's sampling tick. -/
theorem rxByteEnds_sample (s : State) : rxByteEnds (s.inPhase .rxDelay .input 1) = (s.bitcnt == 7) := by
  simp [rxByteEnds, timesOut, samples]

/-- A bit sampled, then the rest of the byte. -/
theorem ByteRun.bit {s : State} {k i : Nat} {v : Byte} (hbn : s.bitcnt ≠ 7) (hk : 1 ≤ k)
    (hdur : ∀ j < k, Receiving s j (ticks j s)) (hgo : ∀ j, j + 1 < k → rxByteEnds (ticks j s) = false)
    (hlast : rxByteEnds (ticks (k - 1) s) = (s.bitcnt == 7)) (hu : Receiving s k (ticks k s))
    (hbyte : ByteRun (ticks k s) i v) : ByteRun s (k + i) v where
  pos := by omega
  during j hj := by
    rcases Nat.lt_or_ge j k with hjk | hjk
    · exact hdur j hjk
    · obtain ⟨d, rfl⟩ : ∃ d, j = k + d := ⟨j - k, by omega⟩
      rw [ticks_add]
      exact hu.trans (hbyte.during d (by omega))
  goesOn j hj := by
    have hip := hbyte.pos
    rcases Nat.lt_or_ge j k with hjk | hjk
    · rcases Nat.lt_or_ge (j + 1) k with hjk' | hjk'
      · exact hgo j hjk'
      · obtain rfl : j = k - 1 := by omega
        rw [hlast]
        simpa using hbn
    · obtain ⟨d, rfl⟩ : ∃ d, j = k + d := ⟨j - k, by omega⟩
      rw [ticks_add]
      exact hbyte.goesOn d (by omega)
  lastTick := by
    have hip := hbyte.pos
    have : k + i - 1 = k + (i - 1) := by omega
    rw [this, ticks_add]
    exact hbyte.lastTick
  ends := by
    obtain ⟨t, ht, he⟩ := hbyte.ends
    exact ⟨t, hu.trans ht, by rw [ticks_add, he]⟩

/-- The ticks of a bit as ticks of a byte. -/
theorem BitRun.receiving {s : State} {k : Nat} (h : BitRun s k) :
    (∀ j < k, Receiving s j (ticks j s)) ∧ ∀ j, j + 1 < k → rxByteEnds (ticks j s) = false := by
  constructor
  · intro j hj
    obtain ⟨st, c, hst, heq, -⟩ := h.during j hj
    rw [heq]
    exact inPhase_receiving s j st c hst
  · intro j hj
    obtain ⟨st, c, hst, -, hgo⟩ := h.during j (by omega)
    exact rxByteEnds_of_rxBitEnds (hgo hj)

/-- A bit that ends in a timeout of the wait for high ends the byte with `SENT_HI` (R115). -/
theorem BitRun.byte_neverRose {s : State} {k : Nat} (h : BitRun s k)
    (he : ticks k s = timeoutHigh ((elapseN k s).inPhase .rxWaitHigh .input (s.cfg.pollCap - 1)))
    (hl : ticks (k - 1) s = (elapseN (k - 1) s).inPhase .rxWaitHigh .input (s.cfg.pollCap - 1))
    (hw : s.wireAt (k - 1) = false) : ByteRun s k s.cfg.sentHi where
  pos := h.pos
  during := h.receiving.1
  goesOn := h.receiving.2
  lastTick := by
    rw [hl]
    exact rxByteEnds_timesOut (by rw [elapseN_cfg]; omega) (Or.inl ⟨rfl, by simpa using hw⟩)
  ends := ⟨_, inPhase_receiving s k .rxWaitHigh (s.cfg.pollCap - 1) (by simp), by
    rw [he, timeoutHigh, timeoutEntry, inPhase_cfg, elapseN_cfg]⟩

/-- A bit that ends in a timeout of the wait for low ends the byte with `SENT_LO` (R116). -/
theorem BitRun.byte_neverFell {s : State} {k : Nat} (h : BitRun s k)
    (he : ticks k s = timeoutLow ((elapseN k s).inPhase .rxWaitLow .input (s.cfg.pollCap - 1)))
    (hl : ticks (k - 1) s = (elapseN (k - 1) s).inPhase .rxWaitLow .input (s.cfg.pollCap - 1))
    (hw : s.wireAt (k - 1) = true) : ByteRun s k s.cfg.sentLo where
  pos := h.pos
  during := h.receiving.1
  goesOn := h.receiving.2
  lastTick := by
    rw [hl]
    exact rxByteEnds_timesOut (by rw [elapseN_cfg]; omega) (Or.inr ⟨rfl, by simpa using hw⟩)
  ends := ⟨_, inPhase_receiving s k .rxWaitLow (s.cfg.pollCap - 1) (by simp), by
    rw [he, timeoutLow, timeoutEntry, inPhase_cfg, elapseN_cfg]⟩

/-- One byte, or the rest of one, on any waveform (R114, R119). -/
theorem exists_byteRun (b : Nat) {s : State} (hs : s.st = .rxWaitHigh) (hd : s.dir = .input) (hc : s.cnt = 0)
    (hb : s.bitcnt.toNat + b = 7) (hr : NoReset s ((b + 1) * s.bitTicks)) :
    ∃ k v, k ≤ (b + 1) * s.bitTicks ∧ ByteRun s k v := by
  induction b generalizing s with
  | zero =>
    rw [Nat.zero_add, Nat.one_mul] at hr ⊢
    have hb7 : s.bitcnt = 7 := BitVec.eq_of_toNat_eq (by simpa using hb)
    obtain ⟨k, hrun⟩ := exists_bitRun hs hd hc hr
    cases hrun.ends with
    | sampled h hl =>
      exact ⟨k, _, hrun.bound, hrun.pos, hrun.receiving.1, hrun.receiving.2, by rw [hl, rxByteEnds_sample]; simp [hb7],
        _, inPhase_receiving s k .rxDelay 1 (by simp), h.trans (sampleBit_byte (by simpa using hb7))⟩
    | neverRose h hl hw => exact ⟨k, _, hrun.bound, hrun.byte_neverRose h hl hw⟩
    | neverFell h hl hw => exact ⟨k, _, hrun.bound, hrun.byte_neverFell h hl hw⟩
  | succ b ih =>
    have hmul : (b + 1 + 1) * s.bitTicks = s.bitTicks + (b + 1) * s.bitTicks := by
      rw [Nat.add_mul (b + 1), Nat.one_mul]; omega
    rw [hmul] at hr ⊢
    have hbn : s.bitcnt ≠ 7 := by
      intro h
      rw [h] at hb
      simp at hb
    obtain ⟨k, hrun⟩ := exists_bitRun hs hd hc (hr.mono (by omega))
    have hbound := hrun.bound
    cases hrun.ends with
    | neverRose h hl hw => exact ⟨k, _, by omega, hrun.byte_neverRose h hl hw⟩
    | neverFell h hl hw => exact ⟨k, _, by omega, hrun.byte_neverFell h hl hw⟩
    | sampled h hl =>
      rw [sampleBit_bit (by simpa using hbn) rfl, inPhase_inPhase, inPhase_curbit, elapseN_curbit] at h
      have hu : Receiving s k (ticks k s) := ⟨.rxWaitHigh, 0, _, _, Or.inl rfl, h⟩
      have hubc : (ticks k s).bitcnt.toNat + b = 7 := by
        rw [h, withBits_bitcnt, inPhase_bitcnt, elapseN_bitcnt, BitVec.toNat_add]
        simp
        omega
      obtain ⟨i, v, hib, hbyte⟩ := ih (s := ticks k s) (by rw [h]; rfl) (by rw [h]; rfl) (by rw [h]; rfl) hubc
        (by rw [hu.bitTicks]; exact hu.noReset (hr.mono (by omega)))
      rw [hu.bitTicks] at hib
      exact ⟨k + i, v, by omega, .bit hbn hrun.pos hrun.receiving.1 hrun.receiving.2
        (by rw [hl, rxByteEnds_sample, elapseN_bitcnt]) hu hbyte⟩

/-- The tick that ends a byte, and what it stores: the sentinel of the wait it times out in, else the eight samples, the
last one the line in this tick (R113 to R116). -/
theorem tick_of_rxByteEnds {s : State} (hr : s.input.rst = false) (h : rxByteEnds s = true) :
    ∃ v, tick s = nextByte (store v (elapse s)) ∧
      (s.st = .rxWaitHigh ∧ s.line = false ∧ v = s.cfg.sentHi ∨ s.st = .rxWaitLow ∧ s.line = true ∧ v = s.cfg.sentLo ∨
        s.st = .rxDelay ∧ s.bitcnt = 7 ∧ v = shiftIn s.shreg s.line) := by
  simp only [rxByteEnds, timesOut, samples, State.lastPoll, Bool.or_eq_true, Bool.and_eq_true, beq_iff_eq,
    decide_eq_true_eq, Bool.not_eq_true'] at h
  rcases h with ⟨hp, ⟨hs, hl⟩ | ⟨hs, hl⟩⟩ | ⟨⟨hs, hc⟩, hb⟩
  · exact ⟨_, by rw [tick_rxWaitHigh hr hs, tickWaitHigh_elapse, hl, if_neg (by simp), if_pos hp, timeoutHigh,
      timeoutEntry, elapse_cfg], .inl ⟨hs, hl, rfl⟩⟩
  · exact ⟨_, by rw [tick_rxWaitLow hr hs, tickWaitLow_elapse, hl, if_neg (by simp), if_pos hp, timeoutLow,
      timeoutEntry, elapse_cfg], .inr (.inl ⟨hs, hl, rfl⟩)⟩
  · exact ⟨_, by rw [tick_rxDelay hr hs, tickDelay_elapse, if_neg (by omega), if_pos hb], .inr (.inr ⟨hs, hb, rfl⟩)⟩

/-! ### One byte, on a conforming waveform -/

/-- The value of a byte under reception after the bits `d 0`, `d 1`, … of a sequence. -/
def shiftedIn (sh : Byte) (d : Nat → Bool) : Nat → Byte
  | 0 => sh
  | k + 1 => shiftIn (shiftedIn sh d k) (d k)

theorem shiftedIn_succ' (sh : Byte) (d : Nat → Bool) (k : Nat) :
    shiftedIn sh d (k + 1) = shiftedIn (shiftIn sh (d 0)) (fun i => d (i + 1)) k := by
  induction k with
  | zero => rfl
  | succ k ih => rw [shiftedIn, ih, shiftedIn]

/-- Eight bits, the first the most significant, make the byte (R113, R114). -/
theorem shiftedIn_byte (v : Byte) : shiftedIn 0 (fun i => v.getLsbD (7 - i)) 8 = v := by
  revert v
  decide

/-- A bit whose line rises at poll `h` and falls at tick `f`, where the symbol of the bit `d` begins, ends in the
sample `d`, `2*T` ticks after the fall (R113, R117). -/
theorem bit_reads {s : State} (hs : s.st = .rxWaitHigh) (hd : s.dir = .input) (hc : s.cnt = 0) {f h : Nat} (hf : h < f)
    (hh : h < s.cfg.pollCap) (hl : f - h - 1 < s.cfg.pollCap) (hlow : ∀ j < h, s.wireAt j = false)
    (hhigh : ∀ j, h ≤ j → j < f → s.wireAt j = true) {d : Bool}
    (hsym : ∀ j < s.period, s.wireAt (f + j) = decide (s.low d ≤ j)) (hr : NoReset s (f + s.sampleDelay + 1)) :
    (∀ j < f + s.sampleDelay + 1, Receiving s j (ticks j s)) ∧
    (∀ j, j + 1 < f + s.sampleDelay + 1 → rxByteEnds (ticks j s) = false) ∧
    rxByteEnds (ticks (f + s.sampleDelay) s) = (s.bitcnt == 7) ∧
    ticks (f + s.sampleDelay + 1) s = sampleBit d ((elapseN (f + s.sampleDelay + 1) s).inPhase .rxDelay .input 1) := by
  have ht := s.one_le_t
  have hper : s.period = 4 * s.t := rfl
  have hsd : s.sampleDelay = 2 * s.t := rfl
  have hpos := s.one_le_low d
  have hfall : s.wireAt f = false := by
    have := hsym 0 (by omega)
    rw [Nat.add_zero] at this
    rw [this, decide_eq_false_iff_not]
    omega
  obtain ⟨l, rfl⟩ : ∃ l, f = h + 1 + l := ⟨f - h - 1, by omega⟩
  have hhi : ∀ j < l, s.wireAt (h + 1 + j) = true := fun j hj => hhigh _ (by omega) (by omega)
  have hbit : s.wireAt (h + 1 + l + s.sampleDelay) = d := by
    rw [hsym _ (by omega)]
    cases d <;> simp [State.low, hsd] <;> omega
  have hk : h + 1 + l + s.sampleDelay + 1 = h + 1 + (l + 1) + s.sampleDelay := by omega
  rw [hk] at hr ⊢
  have hrun := bitRun_sampled hs hd hc hh (by omega) hlow (hhigh h (by omega) (by omega)) hhi hfall hr
  obtain ⟨hbitEq, hlastEq⟩ := ticks_bit_sampled hs hd hc hh (by omega) hlow (hhigh h (by omega) (by omega)) hhi hfall hr
  rw [hbit] at hbitEq
  refine ⟨?_, ?_, ?_, hbitEq⟩
  · intro j hj
    obtain ⟨st, c, hst, heq, -⟩ := hrun.during j hj
    rw [heq]
    exact inPhase_receiving s j st c hst
  · intro j hj
    obtain ⟨st, c, hst, -, hgo⟩ := hrun.during j (by omega)
    exact rxByteEnds_of_rxBitEnds (hgo hj)
  · rw [hlastEq, rxByteEnds_sample, elapseN_bitcnt]

/-- The rest of a byte (`b+1` bits) whose line rises at poll `h` and falls at tick `f`, where symbols of `4*T` ticks
begin (R117, R118): the bits of the symbols are sampled, `4*T` ticks apart. -/
theorem byteRun_reads (b : Nat) {s : State} (hs : s.st = .rxWaitHigh) (hd : s.dir = .input) (hc : s.cnt = 0)
    (hb : s.bitcnt.toNat + b = 7) {f h : Nat} (hf : h < f) (hh : h < s.cfg.pollCap) (hl : f - h - 1 < s.cfg.pollCap)
    (hlow : ∀ j < h, s.wireAt j = false) (hhigh : ∀ j, h ≤ j → j < f → s.wireAt j = true) (d : Nat → Bool)
    (hsym : ∀ i ≤ b, ∀ j < s.period, s.wireAt (f + s.period * i + j) = decide (s.low (d i) ≤ j))
    (hcap : 2 * s.t - 1 ≤ s.cfg.pollCap) (hr : NoReset s (f + s.period * b + s.sampleDelay + 1)) :
    ByteRun s (f + s.period * b + s.sampleDelay + 1) (shiftedIn s.shreg d (b + 1)) := by
  have ht := s.one_le_t
  have hper : s.period = 4 * s.t := rfl
  have hsd : s.sampleDelay = 2 * s.t := rfl
  have hd0 : ∀ j < s.period, s.wireAt (f + j) = decide (s.low (d 0) ≤ j) := fun j hj => by
    have := hsym 0 (by omega) j hj
    rwa [Nat.mul_zero, Nat.add_zero] at this
  obtain ⟨hdur, hgo, hlast, heq⟩ := bit_reads hs hd hc hf hh hl hlow hhigh hd0 (hr.mono (by omega))
  induction b generalizing s f h d with
  | zero =>
    have hb7 : s.bitcnt = 7 := BitVec.eq_of_toNat_eq (by simpa using hb)
    simp only [Nat.mul_zero, Nat.add_zero]
    refine ⟨by omega, hdur, hgo, by rw [Nat.add_sub_cancel, hlast]; simp [hb7], _,
      inPhase_receiving s _ .rxDelay 1 (by simp), ?_⟩
    rw [heq, sampleBit_byte (by simpa using hb7)]
    simp [shiftedIn]
  | succ b ih =>
    have hbn : s.bitcnt ≠ 7 := by
      intro h
      rw [h] at hb
      simp at hb
    rw [sampleBit_bit (by simpa using hbn) rfl, inPhase_inPhase, inPhase_curbit, elapseN_curbit] at heq
    set k := f + s.sampleDelay + 1 with hkdef
    set s' := ticks k s with hs'
    have hu : Receiving s k s' := ⟨.rxWaitHigh, 0, _, _, Or.inl rfl, heq⟩
    have hbc : s'.bitcnt.toNat + b = 7 := by
      rw [heq, withBits_bitcnt, inPhase_bitcnt, elapseN_bitcnt, BitVec.toNat_add]
      simp
      omega
    have hcfg' : s'.cfg = s.cfg := hu.cfg
    have ht' : s'.t = s.t := by simp [State.t, hcfg']
    have hper' : s'.period = s.period := by simp [State.period, ht']
    have hsd' : s'.sampleDelay = s.sampleDelay := by simp [State.sampleDelay, ht']
    have hlow' : ∀ b, s'.low b = s.low b := fun b => by simp [State.low, ht']
    have hw' : ∀ j, s'.wireAt j = s.wireAt (k + j) := fun j => by
      rw [heq, withBits_wireAt, inPhase_wireAt, wireAt_elapseN]
    have hsh' : s'.shreg = shiftIn s.shreg (d 0) := by rw [heq]; simp
    have hmul : s.period * (b + 1) = s.period + s.period * b := by rw [Nat.mul_add, Nat.mul_one, Nat.add_comm]
    have hle := s.low_lt_period (d 0)
    have hlt : (s.low (d 0) - (2 * s.t + 1)) < 2 * s.t - 1 := by
      have : s.low (d 0) = if d 0 then s.t else 3 * s.t := rfl
      cases hd' : d 0 <;> simp [hd'] at this <;> omega
    have hnext : ∀ j < s.period - s.sampleDelay - 1, s'.wireAt j = decide (s.low (d 0) - (2 * s.t + 1) ≤ j) := by
      intro j hj
      rw [hw', hkdef, show f + s.sampleDelay + 1 + j = f + (s.sampleDelay + 1 + j) by omega, hd0 _ (by omega)]
      congr 1
      rw [hsd, eq_iff_iff]
      omega
    have hr' : NoReset s' (s.period - s.sampleDelay - 1 + s.period * b + s.sampleDelay + 1) :=
      hu.noReset (hr.mono (by rw [hmul]; omega))
    have hsym' : ∀ i ≤ b, ∀ j < s'.period,
        s'.wireAt (2 * s.t - 1 + s'.period * i + j) = decide (s'.low (d (i + 1)) ≤ j) := by
      intro i hi j hj
      rw [hper'] at hj ⊢
      rw [hw', hlow', ← hsym (i + 1) (by omega) j hj]
      congr 1
      rw [Nat.mul_add, Nat.mul_one]
      omega
    have hf1 : 2 * s.t - 1 = s.period - s.sampleDelay - 1 := by omega
    have hK : k + (2 * s.t - 1 + s'.period * b + s'.sampleDelay + 1) = f + s.period * (b + 1) + s.sampleDelay + 1 := by
      rw [hper', hsd', hmul]
      omega
    have hd0' : ∀ j < s'.period, s'.wireAt (2 * s.t - 1 + j) = decide (s'.low (d 1) ≤ j) := fun j hj => by
      have := hsym' 0 (by omega) j hj
      rwa [Nat.mul_zero, Nat.add_zero] at this
    have hst' : s'.st = .rxWaitHigh := by rw [heq]; rfl
    have hdir' : s'.dir = .input := by rw [heq]; rfl
    have hcnt' : s'.cnt = 0 := by rw [heq]; rfl
    have hlow2 : ∀ j < s.low (d 0) - (2 * s.t + 1), s'.wireAt j = false := by
      intro j hj
      rw [hnext j (by omega), decide_eq_false_iff_not]
      omega
    have hhigh2 : ∀ j, s.low (d 0) - (2 * s.t + 1) ≤ j → j < 2 * s.t - 1 → s'.wireAt j = true := by
      intro j h1 h2
      rw [hnext j (by omega), decide_eq_true_eq]
      exact h1
    have hrr : NoReset s' (2 * s.t - 1 + s'.period * b + s'.sampleDelay + 1) := by
      rw [hper', hsd', hf1]
      exact hr'
    have hbit' := bit_reads hst' hdir' hcnt' hlt (by rw [hcfg']; omega) (by rw [hcfg']; omega) hlow2 hhigh2 hd0'
      (hrr.mono (by omega))
    have hbyte := ih hst' hdir' hcnt' hbc hlt (by rw [hcfg']; omega) (by rw [hcfg']; omega) hlow2
      hhigh2 (fun i => d (i + 1)) hsym' (by rw [ht', hcfg']; exact hcap) hrr s'.one_le_t rfl rfl hd0' hbit'.1 hbit'.2.1
      hbit'.2.2.1 hbit'.2.2.2
    rw [hsh', ← shiftedIn_succ'] at hbyte
    rw [← hK]
    exact .bit hbn (by omega) hdur hgo hlast hu hbyte

/-! ### What the end of a byte leaves -/

/-- A byte stored from a state that differs from `s` in the place and the bits sampled only. -/
theorem byteStored_nextByte (v : Byte) {s u : State} (hm : u.mem = s.mem) (hcfg : u.cfg = s.cfg)
    (hrx : u.rxidx = s.rxidx) (ho : SameOperands s u) (hc : SameCaller s u) (htx : u.txidx = s.txidx)
    (his : u.ieSaved = s.ieSaved) (hd : u.dir = s.dir) (hie : u.ie = s.ie) (hdone : u.done = false) :
    ByteStored v s (nextByte (store v u)) := by
  have ha : u.respAddr u.rxidx.toNat = s.respAddr s.rxidx.toNat := by
    simp [State.respAddr, State.wrap, hcfg, hrx, ho.rbase]
  have hl : (store v u).lastByte = s.lastByte := by simp [State.lastByte, hrx, ho.m]
  have hmem : (nextByte (store v u)).mem = Memory.write s.mem (s.respAddr s.rxidx.toNat) v := by
    unfold nextByte
    split <;> simp [store, startRxByte, startWaitHigh, finish, irqExit, releaseLine, memWrite, ha, hm]
  have hn : nextByte (store v u) = if s.lastByte then finish (store v u)
      else startRxByte { store v u with rxidx := (store v u).rxidx + 1 } := by
    unfold nextByte
    rw [hl]
  obtain ⟨o1, o2, o3, o4⟩ := ho
  obtain ⟨c1, c2, c3, c4, c5, c6, c7, c8⟩ := hc
  constructor
  · intro hwf
    unfold memRead
    rw [hmem]
    exact Memory.read_write_self hwf _ _
  · intro a h
    unfold memRead
    rw [hmem]
    exact Memory.read_write_of_ne _ _ h
  · rw [hn]
    split <;> constructor <;> assumption
  · rw [hn]
    split <;> constructor <;> assumption
  · rw [hn]
    split <;> assumption
  · rw [hn]
    split <;> assumption
  · intro h
    rw [hn, if_pos h]
    exact ⟨rfl, rfl, rfl, his, hrx⟩
  · intro h
    rw [hn, if_neg (by simp [h])]
    exact ⟨rfl, rfl, rfl, rfl, congrArg (· + 1) hrx, hdone, hd, hie⟩

theorem Passed.nextByte (v : Byte) {s u : State} {k : Nat} (h : Passed k s u) : Passed k s (nextByte (store v u)) := by
  obtain ⟨a, b, c, d, e, f⟩ := h
  unfold Machine.nextByte
  split <;> constructor <;> assumption

/-- The end of a byte after `k` ticks of the receive phase. -/
theorem Receiving.byteStored (v : Byte) {s u : State} {k : Nat} (h : Receiving s k u) (hk : 0 < k)
    (hd : s.dir = .input) :
    ByteStored v s (Machine.nextByte (store v u)) ∧ Passed k s (Machine.nextByte (store v u)) := by
  obtain ⟨st, c, sh, bc, -, rfl⟩ := h
  have hp : Passed k s (((elapseN k s).inPhase st .input c).withBits sh bc s.curbit) := by
    obtain ⟨a, b, c, d, e, f⟩ := passed_elapseN k s
    exact ⟨a, b, c, d, e, f⟩
  refine ⟨byteStored_nextByte v ?_ ?_ ?_ ?_ ?_ ?_ ?_ ?_ ?_ ?_, hp.nextByte v⟩ <;>
    first
    | (simp [hd]; done)
    | (constructor <;> simp)
    | exact elapseN_done k s hk

end Sys2Proof.Machine
end

