-- ==== Sys2Proof/Laws/Port.lean ====
section
/-! SUPPORT. The accesses the block issues at its memory port, tick by tick and over a run. -/

namespace Sys2Proof.Machine

/-! ### Traces of the memory port -/

theorem readTrace_succ (k : Nat) (s : State) : readTrace (k + 1) s = (memPort s).reads ++ readTrace k (tick s) := rfl

theorem writeTrace_succ (k : Nat) (s : State) : writeTrace (k + 1) s = (memPort s).writes ++ writeTrace k (tick s) := rfl

theorem readTrace_add (j k : Nat) (s : State) : readTrace (j + k) s = readTrace j s ++ readTrace k (ticks j s) := by
  induction j generalizing s with
  | zero => simp [readTrace]
  | succ j ih => rw [Nat.succ_add, readTrace_succ, readTrace_succ, ih, ticks_succ, List.append_assoc]

theorem writeTrace_add (j k : Nat) (s : State) : writeTrace (j + k) s = writeTrace j s ++ writeTrace k (ticks j s) := by
  induction j generalizing s with
  | zero => simp [writeTrace]
  | succ j ih => rw [Nat.succ_add, writeTrace_succ, writeTrace_succ, ih, ticks_succ, List.append_assoc]

/-- Ticks without an access leave no trace. -/
theorem trace_nil {s : State} {k : Nat} (h : ∀ j < k, memPort (ticks j s) = .none) :
    readTrace k s = [] ∧ writeTrace k s = [] := by
  induction k with
  | zero => exact ⟨rfl, rfl⟩
  | succ k ih =>
    obtain ⟨h1, h2⟩ := ih fun j hj => h j (by omega)
    have h3 := h k (by omega)
    refine ⟨?_, ?_⟩
    · rw [readTrace_add, h1, readTrace_succ, h3]; rfl
    · rw [writeTrace_add, h2, writeTrace_succ, h3]; rfl

/-- The access of a tick that counts down. -/
theorem memPort_timed {s : State} (h : s.st = .txLow ∨ s.st = .txHigh ∧ 1 < s.cnt ∨ s.st = .stopLow ∨ s.st = .stopHigh) :
    memPort s = .none := by
  unfold memPort
  rcases h with h | ⟨h, hc⟩ | h | h <;> simp [h]
  intro _ hcn
  omega

/-- The access of the last tick of a bit sent. -/
theorem memPort_fetch {s : State} (h : s.st = .txHigh) (hc : s.cnt = 1) (hr : s.input.rst = false) :
    memPort s = fetchPort s := by
  unfold memPort
  simp [h, hc, hr]

/-- The accesses of the receive phase: the store in the last tick of a byte, no other (R53, R61). -/
theorem memPort_receiving {s t : State} {j : Nat} (h : Receiving s j t) (hr : t.input.rst = false) :
    (rxByteEnds t = false → memPort t = .none) ∧
    (rxByteEnds t = true → ∃ v, memPort t = .write (s.respAddr s.rxidx.toNat) v) := by
  obtain ⟨st, c, sh, bc, hst, rfl⟩ := h
  have ha : (((elapseN j s).inPhase st .input c).withBits sh bc s.curbit).respAddr
     (((elapseN j s).inPhase st .input c).withBits sh bc s.curbit).rxidx.toNat = s.respAddr s.rxidx.toNat := by
    simp [State.respAddr, State.wrap]
  set t := ((elapseN j s).inPhase st .input c).withBits sh bc s.curbit with ht
  have hts : t.st = st := rfl
  unfold memPort
  simp only [hr, Bool.false_eq_true, if_false, hts]
  rcases hst with rfl | rfl | rfl
  · have hsm : samples t = false := by simp [samples, hts]
    simp only [rxByteEnds, hsm, Bool.false_and, Bool.or_false]
    cases timesOut t
    · simp
    · simp [ha]
  · have hsm : samples t = false := by simp [samples, hts]
    simp only [rxByteEnds, hsm, Bool.false_and, Bool.or_false]
    cases timesOut t
    · simp
    · simp [ha]
  · have hto : timesOut t = false := by simp [timesOut, hts]
    simp only [rxByteEnds, hto, Bool.false_or]
    cases samples t && t.bitcnt == 7
    · simp
    · simp [ha]

/-! ### The accesses of the transmit phase -/

/-- The addresses `NextSymbol` would read (R52). -/
def fetches (s : State) : List Nat :=
  if s.bitcnt.toNat = 0 ∧ s.txidx.toNat < s.n.toNat then [s.cmdAddr s.txidx.toNat] else []

theorem memPort_fetches (s : State) :
    (fetchPort s).reads = fetches s ∧ (fetchPort s).writes = [] := by
  unfold fetchPort fetches
  by_cases h : s.bitcnt.toNat = 0 ∧ s.txidx.toNat < s.n.toNat <;> simp [h, MemAccess.reads, MemAccess.writes]

/-- The last tick of a command byte (R103). -/
theorem ticks_startByte_last {s : State} (v : Byte) (h : NoReset s (8 * s.period)) :
    ticks (8 * s.period - 1) (startByte v s) =
      (((elapseN (8 * s.period - 1) s).inPhase .txHigh .input 1).withBits 0 0 (v.getLsbD 0)).withTxidx (s.txidx + 1) := by
  have h0 : ∀ v : Byte, v <<< (7 + 1) = 0 := by decide
  have hp := s.low_lt_period (v.getLsbD (7 - 7))
  have e : 8 * s.period - 1 = 7 * s.period + (s.period - 1) := by omega
  rw [e, ticks_add, ticks_startByte_bit 7 v (by omega) (h.mono (by omega))]
  set u := (((elapseN (7 * s.period) s).inPhase .txLow .output (s.low (v.getLsbD (7 - 7)))).withBits
    (v <<< (7 + 1)) (BitVec.ofNat 4 (7 - 7)) (v.getLsbD (7 - 7))).withTxidx (s.txidx + 1) with hu
  have hlow : u.low u.curbit = s.low (v.getLsbD (7 - 7)) := by simp [hu]
  have hper : u.period = s.period := by simp [hu]
  have hr : NoReset u (s.period - 1) := by
    intro k hk
    rw [hu, withTxidx_inputAt, withBits_inputAt, inPhase_inputAt, inputAt_elapseN]
    exact h _ (by omega)
  have hone : s.period - (s.period - 1) = 1 := by omega
  rw [ticks_symbol_high rfl (by rw [hlow, hu]; rfl) (by rw [hlow]; omega) (by rw [hper]; omega) hr, hper, hone, hu, h0,
    elapseN_withTxidx, elapseN_withBits, elapseN_inPhase, ← elapseN_add]
  rfl

/-- Inside a command byte nothing is accessed; its last tick fetches the next one (R52, R65). -/
theorem trace_startByte {s : State} (v : Byte) (h : NoReset s (8 * s.period)) :
    readTrace (8 * s.period) (startByte v s) = fetches ((s.withBits 0 0 (v.getLsbD 0)).withTxidx (s.txidx + 1)) ∧
    writeTrace (8 * s.period) (startByte v s) = [] := by
  have ht := s.one_le_t
  have hper : s.period = 4 * s.t := rfl
  have hnone : ∀ x < 8 * s.period - 1, memPort (ticks x (startByte v s)) = .none := by
    intro x hx
    obtain ⟨i, j, hi, hj, rfl⟩ : ∃ i j, i ≤ 7 ∧ j < s.period ∧ x = i * s.period + j := by
      refine ⟨x / s.period, x % s.period, ?_, Nat.mod_lt _ (by omega), ?_⟩
      · have : x / s.period < 8 := Nat.div_lt_of_lt_mul (by rw [Nat.mul_comm]; omega)
        omega
      · rw [Nat.mul_comm]
        exact (Nat.div_add_mod x s.period).symm
    rw [ticks_add, ticks_startByte_bit i v hi (h.mono (by omega))]
    set u := (((elapseN (i * s.period) s).inPhase .txLow .output (s.low (v.getLsbD (7 - i)))).withBits
      (v <<< (i + 1)) (BitVec.ofNat 4 (7 - i)) (v.getLsbD (7 - i))).withTxidx (s.txidx + 1) with hu
    have hlow : u.low u.curbit = s.low (v.getLsbD (7 - i)) := by simp [hu]
    have hper' : u.period = s.period := by simp [hu]
    have hle : i * s.period ≤ 7 * s.period := Nat.mul_le_mul_right _ hi
    have hr : NoReset u (j + 1) := by
      intro k hk
      rw [hu, withTxidx_inputAt, withBits_inputAt, inPhase_inputAt, inputAt_elapseN]
      exact h _ (by omega)
    have hcnt : u.cnt = u.low u.curbit := by rw [hlow, hu]; rfl
    by_cases hlt : j < s.low (v.getLsbD (7 - i))
    · rw [ticks_symbol_low rfl hcnt (by rw [hlow]; exact hlt) (hr.mono (by omega))]
      exact memPort_timed (Or.inl (by simp [hu]))
    · rw [ticks_symbol_high rfl hcnt (by rw [hlow]; omega) (by rw [hper']; exact hj) (hr.mono (by omega))]
      by_cases hj1 : j + 1 < s.period
      · exact memPort_timed (Or.inr (Or.inl ⟨rfl, by rw [inPhase_cnt, hper']; omega⟩))
      · have hi7 : i < 7 := by
          rcases Nat.lt_or_eq_of_le hi with h | rfl
          · exact h
          · omega
        have hone : u.period - j = 1 := by omega
        rw [hone, memPort_fetch rfl rfl (by rw [inPhase_input, input_elapseN]; exact hr j (by omega))]
        have hb : ((elapseN j u).inPhase .txHigh .input 1).bitcnt.toNat ≠ 0 := by
          rw [inPhase_bitcnt, elapseN_bitcnt]
          have : ∀ i : Fin 7, (BitVec.ofNat 4 (7 - i.val)).toNat ≠ 0 := by decide
          exact this ⟨i, hi7⟩
        unfold fetchPort
        rw [if_neg (fun h => hb h.1)]
  obtain ⟨hr1, hw1⟩ := trace_nil hnone
  have hlast := ticks_startByte_last v h
  set u := (((elapseN (8 * s.period - 1) s).inPhase .txHigh .input 1).withBits 0 0 (v.getLsbD 0)).withTxidx
    (s.txidx + 1) with hu
  have hport : memPort u = fetchPort u := memPort_fetch rfl rfl (by
    rw [hu, withTxidx_input, withBits_input, inPhase_input, input_elapseN]
    exact h _ (by omega))
  have hf : fetches u = fetches ((s.withBits 0 0 (v.getLsbD 0)).withTxidx (s.txidx + 1)) := by
    simp [fetches, hu, State.cmdAddr, State.wrap]
  have e : 8 * s.period = 8 * s.period - 1 + 1 := by omega
  constructor
  · rw [e, readTrace_add, hr1, hlast, readTrace_succ, hport, (memPort_fetches u).1, hf]
    simp [readTrace]
  · rw [e, writeTrace_add, hw1, hlast, writeTrace_succ, hport, (memPort_fetches u).2]
    simp [writeTrace]

/-- The accesses of a command: each byte still to be sent is read once, in order (R57, R58). -/
theorem trace_command (r : Nat) {s : State} (hb : s.bitcnt = 0) (hsh : s.shreg = 0)
    (hr : s.txidx.toNat + r = s.n.toNat) (h : NoReset s (r * (8 * s.period))) :
    fetches s ++ readTrace (r * (8 * s.period)) (nextSymbol s) =
      (List.range r).map (fun i => s.cmdAddr (s.txidx.toNat + i)) ∧
    writeTrace (r * (8 * s.period)) (nextSymbol s) = [] := by
  induction r generalizing s with
  | zero =>
    have : ¬ s.txidx.toNat < s.n.toNat := by omega
    simp [fetches, this, readTrace, writeTrace]
  | succ r ih =>
    have hmul : (r + 1) * (8 * s.period) = 8 * s.period + r * (8 * s.period) := by rw [Nat.add_mul, Nat.one_mul]; omega
    rw [hmul] at h ⊢
    have hlt := s.n.isLt
    have hfetch : fetches s = [s.cmdAddr s.txidx.toNat] := by
      rw [fetches, if_pos ⟨by simp [hb], by omega⟩]
    obtain ⟨htr, htw⟩ := trace_startByte (memRead s (s.cmdAddr s.txidx.toNat)) (h.mono (by omega))
    have hbyte := ticks_startByte (memRead s (s.cmdAddr s.txidx.toNat)) (h.mono (by omega))
    set u := (((elapseN (8 * s.period) s).inPhase .txHigh .input 1).withBits 0 0
      ((memRead s (s.cmdAddr s.txidx.toNat)).getLsbD 0)).withTxidx (s.txidx + 1) with hu
    have hper : u.period = s.period := by simp [hu]
    have htx : u.txidx.toNat = s.txidx.toNat + 1 := by
      rw [hu, withTxidx_txidx, BitVec.toNat_add]
      simp
      omega
    have hf : fetches ((s.withBits 0 0 ((memRead s (s.cmdAddr s.txidx.toNat)).getLsbD 0)).withTxidx (s.txidx + 1)) =
        fetches u := by simp [fetches, hu, State.cmdAddr, State.wrap]
    have hca : ∀ i, u.cmdAddr i = s.cmdAddr i := fun i => by simp [State.cmdAddr, State.wrap, hu]
    obtain ⟨ih1, ih2⟩ := ih (s := u) rfl rfl (by rw [htx, hu]; simp; omega) (by
      rw [hper]
      intro j hj
      rw [hu, withTxidx_inputAt, withBits_inputAt, inPhase_inputAt, inputAt_elapseN]
      exact h _ (by omega))
    rw [hper] at ih1 ih2
    rw [nextSymbol_byte hb (by omega)]
    constructor
    · rw [hfetch, readTrace_add, htr, hf, hbyte, ih1, List.range_succ_eq_map]
      simp only [List.map_cons, List.map_map, Nat.add_zero, List.singleton_append, List.cons.injEq, true_and]
      apply List.map_congr_left
      intro i _
      simp only [Function.comp, hca, htx]
      congr 1
      omega
    · rw [writeTrace_add, htw, hbyte, ih2]
      rfl

/-- The accesses of a byte's run: one store, in its last tick (R57). -/
theorem ByteRun.trace {s : State} {k : Nat} {v : Byte} (h : ByteRun s k v) (hr : NoReset s k) :
    readTrace k s = [] ∧ writeTrace k s = [s.respAddr s.rxidx.toNat] := by
  have hp := h.pos
  have hrst : ∀ j < k, (ticks j s).input.rst = false := fun j hj => by
    rw [input_eq_inputAt, inputAt_ticks]
    exact hr _ (by omega)
  obtain ⟨h1, h2⟩ := trace_nil (s := s) (k := k - 1) fun j hj =>
    (memPort_receiving (h.during j (by omega)) (hrst j (by omega))).1 (h.goesOn j (by omega))
  obtain ⟨w, hw⟩ := (memPort_receiving (h.during (k - 1) (by omega)) (hrst _ (by omega))).2 h.lastTick
  have e : k = k - 1 + 1 := by omega
  constructor
  · rw [e, readTrace_add, h1, readTrace_succ, hw]
    simp [readTrace, MemAccess.reads]
  · rw [e, writeTrace_add, h2, writeTrace_succ, hw]
    simp [writeTrace, MemAccess.writes]

end Sys2Proof.Machine
end

