-- ==== Sys2Proof/Laws/Step.lean ====
section
/-! SUPPORT. What a step is, and a run of steps as a run of ticks. -/

namespace Sys2Proof.Machine

/-- With nothing presented, a step that answers answers the tick (R125). -/
theorem step_eq_tick {s t : State} (ho : s.ops = []) (h : step s = .next t) : t = tick s := by
  simpa [step, ho] using h.symm

/-- The first of several steps. -/
theorem run_succ (M : Host.Core) (k : Nat) {s t : M.State} (h : M.step s = .next t) : M.run (k + 1) s = M.run k t := by
  simp only [Host.Core.run, h]

/-- With nothing presented in any of them, `k` steps are `k` ticks. -/
theorem run_core (k : Nat) {s : State} (h : ∀ j < k, (ticks j s).ops = []) :
    Sys2Proof.core.run k s = .next (ticks k s) := by
  induction k generalizing s with
  | zero => rfl
  | succ k ih =>
    have hs : Sys2Proof.core.step s = .next (tick s) := by
      have h0 : s.ops = [] := h 0 (by omega)
      show step s = .next (tick s)
      simp [step, h0]
    rw [run_succ Sys2Proof.core k hs]
    exact ih fun j hj => by simpa [ticks_succ] using h (j + 1) (by omega)

end Sys2Proof.Machine
end

