-- ==== Sys2Proof/Laws/Transaction.lean ====
section
/-! SUPPORT. The receive phase of a whole transaction, put together from its bytes. -/

namespace Sys2Proof.Machine

/-! ### The receive phase, byte by byte -/

/-- The last `r` bytes of a transaction, the bytes `w`, received in `k` ticks: what the state is then, and the accesses on
the way. -/
structure BytesRun (s : State) (r k : Nat) (w : Nat → Byte) : Prop where
  busy : ∀ j < k, (ticks j s).busy = true
  idle : (ticks k s).st = .idle
  done : (ticks k s).done = true
  dir : (ticks k s).dir = .input
  ie : (ticks k s).ie = s.ieSaved
  ieSaved : (ticks k s).ieSaved = s.ieSaved
  txidx : (ticks k s).txidx = s.txidx
  operands : SameOperands s (ticks k s)
  caller : SameCaller s (ticks k s)
  passed : Passed k s (ticks k s)
  reads : readTrace k s = []
  writes : writeTrace k s = (List.range r).map (fun i => s.respAddr (s.rxidx.toNat + i))
  others : ∀ x, (∀ i < r, x ≠ s.respAddr (s.rxidx.toNat + i)) → memRead (ticks k s) x = memRead s x
  bytes : MemOk s → ∀ i < r, memRead (ticks k s) (s.respAddr (s.rxidx.toNat + i)) = w i

/-- The last byte of a transaction. -/
theorem BytesRun.one {s : State} {k : Nat} {v : Byte} (h : ByteRun s k v) (hr : NoReset s k) (hd : s.dir = .input)
    (hm : s.rxidx.toNat + 1 = s.m.toNat) {w : Nat → Byte} (hw : w 0 = v) : BytesRun s 1 k w := by
  have hp := h.pos
  obtain ⟨t, ht, he⟩ := h.ends
  obtain ⟨hs, hpass⟩ := ht.byteStored v (by omega) hd
  have hlast : s.lastByte = true := by simp [State.lastByte, hm]
  obtain ⟨l1, l2, l3, l4, l5⟩ := hs.last hlast
  rw [← he] at hs hpass l1 l2 l3 l4 l5
  refine ⟨fun j hj => (h.during j hj).busy, l1, l2, l3, l4, hs.ieSaved, hs.txidx, hs.operands, hs.caller, hpass,
    (h.trace hr).1, by simp [(h.trace hr).2], fun x hx => hs.others x (hx 0 (by omega)), fun hmem i hi => ?_⟩
  obtain rfl : i = 0 := by omega
  rw [Nat.add_zero, hs.stored hmem.canonical, hw]

/-- A byte that is not the last, then the rest. -/
theorem BytesRun.cons {s : State} {k : Nat} {v : Byte} (h : ByteRun s k v) (hr : NoReset s k) (hd : s.dir = .input)
    {r k' : Nat} (hm : s.rxidx.toNat + (r + 2) = s.m.toNat) {w : Nat → Byte} (hw : w 0 = v)
    (hrest : BytesRun (ticks k s) (r + 1) k' (fun i => w (i + 1))) : BytesRun s (r + 2) (k + k') w := by
  have hp := h.pos
  have hmlt := s.m.isLt
  obtain ⟨t, ht, he⟩ := h.ends
  obtain ⟨hs, hpass⟩ := ht.byteStored v (by omega) hd
  have hlast : s.lastByte = false := by
    simp only [State.lastByte, beq_eq_false_iff_ne]
    omega
  obtain ⟨l1, l2, l3, l4, l5, l6, l7, l8⟩ := hs.next hlast
  rw [← he] at hs hpass l1 l2 l3 l4 l5 l6 l7 l8
  set u := ticks k s with hu
  have hcfg : u.cfg = s.cfg := hpass.cfg
  have hrx : u.rxidx.toNat = s.rxidx.toNat + 1 := by
    rw [l5, BitVec.toNat_add]
    simp
    omega
  have haddr : ∀ i, u.respAddr (u.rxidx.toNat + i) = s.respAddr (s.rxidx.toNat + (i + 1)) := by
    intro i
    rw [hrx]
    simp only [State.respAddr, State.wrap, hcfg, hs.operands.rbase]
    congr 2
    omega
  have hmu : MemOk s → MemOk u := by
    intro hmem
    have hmemu : u.mem = Memory.write s.mem (s.respAddr s.rxidx.toNat) v := by
      obtain ⟨st, c, sh, bc, -, rfl⟩ := ht
      rw [he]
      unfold nextByte
      split <;> simp [store, startRxByte, startWaitHigh, finish, irqExit, releaseLine, memWrite, State.respAddr, State.wrap]
    refine ⟨by rw [hmemu]; exact Memory.wf_write hmem.canonical _ _, fun c hc => ?_⟩
    rw [hmemu] at hc
    rw [hcfg]
    rcases Memory.mem_write hc with rfl | hc
    · exact Nat.mod_lt _ (Nat.two_pow_pos _)
    · exact hmem.inRange c hc
  have hadd : ticks (k + k') s = ticks k' u := ticks_add k k' s
  refine ⟨?_, ?_, ?_, ?_, ?_, ?_, ?_, ?_, ?_, ?_, ?_, ?_, ?_, ?_⟩
  · intro j hj
    rcases Nat.lt_or_ge j k with hjk | hjk
    · exact (h.during j hjk).busy
    · obtain ⟨x, rfl⟩ : ∃ x, j = k + x := ⟨j - k, by omega⟩
      rw [ticks_add]
      exact hrest.busy x (by omega)
  · rw [hadd]; exact hrest.idle
  · rw [hadd]; exact hrest.done
  · rw [hadd]; exact hrest.dir
  · rw [hadd, hrest.ie, hs.ieSaved]
  · rw [hadd, hrest.ieSaved, hs.ieSaved]
  · rw [hadd, hrest.txidx, hs.txidx]
  · rw [hadd]
    exact hs.operands.trans hrest.operands
  · rw [hadd]
    exact hs.caller.trans hrest.caller
  · rw [hadd]
    exact hpass.trans hrest.passed
  · rw [readTrace_add, (h.trace hr).1, hrest.reads]
    rfl
  · rw [writeTrace_add, (h.trace hr).2, hrest.writes, List.range_succ_eq_map (n := r + 1)]
    simp only [List.map_cons, List.map_map, Nat.add_zero, List.singleton_append, List.cons.injEq, true_and]
    apply List.map_congr_left
    intro i _
    simp only [Function.comp, haddr]
  · intro x hx
    rw [hadd, hrest.others x, hs.others x (hx 0 (by omega))]
    intro i hi
    rw [haddr]
    exact hx (i + 1) (by omega)
  · intro hmem i hi
    rw [hadd]
    cases i with
    | zero =>
      rw [hrest.others, Nat.add_zero, hs.stored hmem.canonical, hw]
      intro i hi e
      rw [haddr, Nat.add_zero] at e
      have := s.wrap_injective (a := s.rbase) (i := s.rxidx.toNat) (j := s.rxidx.toNat + (i + 1)) (by omega) (by omega) e
      omega
    | succ i =>
      rw [← haddr, hrest.bytes (hmu hmem) i (by omega)]

end Sys2Proof.Machine
end

