-- ==== Sys2Proof/Tests/Slice0.lean ====
section
/-! SUPPORT. Tests: the well-formedness checks, words written out from the formats, one step of each operation with the
values of `spec/95_test_vectors.md`, and states that meet the hypotheses of the statements. -/

namespace Sys2Proof.Tests

open Sys2Proof.Machine

/-! ### Well-formedness: each check refuses an ill-formed term -/

theorem test_default_configuration : Config.default.toParams.wf = true := by decide
theorem test_clock_refused : ({ Config.default.toParams with fClkHz := 1500000 } : Params).clockOk = false := by decide
theorem test_clock_zero_refused : ({ Config.default.toParams with fClkHz := 0 } : Params).clockOk = false := by decide
theorem test_pollCap_refused : ({ Config.default.toParams with pollCap := 0 } : Params).pollCapOk = false := by decide
theorem test_sentinels_refused : ({ Config.default.toParams with sentLo := 255 } : Params).sentinelsOk = false := by decide
theorem test_stopTail_refused : ({ Config.default.toParams with stopTail := 4 } : Params).stopTailOk = false := by decide
theorem test_addrW_refused : ({ Config.default.toParams with addrW := 7 } : Params).addrWOk = false := by decide

/-- R70: too short. -/
theorem test_length_refused : OpWord.lengthOk ⟨.txSymbol, [false, false, true]⟩ = false ∧
    decode ⟨.txSymbol, [false, false, true]⟩ = .error .wrongLength := by decide
/-- R71: slot 0 high. -/
theorem test_slot0_refused : OpWord.slot0Ok ⟨.txSymbol, [true, true, true, true]⟩ = false ∧
    decode ⟨.txSymbol, [true, true, true, true]⟩ = .error .slot0High := by decide
/-- R71: slot 3 low. -/
theorem test_slot3_refused : OpWord.slot3Ok ⟨.rxSymbol, [false, true, true, false]⟩ = false ∧
    decode ⟨.rxSymbol, [false, true, true, false]⟩ = .error .slot3Low := by decide
/-- R71: slots 1 and 2 differ. -/
theorem test_slots_refused : OpWord.dataSlotsOk ⟨.rxSymbol, [false, false, true, true]⟩ = false ∧
    decode ⟨.rxSymbol, [false, false, true, true]⟩ = .error .slotsDiffer := by decide
/-- R104: a stop bit of 0. -/
theorem test_stop_refused : OpWord.stopOk ⟨.txStop, [false, false, false, true]⟩ = false ∧
    decode ⟨.txStop, [false, false, false, true]⟩ = .error .stopNotOne := by decide
/-- R75: 253 is no sentinel. -/
theorem test_sentinel_refused :
    OpWord.sentinelOk ⟨.respSlot, [true, true, true, true, true, true, false, true]⟩ = false ∧
    decode ⟨.respSlot, [true, true, true, true, true, true, false, true]⟩ = .error .notSentinel := by decide
/-- R130: the bit written on entry is 0. -/
theorem test_entry_refused : OpWord.entryOk ⟨.irqEntry, [true]⟩ = false ∧
    decode ⟨.irqEntry, [true]⟩ = .error .entryNotZero := by decide

/-! ### The literals of the source (R10) -/

/-- "11,520 bytes per second at most (115200 bps, 10 bit times per byte with 8N1)" (R195). -/
theorem test_transport_rate : transportByteRate = 11520 := by decide

/-! ### Words written out from the patterns of R84 -/

/-- Bits written as digits, the leftmost first. -/
def bits (ds : List Nat) : Image := ds.map (· == 1)

theorem test_word_driveLow : decode ⟨.pinDirection, bits [1]⟩ = .ok .driveLow := by decide
theorem test_word_release : decode ⟨.pinDirection, bits [0]⟩ = .ok .release := by decide
theorem test_word_sense : decode ⟨.pinLevel, bits [1]⟩ = .ok (.sense true) := by decide
theorem test_word_tx0 : decode ⟨.txSymbol, bits [0, 0, 0, 1]⟩ = .ok .tx0 := by decide
theorem test_word_tx1 : decode ⟨.txSymbol, bits [0, 1, 1, 1]⟩ = .ok .tx1 := by decide
theorem test_word_txstop : decode ⟨.txStop, bits [0, 1, 1, 1]⟩ = .ok .txstop := by decide
theorem test_word_waitHigh : decode ⟨.waitLevel, bits [1]⟩ = .ok .waitHigh := by decide
theorem test_word_waitLow : decode ⟨.waitLevel, bits [0]⟩ = .ok .waitLow := by decide
theorem test_word_rxbit : decode ⟨.rxSymbol, bits [0, 1, 1, 1]⟩ = .ok (.rxbit true) := by decide
/-- V14: the byte `A5` on the wire. -/
theorem test_word_txbyte : decode ⟨.txByte, bits [0, 1, 1, 1, 0, 0, 0, 1, 0, 1, 1, 1, 0, 0, 0, 1,
    0, 0, 0, 1, 0, 1, 1, 1, 0, 0, 0, 1, 0, 1, 1, 1]⟩ = .ok (.txbyte 0xA5) := by decide
/-- R114: the example symbols of the byte `05`. -/
theorem test_word_rxbyte : decode ⟨.rxByte, bits [0, 0, 0, 1, 0, 0, 0, 1, 0, 0, 0, 1, 0, 0, 0, 1,
    0, 0, 0, 1, 0, 1, 1, 1, 0, 0, 0, 1, 0, 1, 1, 1]⟩ = .ok (.rxbyte 0x05) := by decide
theorem test_word_injectHi : decode ⟨.respSlot, bits [1, 1, 1, 1, 1, 1, 1, 1]⟩ = .ok .injectHi := by decide
theorem test_word_injectLo : decode ⟨.respSlot, bits [1, 1, 1, 1, 1, 1, 1, 0]⟩ = .ok .injectLo := by decide
theorem test_word_irqEnter : decode ⟨.irqEntry, bits [0]⟩ = .ok .irqEnter := by decide
theorem test_word_irqExit : decode ⟨.irqLeave, bits [1]⟩ = .ok (.irqExit true) := by decide
/-- The header `01 04` of P1. -/
theorem test_word_transact : decode ⟨.blockHeader, bits [0, 0, 0, 0, 0, 0, 0, 1, 0, 0, 0, 0, 0, 1, 0, 0]⟩ =
    .ok (.transact 1 4) := by decide
/-- The header `03 04` of V37. -/
theorem test_word_relayFrame : decode ⟨.hostHeader, bits [0, 0, 0, 0, 0, 0, 1, 1, 0, 0, 0, 0, 0, 1, 0, 0]⟩ =
    .ok (.relayFrame 3 4) := by decide
theorem test_word_relayReply : decode ⟨.hostReply, bits [0, 1, 1, 1, 1, 1, 1, 1]⟩ = .ok (.relayReply 0x7F) := by decide
theorem test_word_relayDrop : decode ⟨.hostDrop, []⟩ = .ok .relayDrop := by decide

/-- Bare table words of 16, 32 and 8 bits: P1's header, a byte of `0111` symbols, a sentinel. -/
theorem test_table_words : decodeTableWord 16 0x0104 = some (.transact 1 4) ∧
    decodeTableWord 32 0x77777777 = some (.txbyte 0xFF) ∧ decodeTableWord 8 254 = some .injectLo := by decide

/-! ### One step of each operation -/

/-- A tick in which the controller pulls the line low. -/
def pulled : TickIn := ⟨false, true, .quiet, []⟩
/-- A tick in which nobody does anything. -/
def silent : TickIn := ⟨false, false, .quiet, []⟩
/-- A tick with `rst = 1`. -/
def resetTick : TickIn := ⟨true, false, .quiet, []⟩
/-- A silent tick in which the caller acts. -/
def acting (act : CallerAct) : TickIn := ⟨false, false, act, []⟩
/-- A silent tick in which the transport delivers bytes. -/
def delivering (rx : List Byte) (act : CallerAct) : TickIn := ⟨false, false, act, rx⟩
/-- Ticks of the controller, one a digit: 0 pulls the line low. -/
def wire (ds : List Nat) : List TickIn := ds.map fun d => if d = 1 then silent else pulled
/-- `k` silent ticks. -/
def silence (k : Nat) : List TickIn := List.replicate k silent
/-- `k` ticks of a line held low. -/
def held (k : Nat) : List TickIn := List.replicate k pulled

/-- The start state of the vectors: idle after reset, `IE = 1`, the response buffer at `0020`, these inputs to come. -/
def start (env : List TickIn) : State := { State.reset with ie := true, rbase := 0x20, portRespBase := 0x20, m := 2, env := env }

/-- A configuration with `T = 4`. -/
def fast : Config := { Config.default with fClkHz := 4000000, pollCap := 128, ok := by decide }
/-- A configuration with `STOP_TAIL = 3`. -/
def tailed : Config := { Config.default with stopTail := 3, ok := by decide }
/-- A configuration with `POLL_CAP = 2`. -/
def short : Config := { Config.default with pollCap := 2, ok := by decide }
/-- A configuration with an 8-bit address and `POLL_CAP = 2`. -/
def narrow : Config := { Config.default with addrW := 8, pollCap := 2, ok := by decide }

/-- A configuration with a read timeout of 2 ticks. -/
def hasty : Config := { Config.default with readTimeout := 2, ok := by decide }

/-- What a state looks like after an operation. -/
def look {α : Type} (o : Host.Outcome State Fault Refusal) (f : State → α) : Option α :=
  match o with
  | .next t => some (f t)
  | .fault _ => none
  | .refused _ => none

/-- The effective bit rate of the wire, "250 kbps" (R9): `F_CLK_HZ / PERIOD`, at `T = 1` and `T = 4`. -/
theorem test_bit_rate : Config.default.fClkHz / (start []).period = 250000 ∧
    fast.fClkHz / ({ start [] with cfg := fast } : State).period = 250000 := by decide

/-- `DIR` in the next `k` ticks, 0 for `OUT` (the digits of a waveform). -/
def dirs (k : Nat) (s : State) : List Nat := (List.range k).map fun j => if (ticks j s).dir = .output then 0 else 1

/-- V3: driven, the line is low whatever the controller does. -/
theorem test_driveLow : look (exec .driveLow (start (silence 2))) (fun t => (t.dir, t.line)) = some (.output, false) := by
  decide
/-- V1, V2: released, the line is what the controller makes it. -/
theorem test_release :
    look (exec .release { start [silent, silent] with dir := .output }) (fun t => (t.dir, t.line)) = some (.input, true) ∧
    look (exec .release { start [silent, pulled] with dir := .output }) (fun t => (t.dir, t.line)) = some (.input, false) := by
  decide
/-- R92's example: the controller drives low, so the result is 0; a released line gives 1. -/
theorem test_sense : look (exec (.sense true) { start [pulled] with sensed := true }) State.sensed = some false ∧
    look (exec (.sense false) (start [silent])) State.sensed = some true := by decide
/-- V7. -/
theorem test_tx0 : dirs 4 (startSymbol false (elapse (start (silence 5)))) = [0, 0, 0, 1] := by decide
/-- V8. -/
theorem test_tx1 : dirs 4 (startSymbol true (elapse (start (silence 5)))) = [0, 1, 1, 1] := by decide
/-- V8b: with `T = 4` a symbol lasts 16 ticks and the next begins in the 17th; with no byte left it is the stop bit. -/
theorem test_tx1_fast : look (exec .tx1 { start (silence 17) with cfg := fast }) (fun t => (t.st, t.cnt, t.now)) =
    some (.stopLow, 4, 17) := by decide
/-- V13: the line in the 32 ticks of the byte `80`. -/
theorem test_txbyte : dirs 32 (startByte 0x80 (elapse (start (silence 33)))) =
    [0, 1, 1, 1, 0, 0, 0, 1, 0, 0, 0, 1, 0, 0, 0, 1, 0, 0, 0, 1, 0, 0, 0, 1, 0, 0, 0, 1, 0, 0, 0, 1] := by decide
/-- R102, R103: the next command byte begins exactly `32*T` ticks later, with its bit 7; the rest is left-aligned. -/
theorem test_txbyte_next : look (exec (.txbyte 0xFF) { start (silence 33) with n := 2, mem := [(1, 0xA5)] })
    (fun t => (t.st, t.curbit, t.shreg, t.bitcnt, t.txidx)) = some (.txLow, true, 0x4A, 7, 2) := by decide
/-- V15. -/
theorem test_txstop : look (exec .txstop (start (silence 2))) (fun t => (t.st, t.dir, t.now)) =
    some (.rxWaitHigh, .input, 2) := by decide
/-- V16. -/
theorem test_txstop_tail : dirs 4 (startStop (elapse { start (silence 5) with cfg := tailed })) = [0, 1, 1, 1] ∧
    look (exec .txstop { start (silence 5) with cfg := tailed }) (fun t => (t.st, t.now)) = some (.rxWaitHigh, 5) := by decide
/-- V20a: 31 low polls, then a high one. -/
theorem test_waitHigh : look (exec .waitHigh (start (silent :: held 31 ++ [silent]))) (fun t => (t.st, t.cnt, t.now)) =
    some (.rxWaitLow, 0, 33) := by decide
/-- V20b: 32 low polls. -/
theorem test_waitHigh_timeout : look (exec .waitHigh (start (silent :: held 32)))
    (fun t => (t.st, t.rxidx, memRead t 0x20, t.now)) = some (.rxWaitHigh, 1, 0xFF, 33) := by decide
/-- V18's side of the cap: the fall at the 32nd poll. -/
theorem test_waitLow : look (exec .waitLow (start (silence 32 ++ [pulled]))) (fun t => (t.st, t.cnt, t.now)) =
    some (.rxDelay, 2, 33) := by decide
/-- V19's side: one tick too late. -/
theorem test_waitLow_timeout : look (exec .waitLow (start (silence 33 ++ [pulled])))
    (fun t => (t.st, t.rxidx, memRead t 0x20, t.now)) = some (.rxWaitHigh, 1, 0xFE, 33) := by decide
/-- R113's example: a logic 0 samples 0, a logic 1 samples 1. -/
theorem test_rxbit :
    look (exec (.rxbit false) { start (silent :: wire [1, 0, 0, 0, 1]) with shreg := 1 }) (fun t => (t.shreg, t.bitcnt, t.now)) =
      some (2, 1, 5) ∧
    look (exec (.rxbit true) { start (silent :: wire [1, 0, 1, 1, 1]) with shreg := 1 }) (fun t => (t.shreg, t.bitcnt, t.now)) =
      some (3, 1, 5) := by decide
/-- V23: a symbol low for 2 µs decodes to 1. -/
theorem test_rxbit_odd : look (exec (.rxbit true) (start (silent :: wire [1, 0, 0, 1, 1]))) State.shreg = some 1 := by decide
/-- R114's example: `05`. -/
theorem test_rxbyte : look (exec (.rxbyte 5) (start (silence 2 ++ wire [0, 0, 0, 1, 0, 0, 0, 1, 0, 0, 0, 1, 0, 0, 0, 1,
    0, 0, 0, 1, 0, 1, 1, 1, 0, 0, 0, 1, 0, 1, 1, 1]))) (fun t => (memRead t 0x20, t.rxidx, t.st)) =
      some (5, 1, .rxWaitHigh) := by decide
/-- V22: three symbols, then silence. -/
theorem test_rxbyte_timeout : look (exec (.rxbyte 0)
    (start (silence 3 ++ wire [0, 1, 1, 1, 0, 0, 0, 1, 0, 1, 1, 1] ++ silence 40)))
    (fun t => (memRead t 0x20, t.rxidx, t.shreg, t.bitcnt, t.now)) = some (0xFE, 1, 0, 0, 47) := by decide
/-- R115: the byte in progress is abandoned and the sentinel takes its slot. -/
theorem test_injectHi : look (exec .injectHi { start [silent] with bitcnt := 3, shreg := 5 })
    (fun t => (memRead t 0x20, t.rxidx, t.shreg, t.bitcnt, t.st)) = some (0xFF, 1, 0, 0, .rxWaitHigh) := by decide
/-- R116: the last byte; the transaction finishes. -/
theorem test_injectLo : look (exec .injectLo { start [silent] with m := 1, ie := false, ieSaved := true })
    (fun t => (memRead t 0x20, t.st, t.done, t.ie)) = some (0xFE, .idle, true, true) := by decide
/-- V27, V28. -/
theorem test_irqEnter : look (exec .irqEnter (start [silent])) (fun t => (t.ieSaved, t.ie)) = some (true, false) ∧
    look (exec .irqEnter { start [silent] with ie := false, ieSaved := true }) (fun t => (t.ieSaved, t.ie)) =
      some (false, false) := by decide
/-- V27, V28: it restores, it does not enable. -/
theorem test_irqExit : look (exec (.irqExit true) { start [silent] with ie := false, ieSaved := true }) State.ie = some true ∧
    look (exec (.irqExit false) { start [silent] with ieSaved := false }) State.ie = some false := by decide
/-- P2: the empty transaction takes 3 ticks. -/
theorem test_transact_empty : look (exec (.transact 0 0) (start (silence 3))) (fun t => (t.st, t.done, t.ie, t.cnt, t.now)) =
    some (.idle, true, true, 1, 3) := by decide
/-- V34's wrap, with N = 0 and a small cap: three stores at `FE`, `FF`, `00`, in `3 + 3*(1 + POLL_CAP)` ticks. -/
theorem test_transact_wraps : look (exec (.transact 0 3) { start (silence 12) with cfg := narrow, portRespBase := 0xFE })
    (fun t => (t.mem, t.now)) = some ([(0, 0xFE), (0xFE, 0xFE), (0xFF, 0xFE)], 12) := by decide
/-- V35: the frame `01 04 01`, its command byte placed. -/
theorem test_relayFrame : look (exec (.relayFrame 1 4) { start [delivering [1] .quiet] with portCmdBase := 0x10 })
    (fun t => (t.relay, t.frameN, t.frameM, memRead t 0x10, t.hostIn)) = some (.transact, 1, 4, 1, []) := by decide
/-- V37: two of three command bytes, then the timeout, two ticks after the header. -/
theorem test_relayFrame_drop : look (exec (.relayFrame 3 4) { start [delivering [1, 2] .quiet] with cfg := hasty })
    (fun t => (t.relay, t.hostIn, t.hostOut, t.ie, t.now)) = some (.waitHeader, [], [], true, 3) := by decide
/-- R143: the third byte comes in the last tick of the timeout, so the frame is complete. -/
theorem test_relayFrame_late : look (exec (.relayFrame 3 4) { start [delivering [1, 2] .quiet, silent, delivering [3] .relay] with
      cfg := hasty }) (fun t => (t.relay, t.hostIn, t.mem, t.now)) = some (.transact, [], [(0, 1), (1, 2), (2, 3)], 3) := by
  decide
/-- R143: N is the first header byte and M the second; with no command byte there the relay waits. -/
theorem test_header_read : look (step { start [delivering [9, 4] .relay] with cfg := hasty })
    (fun t => (t.relay, t.frameN, t.frameM, t.frameTick)) = some (.waitCommand, 9, 4, 1) := by decide
/-- R145's example. -/
theorem test_relayReply : look (exec (.relayReply 5) { start [silent] with
      relay := .reply, frameM := 4, frameResp := 0x20, mem := [(0x20, 5), (0x22, 0xFF), (0x23, 0x7F)] })
    (fun t => (t.hostOut, t.relay)) = some ([5, 0, 0xFF, 0x7F], .waitHeader) := by decide
/-- R146. -/
theorem test_relayDrop : look (exec .relayDrop { start [silent] with relay := .waitCommand, frameN := 3, hostIn := [1, 2] })
    (fun t => (t.hostIn, t.hostOut, t.relay)) = some ([], [], .waitHeader) := by decide
/-- A table word is run by the next step, from reset. -/
theorem test_withFetchWord : look (step ((start (silence 3)).withFetchWord 16 0)) (fun t => (t.done, t.now, t.ops)) =
    some (true, 3, []) := by decide
/-- V43: after reset nothing happens by itself. -/
theorem test_reset_idles : look (step (State.reset.withEnv [silent])) (fun t => (t.st, t.dir, t.done, t.mem)) =
    some (.idle, .input, false, []) := by decide
/-- V41: reset cuts a transmission. -/
theorem test_reset_cuts : look (exec .tx0 (start [silent, silent, resetTick])) (fun t => (t.st, t.dir, t.cnt, t.done, t.now)) =
    some (.idle, .input, 0, false, 3) := by decide

/-! ### The hypotheses of the statements are met -/

/-- No reset is scheduled, so none comes. -/
theorem noReset_of_env {s : State} (h : s.env.all (fun i => !i.rst) = true) (k : Nat) : NoReset s k := by
  intro j _
  unfold State.inputAt
  split
  · rename_i i hi
    have := List.all_eq_true.1 h i (List.mem_of_getElem? hi)
    simpa using this
  · rfl

/-- Memory that lists nothing, or one byte of a 16-bit space. -/
theorem memOk_of_all {s : State} (hw : Memory.wf s.mem = true) (h : s.mem.all (fun c => decide (c.1 < 2 ^ s.cfg.addrW)) = true) :
    MemOk s := ⟨hw, fun c hc => by simpa using List.all_eq_true.1 h c hc⟩

/-- A block in its `ARM` tick: `N = 1`, `M = 2`. -/
def armed (env : List TickIn) : State := accept 1 2 (elapse (start (silent :: env)))
/-- A block in the low phase of a 0. -/
def driving (env : List TickIn) : State := tick (armed (silent :: env))
/-- A block in its last poll of a wait for high, all before it low. -/
def lastHigh (env : List TickIn) : State := { start env with st := .rxWaitHigh, cnt := 31 }
/-- A block in its last poll of a wait for low. -/
def lastLow (env : List TickIn) : State := { start env with st := .rxWaitLow, cnt := 31 }
/-- A block in the last low tick of the stop bit of a transaction with `M = 0`. -/
def stopping : State := { start [silent] with st := .stopLow, dir := .output, cnt := 1, m := 0 }

theorem witness_EncodeOfDecode : ∃ w i, decode w = .ok i := ⟨_, _, test_word_rxbyte⟩
theorem witness_StepRunsPresentedOperation : ∃ (s : State) (w : OpWord) (rest : List OpWord) (i : Instr),
    s.ops = w :: rest ∧ decode w = .ok i :=
  ⟨{ start [] with ops := [encode .tx0, encode .tx1] }, encode .tx0, [encode .tx1], .tx0, rfl, by decide⟩
theorem witness_StepRunsPresentedOperation_table : decodeTableWord 16 0xFF00 = some (.transact 255 0) := by decide
theorem witness_StepIsOneClockTick : (start [silent]).ops = [] := rfl
theorem witness_StepGivesANextState : ∃ s : State, s.ops ≠ [] ∧ ∀ w rest, s.ops = w :: rest → w.wf = true := by
  refine ⟨{ start [] with ops := [encode .txstop] }, by simp, fun w rest h => ?_⟩
  obtain ⟨rfl, -⟩ := List.cons.inj h
  decide
theorem witness_ResetOverridesEverything : (start [resetTick]).input.rst = true := rfl
theorem witness_ResetLeavesTheResetValues :
    (driving [resetTick]).ops = [] ∧ (driving [resetTick]).input.rst = true := by decide
theorem witness_StartIsAcceptedWhenIdleOnly_busy : (driving [silent]).busy = true ∧ (driving [silent]).env = [silent] := by
  decide
theorem witness_StartIsAcceptedWhenIdleOnly_done :
    let s := tick { stopping with env := [silent, acting (.start 0 255 0xFFFF 255)] }
    s.ops = [] ∧ s.busy = false ∧ s.done = true ∧ s.input.rst = false ∧ s.input.act = .start 0 255 0xFFFF 255 := by decide
theorem witness_CallerActsInIdleTicks :
    ∀ act ∈ [CallerAct.quiet, .setIe false, .store 0xFFFF 0, .place 0xFFFF 0x10],
      (start [acting act]).ops = [] ∧ (start [acting act]).st = .idle ∧ (start [acting act]).input.rst = false ∧
      (start [acting act]).relay ≠ .waitCommand ∧ (start [acting act]).input.act = act := by decide
/-- Two bytes come in a tick in which the read has lasted one tick: N = 2 is enough, N = 3 waits, and is dropped once the
read began two ticks before the next tick. -/
theorem witness_CommandReadEndsOrWaits : ∀ act ∈ [CallerAct.quiet, .relay],
    let s : State := { start [delivering [1, 2] act] with cfg := hasty, relay := .waitCommand, frameN := 3, now := 5 }
    s.ops = [] ∧ s.st = .idle ∧ s.input.rst = false ∧ s.relay = .waitCommand ∧ (s.inputAt 0).act = act ∧
      ({ s with frameN := 2 } : State).frameN.toNat ≤ (s.hostIn ++ s.input.rx).length ∧
      (s.hostIn ++ s.input.rx).length < s.frameN.toNat ∧
      ({ s with frameTick := 5 } : State).now + 1 < ({ s with frameTick := 5 } : State).frameTick + s.cfg.readTimeout ∧
      ({ s with frameTick := 4 } : State).frameTick + s.cfg.readTimeout ≤ s.now + 1 := by decide
theorem witness_BusyBlockIgnoresTheCaller : (armed [silent]).busy = true := by decide
theorem witness_noReset : (start [silent]).input.rst = false := rfl
theorem witness_noReset_ticks (k : Nat) : NoReset (start (held 3)) k := noReset_of_env (by decide) k
theorem witness_TransmitIgnoresTheLine : SameButLine (start (held 4)) (start (silence 4)) ∧
    ¬ (start (held 4)).receiving ∧ (start (held 4)).line ≠ (start (silence 4)).line ∧
    ∀ k, NoReset (start (held 4)) k :=
  ⟨⟨rfl, rfl⟩, by unfold State.receiving; decide, by decide, noReset_of_env (by decide)⟩
theorem witness_WaitHigh_rises : ∀ h ∈ [0, 31],
    let s := start (silent :: held h ++ [silent])
    s.dir = .input ∧ h < s.cfg.pollCap ∧ (∀ j < h, s.wireAt (1 + j) = false) ∧ s.wireAt (1 + h) = true := by decide
theorem witness_WaitHigh_neverRises :
    let s := start (silent :: held 32)
    ∀ j < s.cfg.pollCap, s.wireAt (1 + j) = false := by decide
theorem witness_driving : (driving []).dir = .output := by decide
theorem witness_WaitLow_falls : ∀ l ∈ [0, 31],
    let s := start (silent :: silence l ++ [pulled])
    s.dir = .input ∧ l < s.cfg.pollCap ∧ (∀ j < l, s.wireAt (1 + j) = true) ∧ s.wireAt (1 + l) = false := by decide
theorem witness_WaitLow_neverFalls :
    let s := start (silent :: silence 32)
    s.dir = .input ∧ ∀ j < s.cfg.pollCap, s.wireAt (1 + j) = true := by decide
theorem witness_RxBit_sampled : ∀ h ∈ [0, 31], ∀ l ∈ [0, 31],
    let s := start (silent :: held h ++ [silent] ++ silence l ++ [pulled])
    s.dir = .input ∧ s.bitcnt ≠ 7 ∧ ({ s with bitcnt := 7 } : State).bitcnt = 7 ∧
      (∀ j < h, s.wireAt (1 + j) = false) ∧ s.wireAt (1 + h) = true ∧
      (∀ j < l, s.wireAt (1 + (h + 1) + j) = true) ∧ s.wireAt (1 + (h + 1) + l) = false := by decide
theorem witness_RxBit_neverFalls : ∀ h ∈ [0, 31],
    let s := start (silent :: held h ++ [silent] ++ silence 32)
    s.dir = .input ∧ (∀ j < h, s.wireAt (1 + j) = false) ∧ s.wireAt (1 + h) = true ∧
      ∀ j < s.cfg.pollCap, s.wireAt (1 + (h + 1) + j) = true := by decide
/-- The earliest and the latest first fall that `POLL_CAP` allows (V17, V18). -/
theorem witness_RxByteReadsItsImage : ∀ f ∈ [1, 32],
    let s := start (silent :: silence f ++ wire [0, 1, 1, 1, 0, 0, 0, 1, 0, 0, 0, 1, 0, 0, 0, 1,
      0, 0, 0, 1, 0, 0, 0, 1, 0, 0, 0, 1, 0, 1, 1, 1])
    s.dir = .input ∧ 2 * s.t - 1 ≤ s.cfg.pollCap ∧ f ≤ s.cfg.pollCap ∧
      (∀ j < f, (s.inputAt (1 + j)).extLow = false) ∧
      ∀ i < 32, ∀ j < s.t, (s.inputAt (1 + f + s.t * i + j)).extLow = !(encode (.rxbyte 0x81)).image.getD i true := by decide
theorem witness_TimeoutEntry :
    (lastHigh [pulled]).ops = [] ∧ (lastHigh [pulled]).input.rst = false ∧
      (lastHigh [pulled]).cfg.pollCap ≤ (lastHigh [pulled]).cnt + 1 ∧ (lastHigh [pulled]).st = .rxWaitHigh ∧
      (lastHigh [pulled]).line = false ∧
    (lastLow [silent]).st = .rxWaitLow ∧ (lastLow [silent]).line = true := by decide
theorem witness_Transact : (start (silence 5)).st = .idle ∧ MemOk (start (silence 5)) ∧
    ∀ k, NoReset (start (silence 5)) k :=
  ⟨rfl, memOk_of_all rfl rfl, noReset_of_env (by decide)⟩
/-- V17 and V18: `N = 0`, one byte `81`, its first fall at the earliest and at the latest tick. -/
theorem witness_TransactReceivesConformingReply : ∀ f, f = 1 ∨ f = 32 →
    let s := start (silence 3 ++ silence f ++ wire [0, 1, 1, 1, 0, 0, 0, 1, 0, 0, 0, 1, 0, 0, 0, 1,
      0, 0, 0, 1, 0, 0, 0, 1, 0, 0, 0, 1, 0, 1, 1, 1])
    s.st = .idle ∧ MemOk s ∧ 2 * s.t - 1 ≤ s.cfg.pollCap ∧ 0 < (1 : Byte).toNat ∧
      (1 : Byte).toNat ≤ [(0x81 : Byte)].length ∧
      ConformingReply s (2 + 32 * s.t * (0 : Byte).toNat + s.t + s.cfg.stopTail) f [0x81] := by
  intro f hf
  rcases hf with rfl | rfl
  all_goals exact ⟨rfl, memOk_of_all rfl rfl, by decide, by decide, by decide, by decide, by decide, by decide, by decide⟩
theorem witness_TransactOnADeadLine_high :
    let s := start (silence 36)
    ∀ j < (1 : Byte).toNat * (1 + s.cfg.pollCap),
      s.wireAt (2 + 32 * s.t * (0 : Byte).toNat + s.t + s.cfg.stopTail + j) = true := by
  decide
theorem witness_TransactOnADeadLine_low :
    let s := start (silence 3 ++ held 32)
    ∀ j < (1 : Byte).toNat * s.cfg.pollCap,
      s.wireAt (2 + 32 * s.t * (0 : Byte).toNat + s.t + s.cfg.stopTail + j) = false := by
  decide
theorem witness_PortStartRunsTransact :
    let s := start [acting (.start 0x10 1 0x20 3)]
    s.ops = [] ∧ s.st = .idle ∧ s.input.act = .start 0x10 1 0x20 3 ∧ ∀ k, NoReset s k :=
  ⟨rfl, rfl, rfl, noReset_of_env (by decide)⟩
theorem witness_blockInv : BlockInv (armed [silent]) := by
  have hr : ¬ (armed [silent]).receiving := by unfold State.receiving; decide
  refine ⟨rfl, by decide, by decide, by decide, by decide, by decide, fun h => absurd h hr, ?_, fun h => absurd h hr,
    by decide, by decide, by decide, by decide, memOk_of_all rfl rfl⟩
  rfl
theorem witness_TransitionTable : BlockInv (armed [silent]) ∧ step (armed [silent]) = .next (tick (armed [silent])) :=
  ⟨witness_blockInv, rfl⟩
theorem witness_DoneAfterFinishOnly : stopping.ops = [] ∧ step stopping = .next (tick stopping) ∧
    (tick stopping).done = true :=
  ⟨rfl, rfl, by decide⟩
theorem witness_EveryStepKeepsMemoryOk :
    MemOk { start [silent] with mem := [(0xFFFF, 1)] } ∧ ∃ t, step { start [silent] with mem := [(0xFFFF, 1)] } = .next t :=
  ⟨memOk_of_all rfl (by decide), _, rfl⟩
theorem witness_NoStepWritesConfiguration :
    ∃ t, step { start [silent] with ops := [encode (.relayReply 0), encode .relayDrop] } = .next t := ⟨_, rfl⟩
theorem witness_WritesReplaceAndCommute :
    Memory.wf ({ start [] with mem := [(0, 1), (5, 255)] } : State).mem = true ∧ (0 : Nat) ≠ 5 := by
  decide
theorem witness_PortAccesses :
    (armed [silent]).busy = true ∧ Memory.wf (armed [silent]).mem = true ∧ memPort (armed [silent]) = .read 0 ∧
    (driving [silent]).busy = true ∧ memPort (driving [silent]) = .none ∧
    (lastHigh [pulled]).busy = true ∧ memPort (lastHigh [pulled]) = .write 0x20 255 := by decide
theorem witness_RelayFramePlacesTheCommand_atOnce :
    let s := start [delivering [7, 8] .quiet]
    s.st = .idle ∧ (2 : Byte).toNat ≤ (s.hostIn ++ s.arrivals 1).length ∧ ∀ k, NoReset s k :=
  ⟨rfl, by decide, noReset_of_env (by decide)⟩
/-- The last byte comes in the last tick of the timeout, `w = 2`. -/
theorem witness_RelayFramePlacesTheCommand_later :
    let s : State := { start [delivering [7] .quiet, delivering [8] .quiet, delivering [9] .relay] with cfg := hasty }
    s.st = .idle ∧ 2 ≤ s.cfg.readTimeout ∧ (∀ j < 3, 1 ≤ j → (s.inputAt j).act = .quiet ∨ (s.inputAt j).act = .relay) ∧
      (s.hostIn ++ s.arrivals 2).length < (3 : Byte).toNat ∧ (3 : Byte).toNat ≤ (s.hostIn ++ s.arrivals 3).length := by decide
theorem witness_RelayFrameDropsOnTimeout :
    let s : State := { start [delivering [1] .quiet, delivering [2] .relay] with cfg := hasty }
    s.st = .idle ∧ s.cfg.readTimeout = 2 ∧
      (∀ j < 3, 1 ≤ j → (s.inputAt j).act = .quiet ∨ (s.inputAt j).act = .relay) ∧
      (s.hostIn ++ s.arrivals 3).length < (3 : Byte).toNat := by decide
theorem witness_RelayFrameWaitsForItsBytes :
    let s : State := { start [delivering [1] .quiet, delivering [2] .quiet] with cfg := hasty }
    s.st = .idle ∧ 1 < s.cfg.readTimeout ∧
      (∀ j < 2, 1 ≤ j → (s.inputAt j).act = .quiet ∨ (s.inputAt j).act = .relay) ∧
      (s.hostIn ++ s.arrivals 2).length < (3 : Byte).toNat := by decide
theorem witness_RelayFrame_noReset (k : Nat) :
    NoReset { start [delivering [1] .quiet, delivering [2] .relay] with cfg := hasty } k := noReset_of_env (by decide) k
theorem witness_RelayDropWritesNothing : ∀ r ∈ [RelayPhase.waitCommand, .waitHeader],
    ({ start [silent] with relay := r } : State).st = .idle ∧ ({ start [silent] with relay := r } : State).input.rst = false ∧
      ({ start [silent] with relay := r } : State).relay = r := by decide
theorem witness_RelayLoopActions_header :
    let s := start [delivering [1, 4, 9] .relay]
    s.ops = [] ∧ s.st = .idle ∧ s.input.rst = false ∧ s.input.act = .relay ∧ s.relay = .waitHeader ∧
      s.hostIn ++ s.input.rx = 1 :: 4 :: [9] ∧ ([9] : List Byte).length ≥ (1 : Byte).toNat ∧ MemOk s ∧
      ([9] : List Byte).length < (2 : Byte).toNat ∧ 0 < s.cfg.readTimeout ∧
      ({ hasty with readTimeout := 0, ok := by decide } : Config).readTimeout = 0 ∧
      (s.hostIn ++ (start [delivering [1] .relay]).input.rx).length < 2 :=
  ⟨rfl, rfl, rfl, rfl, rfl, rfl, by decide, memOk_of_all rfl rfl, by decide, by decide, rfl, by decide⟩
/-- The relay waiting for N = 3 or 4 command bytes of which 3 have come, one tick of the read timeout left, or none. -/
theorem witness_RelayLoopActions_command :
    let s : State := { start [delivering [1, 4, 9] .relay] with cfg := hasty, relay := .waitCommand, frameN := 3, now := 5 }
    s.ops = [] ∧ s.st = .idle ∧ s.input.rst = false ∧ s.input.act = .relay ∧
      s.frameN.toNat ≤ (s.hostIn ++ s.input.rx).length ∧
      (s.hostIn ++ s.input.rx).length < ({ s with frameN := 4 } : State).frameN.toNat ∧
      ({ s with frameTick := 5 } : State).now + 1 < ({ s with frameTick := 5 } : State).frameTick + s.cfg.readTimeout ∧
      ({ s with frameTick := 4 } : State).frameTick + s.cfg.readTimeout ≤ s.now + 1 := by decide
/-- The command placed, with no gap left and with one tick left; the transaction done. -/
theorem witness_RelayLoopActions_start_reply : ∀ r ∈ [RelayPhase.transact, .reply], ∀ g ∈ [0, 1],
    let s : State := { start [acting .relay] with relay := r, frameN := 1, frameM := 4, gap := g }
    s.ops = [] ∧ s.st = .idle ∧ s.input.rst = false ∧ s.input.act = .relay ∧ s.relay = r ∧ s.gapLeft = g := by decide

end Sys2Proof.Tests
end

/-! ## Proofs: the state (`spec/10_state.md`)

What every tick and every presented operation does to configuration and memory, stated once as an invariance principle;
what a tick does to `DONE`; and the statements about reset, the two flags and the configuration. -/

namespace Sys2Proof.Machine

/-! ### A step changes configuration and memory by stores into `BUF` alone -/

/-- A property of configuration and memory alone that a store into `BUF` keeps. Every step keeps such a property
(`StoreInvariant.step`). -/
structure StoreInvariant (P : State → Prop) : Prop where
  congr : ∀ {s t : State}, P s → t.cfg = s.cfg → t.mem = s.mem → P t
  memWrite : ∀ {s : State} (a : Nat) (v : Byte), P s → P (memWrite (s.wrap a) v s)

namespace StoreInvariant

section
variable {P : State → Prop} (h : StoreInvariant P) {s : State}
include h

theorem elapse (hs : P s) : P (elapse s) := h.congr hs rfl rfl

theorem resetStep (hs : P s) : P (resetStep s) := h.congr hs rfl rfl

theorem memWriteList (vs : List Byte) (a : Nat) (hs : P s) : P (memWriteList a vs s) := by
  induction vs generalizing a s with
  | nil => exact hs
  | cons v vs ih => exact ih (a + 1) (h.memWrite a v hs)

theorem store (v : Byte) (hs : P s) : P (store v s) := h.memWrite _ v hs

theorem nextSymbol (hs : P s) : P (nextSymbol s) := by
  unfold Machine.nextSymbol
  split
  · exact h.congr hs rfl rfl
  · split <;> exact h.congr hs rfl rfl

theorem afterStop (hs : P s) : P (afterStop s) := by
  unfold Machine.afterStop
  split <;> exact h.congr hs rfl rfl

theorem nextByte (hs : P s) : P (nextByte s) := by
  unfold Machine.nextByte
  split <;> exact h.congr hs rfl rfl

theorem timeoutEntry (v : Byte) (hs : P s) : P (timeoutEntry v s) := h.nextByte (h.store v hs)

theorem sampleBit (d : Bool) (hs : P s) : P (sampleBit d s) := by
  unfold Machine.sampleBit
  split
  · exact h.nextByte (h.store _ hs)
  · exact h.congr hs rfl rfl

theorem relayPoll (hs : P s) : P (relayPoll s) := by
  by_cases hn : s.frameN.toNat ≤ s.hostIn.length
  · rw [relayPoll_of_enough hn]
    exact h.congr (h.memWriteList _ _ hs) rfl rfl
  · by_cases he : s.frameTick + s.cfg.readTimeout ≤ s.now
    · rw [relayPoll_of_expired (by omega) he]
      exact h.congr hs rfl rfl
    · rw [relayPoll_of_waiting (by omega) (by omega)]
      exact h.congr hs rfl rfl

theorem relayFrame (n m : Byte) (hs : P s) : P (relayFrame n m s) := h.relayPoll (h.congr hs rfl rfl)

theorem relayWait (hs : P s) : P (relayWait s) := by
  unfold Machine.relayWait
  split
  · exact h.relayPoll hs
  · exact hs

theorem relayAct (mayStart : Bool) (hs : P s) : P (relayAct mayStart s) := by
  unfold Machine.relayAct
  split
  · split
    · exact h.relayFrame _ _ (h.congr hs rfl rfl)
    · exact hs
  · exact h.relayPoll hs
  · split
    · exact h.congr hs rfl rfl
    · exact hs
  · exact h.congr hs rfl rfl

/-! #### Ticks -/

theorem tickIdle (act : CallerAct) (mayStart : Bool) (hs : P s) : P (tickIdle act mayStart s) := by
  cases act with
  | quiet => exact h.relayWait hs
  | start cb n rb m => exact h.congr hs rfl rfl
  | setIe v => exact h.congr hs rfl rfl
  | store a v => exact h.memWrite a v hs
  | place cb rb => exact h.congr hs rfl rfl
  | relay => exact h.relayAct mayStart hs

theorem tickTxLow (hs : P s) : P (tickTxLow s) := by
  unfold Machine.tickTxLow
  split <;> exact h.congr hs rfl rfl

theorem tickTxHigh (hs : P s) : P (tickTxHigh s) := by
  unfold Machine.tickTxHigh
  split
  · exact h.congr hs rfl rfl
  · exact h.nextSymbol hs

theorem tickStopLow (hs : P s) : P (tickStopLow s) := by
  unfold Machine.tickStopLow
  split
  · exact h.congr hs rfl rfl
  · split
    · exact h.congr hs rfl rfl
    · exact h.afterStop (h.congr hs rfl rfl)

theorem tickStopHigh (hs : P s) : P (tickStopHigh s) := by
  unfold Machine.tickStopHigh
  split
  · exact h.congr hs rfl rfl
  · exact h.afterStop hs

theorem tickWaitHigh (pin : Bool) (hs : P s) : P (tickWaitHigh pin s) := by
  unfold Machine.tickWaitHigh
  split
  · exact h.congr hs rfl rfl
  · split
    · exact h.timeoutEntry _ hs
    · exact h.congr hs rfl rfl

theorem tickWaitLow (pin : Bool) (hs : P s) : P (tickWaitLow pin s) := by
  unfold Machine.tickWaitLow
  split
  · exact h.congr hs rfl rfl
  · split
    · exact h.timeoutEntry _ hs
    · exact h.congr hs rfl rfl

theorem tickDelay (pin : Bool) (hs : P s) : P (tickDelay pin s) := by
  unfold Machine.tickDelay
  split
  · exact h.congr hs rfl rfl
  · exact h.sampleBit pin hs

theorem tickCase (act : CallerAct) (mayStart pin : Bool) (hs : P s) : P (tickCase act mayStart pin s) := by
  unfold Machine.tickCase
  split
  · exact h.tickIdle act mayStart hs
  · exact h.nextSymbol hs
  · exact h.tickTxLow hs
  · exact h.tickTxHigh hs
  · exact h.tickStopLow hs
  · exact h.tickStopHigh hs
  · exact h.tickWaitHigh pin hs
  · exact h.tickWaitLow pin hs
  · exact h.tickDelay pin hs

theorem tick (hs : P s) : P (tick s) := by
  unfold Machine.tick
  split
  · exact h.resetStep hs
  · exact h.tickCase _ _ _ (h.elapse hs)

/-! #### The ways an operation runs ticks -/

theorem runUntil (last : State → Bool) (k : Nat) (hs : P s) : P (runUntil last k s) := by
  induction k generalizing s with
  | zero => exact hs
  | succ k ih =>
    unfold Machine.runUntil
    split
    · exact h.tick hs
    · exact ih (h.tick hs)

theorem runBusy (k : Nat) (hs : P s) : P (runBusy k s) := by
  induction k generalizing s with
  | zero => exact hs
  | succ k ih =>
    unfold Machine.runBusy
    split
    · exact ih (h.tick hs)
    · exact hs

theorem runRelayWait (k : Nat) (hs : P s) : P (runRelayWait k s) := by
  induction k generalizing s with
  | zero => exact hs
  | succ k ih =>
    unfold Machine.runRelayWait
    split
    · exact hs
    · exact ih (h.tick hs)

section
variable {act : State → State} (hact : ∀ u, P u → P (act u))
include hact

theorem present (hs : P s) : P (present act s) := by
  unfold Machine.present
  split
  · exact h.resetStep hs
  · exact hact _ (h.elapse hs)

theorem presentFor (last : State → Bool) (k : Nat) (hs : P s) : P (presentFor act last k s) := by
  unfold Machine.presentFor
  split
  · exact h.resetStep hs
  · exact h.runUntil last k (hact _ (h.elapse hs))

theorem presentCaller (hs : P s) : P (presentCaller act s) := by
  unfold Machine.presentCaller
  split
  · exact h.tick hs
  · exact h.present hact hs

end

section
variable {f : State → State} (hs : P s) (hc : ∀ u, (f u).cfg = u.cfg) (hm : ∀ u, (f u).mem = u.mem)
include hs hc hm

theorem present_of_frame : P (Machine.present f s) := h.present (fun u hu => h.congr hu (hc u) (hm u)) hs

theorem presentFor_of_frame {last : State → Bool} {k : Nat} : P (Machine.presentFor f last k s) :=
  h.presentFor (fun u hu => h.congr hu (hc u) (hm u)) last k hs

end

theorem transactAll (n m : Byte) (hs : P s) : P (transactAll n m s) := by
  unfold Machine.transactAll
  split
  · exact h.resetStep hs
  · exact h.runBusy _ (h.congr (h.elapse hs) rfl rfl)

/-! #### Operations and steps -/

/-- Every operation answers with a next state (R155), in which the property still holds. -/
theorem exec (i : Instr) (hs : P s) : ∃ t, exec i s = .next t ∧ P t := by
  cases i with
  | driveLow => exact ⟨_, rfl, h.present_of_frame hs driveLow_cfg driveLow_mem⟩
  | release => exact ⟨_, rfl, h.present_of_frame hs releaseLine_cfg releaseLine_mem⟩
  | sense p => exact ⟨_, rfl, h.present_of_frame hs (fun _ => rfl) (fun _ => rfl)⟩
  | tx0 => exact ⟨_, rfl, h.presentFor_of_frame hs (startSymbol_cfg false) (startSymbol_mem false)⟩
  | tx1 => exact ⟨_, rfl, h.presentFor_of_frame hs (startSymbol_cfg true) (startSymbol_mem true)⟩
  | txstop => exact ⟨_, rfl, h.presentFor_of_frame hs startStop_cfg startStop_mem⟩
  | waitHigh => exact ⟨_, rfl, h.presentFor_of_frame hs startWaitHigh_cfg startWaitHigh_mem⟩
  | waitLow => exact ⟨_, rfl, h.presentFor_of_frame hs startWaitLow_cfg startWaitLow_mem⟩
  | rxbit d => exact ⟨_, rfl, h.presentFor_of_frame hs startWaitHigh_cfg startWaitHigh_mem⟩
  | txbyte v => exact ⟨_, rfl, h.presentFor_of_frame hs (startByte_cfg v) (startByte_mem v)⟩
  | rxbyte v => exact ⟨_, rfl, h.presentFor_of_frame hs startRxByte_cfg startRxByte_mem⟩
  | injectHi => exact ⟨_, rfl, h.present (fun _ => h.timeoutEntry _) hs⟩
  | injectLo => exact ⟨_, rfl, h.present (fun _ => h.timeoutEntry _) hs⟩
  | irqEnter => exact ⟨_, rfl, h.present_of_frame hs irqEnter_cfg irqEnter_mem⟩
  | irqExit b => exact ⟨_, rfl, h.present_of_frame hs irqExit_cfg irqExit_mem⟩
  | transact n m =>
    refine ⟨_, rfl, ?_⟩
    split
    · exact h.tick hs
    · exact h.transactAll n m hs
  | relayFrame n m =>
    refine ⟨_, rfl, ?_⟩
    split
    · exact h.tick hs
    · exact h.runRelayWait _ (h.present (fun _ => h.relayFrame n m) hs)
  | relayReply v => exact ⟨_, rfl, h.presentCaller (fun _ hu => h.congr hu rfl rfl) hs⟩
  | relayDrop => exact ⟨_, rfl, h.presentCaller (fun _ hu => h.congr hu rfl rfl) hs⟩

/-- A step, of a tick or of any operation presented, keeps the property. -/
theorem step {t : State} (hs : P s) (hst : step s = .next t) : P t := by
  unfold Machine.step at hst
  split at hst
  · cases hst
    exact h.tick hs
  · next rest _ =>
    split at hst
    · next i _ =>
      obtain ⟨u, hu, hP⟩ := h.exec (s := { s with ops := rest }) i (h.congr hs rfl rfl)
      cases hu.symm.trans hst
      exact hP
    · cases hst

end

/-- To have a given configuration is such a property. -/
theorem cfg_eq (c : Config) : StoreInvariant (fun u => u.cfg = c) where
  congr hs hc _ := hc.trans hs
  memWrite _ _ hs := hs

end StoreInvariant

/-! ### What a tick does to `DONE` -/

/-- `DONE` and `ST` after a tick of a busy block: `DONE` is set exactly by going back to `IDLE` (R32). -/
def DoneIffIdle (t : State) : Prop := t.done = true ↔ t.st = .idle

theorem DoneIffIdle.of_busy {t : State} (hd : t.done = false) (hs : t.st ≠ .idle) : DoneIffIdle t := by
  simp [DoneIffIdle, hd, hs]

theorem doneIffIdle_finish (s : State) : DoneIffIdle (finish s) := by simp [DoneIffIdle]

theorem busy_eq_false_iff {s : State} : s.busy = false ↔ s.st = .idle := by simp [State.busy]

theorem busy_iff {s : State} : s.busy = true ↔ s.st ≠ .idle := by simp [State.busy]

section
variable {s : State} (hd : s.done = false)
include hd

theorem doneIffIdle_nextSymbol : DoneIffIdle (nextSymbol s) := by
  unfold nextSymbol
  split
  · exact .of_busy hd (by simp)
  · split <;> exact .of_busy hd (by simp)

theorem doneIffIdle_afterStop : DoneIffIdle (afterStop s) := by
  unfold afterStop
  split
  · exact doneIffIdle_finish s
  · exact .of_busy hd (by simp)

theorem doneIffIdle_nextByte : DoneIffIdle (nextByte s) := by
  unfold nextByte
  split
  · exact doneIffIdle_finish s
  · exact .of_busy hd (by simp)

theorem doneIffIdle_timeoutEntry (v : Byte) : DoneIffIdle (timeoutEntry v s) := doneIffIdle_nextByte hd

end

/-- A tick of a busy block sets `DONE` exactly when it goes back to `IDLE` (R32, R125). -/
theorem doneIffIdle_tick {s : State} (hr : s.input.rst = false) (hb : s.st ≠ .idle) : DoneIffIdle (tick s) := by
  have stays {u : State} (hd : u.done = false) (hu : u.st = s.st) : DoneIffIdle u := .of_busy hd (hu ▸ hb)
  cases hst : s.st with
  | idle => exact absurd hst hb
  | arm => rw [tick_arm hr hst]; exact doneIffIdle_nextSymbol rfl
  | txLow =>
    rw [tick_txLow hr hst, tickTxLow_elapse]
    split
    · exact stays rfl rfl
    · exact .of_busy rfl (by simp)
  | txHigh =>
    rw [tick_txHigh hr hst, tickTxHigh_elapse]
    split
    · exact stays rfl rfl
    · exact doneIffIdle_nextSymbol rfl
  | stopLow =>
    rw [tick_stopLow hr hst, tickStopLow_elapse]
    split
    · exact stays rfl rfl
    · split
      · exact .of_busy rfl (by simp)
      · exact doneIffIdle_afterStop rfl
  | stopHigh =>
    rw [tick_stopHigh hr hst, tickStopHigh_elapse]
    split
    · exact stays rfl rfl
    · exact doneIffIdle_afterStop rfl
  | rxWaitHigh =>
    rw [tick_rxWaitHigh hr hst, tickWaitHigh_elapse]
    split
    · exact .of_busy rfl (by simp)
    · split
      · exact doneIffIdle_timeoutEntry rfl _
      · exact stays rfl rfl
  | rxWaitLow =>
    rw [tick_rxWaitLow hr hst, tickWaitLow_elapse]
    split
    · exact .of_busy rfl (by simp)
    · split
      · exact doneIffIdle_timeoutEntry rfl _
      · exact stays rfl rfl
  | rxDelay =>
    rw [tick_rxDelay hr hst, tickDelay_elapse]
    split
    · exact stays rfl rfl
    · split
      · exact doneIffIdle_nextByte rfl
      · exact .of_busy rfl (by simp)

@[simp] theorem relayPoll_done (s : State) : (relayPoll s).done = s.done := by
  obtain ⟨m, i, r, e⟩ := exists_relayPoll s
  rw [e]

@[simp] theorem relayWait_done (s : State) : (relayWait s).done = s.done := by
  obtain ⟨m, i, r, e⟩ := exists_relayWait s
  rw [e]

@[simp] theorem relayAct_done (mayStart : Bool) (s : State) : (relayAct mayStart s).done = s.done := by
  unfold relayAct
  split
  · split
    · exact relayPoll_done _
    · rfl
  · exact relayPoll_done s
  · split <;> rfl
  · rfl

/-- What the caller does in an `IDLE` tick leaves `DONE` alone. -/
@[simp] theorem tickIdle_done (act : CallerAct) (mayStart : Bool) (s : State) :
    (tickIdle act mayStart s).done = s.done := by
  cases act with
  | quiet => exact relayWait_done s
  | start cb n rb m => rfl
  | setIe v => rfl
  | store a v => rfl
  | place cb rb => rfl
  | relay => exact relayAct_done mayStart s

/-- An `IDLE` tick clears `DONE` (R32). -/
theorem tick_done_of_idle {s : State} (hr : s.input.rst = false) (hs : s.st = .idle) : (tick s).done = false := by
  rw [tick_idle hr hs, tickIdle_done, elapse_done]

/-- `DONE` after a tick, in every state (R32). -/
theorem tick_done_iff (s : State) :
    (tick s).done = true ↔ s.input.rst = false ∧ s.busy = true ∧ (tick s).busy = false := by
  rw [busy_iff, busy_eq_false_iff]
  cases hr : s.input.rst with
  | true => simp [tick_of_rst hr]
  | false =>
    by_cases hs : s.st = .idle
    · simp [tick_done_of_idle hr hs, hs]
    · simpa [hs, DoneIffIdle] using doneIffIdle_tick hr hs

/-! ### The statements -/

/-- Settles O39: an `IDLE` tick and a reset clear `DONE`, and a busy tick sets it exactly by going to `IDLE`. -/
theorem doneAfterFinishOnly : Obligations.DoneAfterFinishOnly := by
  refine ⟨fun s => busy_iff, fun s t ho h => ?_⟩
  rw [step_eq_tick ho h]
  exact tick_done_iff s

/-- Settles O43: the configuration is a property that stores keep, so every step keeps it. -/
theorem noStepWritesConfiguration : Obligations.NoStepWritesConfiguration :=
  fun s _ h => (StoreInvariant.cfg_eq s.cfg).step rfl h

/-- Settles O9: the step is `resetStep`, field by field, and the line is released. -/
theorem resetLeavesTheResetValues : Obligations.ResetLeavesTheResetValues := by
  intro s ho hr
  refine ⟨resetStep s, by simp [step, ho, tick_of_rst hr], ?_⟩
  simp [State.busy, State.pinOe, State.pinOut, State.line, SameMemory, memRead]

end Sys2Proof.Machine

/-! ## Proofs: the buffer memory (`spec/20_memory.md`)

A whole transaction from `ARM` to `DONE`: its transmit phase (`transmitRun`), the receive phase on any waveform
(`BytesRun`), and from these two the accesses at the memory port. -/

namespace Sys2Proof.Machine

/-! ### Runs of a busy block -/

/-- `k` ticks of a block that stays busy, from `s` to `t`, with the addresses read and written on the way. -/
structure BusyRun (k : Nat) (s : State) (reads writes : List Nat) (t : State) : Prop where
  busy : ∀ j < k, (ticks j s).busy = true
  reads : readTrace k s = reads
  writes : writeTrace k s = writes
  ends : ticks k s = t

/-- One run after another. -/
theorem BusyRun.trans {j k : Nat} {s t u : State} {r₁ r₂ w₁ w₂ : List Nat} (h₁ : BusyRun j s r₁ w₁ t)
    (h₂ : BusyRun k t r₂ w₂ u) : BusyRun (j + k) s (r₁ ++ r₂) (w₁ ++ w₂) u where
  busy i hi := by
    rcases Nat.lt_or_ge i j with hij | hij
    · exact h₁.busy i hij
    · obtain ⟨x, rfl⟩ := Nat.exists_eq_add_of_le hij
      rw [ticks_add, h₁.ends]
      exact h₂.busy x (by omega)
  reads := by rw [readTrace_add, h₁.ends, h₁.reads, h₂.reads]
  writes := by rw [writeTrace_add, h₁.ends, h₁.writes, h₂.writes]
  ends := by rw [ticks_add, h₁.ends, h₂.ends]

/-! ### The transmit phase -/

/-- The block is busy for all ticks of a command byte (R103). -/
theorem busy_startByte {s : State} (v : Byte) (h : NoReset s (8 * s.period)) {j : Nat} (hj : j < 8 * s.period) :
    (ticks j (startByte v s)).busy = true := by
  have hper : 0 < s.period := Nat.zero_lt_of_lt (s.low_lt_period true)
  have hbit : j / s.period < 8 := Nat.div_lt_of_lt_mul (by rwa [Nat.mul_comm])
  have hsum : j / s.period * s.period + j % s.period = j := Nat.div_add_mod' j s.period
  obtain ⟨hst, -⟩ := ticks_startByte_at v (Nat.le_of_lt_succ hbit) (Nat.mod_lt j hper) (h.mono (by omega))
  rw [hsum] at hst
  rw [busy_iff, hst]
  split <;> simp

/-- The block is busy for all ticks of the command bytes still to be sent (R105). -/
theorem busy_command (r : Nat) {s : State} (hb : s.bitcnt = 0) (hsh : s.shreg = 0)
    (hr : s.txidx.toNat + r = s.n.toNat) (h : NoReset s (r * (8 * s.period))) {j : Nat} (hj : j < r * (8 * s.period)) :
    (ticks j (nextSymbol s)).busy = true := by
  have hper : 0 < 8 * s.period := Nat.pos_of_mul_pos_left (Nat.zero_lt_of_lt hj)
  obtain ⟨i, x, hx, rfl⟩ : ∃ i x, x < 8 * s.period ∧ j = i * (8 * s.period) + x :=
    ⟨_, _, Nat.mod_lt j hper, (Nat.div_add_mod' j _).symm⟩
  have hir : i < r := Nat.lt_of_mul_lt_mul_right (a := 8 * s.period) (by omega)
  have hnext : (i + 1) * (8 * s.period) ≤ r * (8 * s.period) := Nat.mul_le_mul_right _ hir
  rw [Nat.add_mul, Nat.one_mul] at hnext
  obtain ⟨cb, hcb⟩ := ticks_commandByte i hb hsh (by omega) (h.mono (by omega))
  set u := ((elapseN (i * (8 * s.period)) s).withTxidx (s.txidx + BitVec.ofNat 8 i)).withBits 0 0 cb with hu
  have huper : u.period = s.period := by simp [hu]
  have hun : u.n = s.n := by simp [hu]
  have hutx : u.txidx.toNat = s.txidx.toNat + i := by
    have := s.n.isLt
    rw [hu, withBits_txidx, withTxidx_txidx, BitVec.toNat_add, BitVec.toNat_ofNat]
    omega
  rw [ticks_add, hcb, nextSymbol_byte rfl (by rw [hutx, hun]; omega)]
  refine busy_startByte _ ?_ (by rwa [huper])
  rw [huper]
  intro y hy
  rw [hu, withBits_inputAt, withTxidx_inputAt, inputAt_elapseN]
  exact h _ (by omega)

/-- The `ARM` tick fetches the first command byte, if there is one (R52, R125). -/
theorem armRun {s : State} (hst : s.st = .arm) (hr : s.input.rst = false) :
    BusyRun 1 s (fetches s) [] (nextSymbol (elapse s)) := by
  have hport : memPort s = fetchPort s := by simp [memPort, hr, hst]
  obtain ⟨hreads, hwrites⟩ := memPort_fetches s
  refine ⟨fun j hj => ?_, ?_, ?_, tick_arm hr hst⟩
  · obtain rfl : j = 0 := by omega
    simp [State.busy, hst]
  · simp [readTrace, hport, hreads]
  · simp [writeTrace, hport, hwrites]

/-- The stop bit accesses nothing (R104). -/
theorem stopRun {s : State} (h : NoReset s (s.t + s.cfg.stopTail)) :
    BusyRun (s.t + s.cfg.stopTail) (startStop s) [] []
      (afterStop (((elapseN (s.t + s.cfg.stopTail) s).inPhase (stopEnd s) .input 1).withBits s.shreg s.bitcnt true)) := by
  have hplace : ∀ j < s.t + s.cfg.stopTail, (ticks j (startStop s)).st = .stopLow ∨ (ticks j (startStop s)).st = .stopHigh :=
    fun j hj => (ticks_startStop_at hj h).imp And.left And.left
  obtain ⟨hreads, hwrites⟩ := trace_nil fun j hj => memPort_timed (.inr (.inr (hplace j hj)))
  refine ⟨fun j hj => ?_, hreads, hwrites, ticks_startStop h⟩
  rcases hplace j hj with hst | hst <;> simp [State.busy, hst]

/-- The ticks of the transmit phase, the `ARM` tick among them (R133). -/
def State.transmitTicks (s : State) : Nat := 1 + 8 * s.period * s.n.toNat + s.t + s.cfg.stopTail

/-- The state in which the transmit phase ends: every command byte sent, the stop bit in its last tick (R104). -/
def State.transmitted (s : State) : State :=
  (((elapseN s.transmitTicks s).withTxidx s.n).inPhase (stopEnd s) .input 1).withBits 0 0 true

/-- The transmit phase of a transaction in `ARM`, its datapath cleared: the `ARM` tick, the N command bytes, each read
once and in order, and the stop bit (R57, R58, R105). -/
theorem transmitRun {s : State} (hst : s.st = .arm) (hb : s.bitcnt = 0) (hsh : s.shreg = 0) (htx : s.txidx = 0)
    (h : NoReset s s.transmitTicks) :
    BusyRun s.transmitTicks s ((List.range s.n.toNat).map s.cmdAddr) [] (afterStop s.transmitted) := by
  have hp : s.transmitTicks = 1 + s.n.toNat * (8 * s.period) + (s.t + s.cfg.stopTail) := by
    rw [State.transmitTicks, Nat.mul_comm s.n.toNat, Nat.add_assoc]
  have hrc : NoReset (elapse s) (s.n.toNat * (8 * s.period)) := fun j hj => by
    rw [inputAt_elapse]
    exact h _ (by omega)
  have hn : (elapse s).txidx.toNat + s.n.toNat = (elapse s).n.toNat := by simp [htx]
  obtain ⟨hreads, hwrites⟩ := trace_command s.n.toNat (s := elapse s) hb hsh hn hrc
  set u := (elapseN (s.n.toNat * (8 * s.period)) (elapse s)).withTxidx s.n with hu
  have hcmd : BusyRun (s.n.toNat * (8 * s.period)) (nextSymbol (elapse s)) _ [] (startStop u) :=
    ⟨fun _ => busy_command _ (s := elapse s) hb hsh hn hrc, rfl, hwrites, ticks_command _ (s := elapse s) hb hsh hn hrc⟩
  have hut : u.t + u.cfg.stopTail = s.t + s.cfg.stopTail := by simp [hu, State.t]
  have hstop := stopRun (s := u) fun j hj => by
    rw [hut] at hj
    rw [hu, withTxidx_inputAt, inputAt_elapseN, inputAt_elapse]
    exact h _ (by omega)
  rw [hut] at hstop
  have hlater : elapseN s.transmitTicks s =
      elapseN (s.t + s.cfg.stopTail) (elapseN (s.n.toNat * (8 * s.period)) (elapse s)) := by
    rw [hp, elapseN_add _ (s.t + s.cfg.stopTail), elapseN_add 1]
    rfl
  have hrun := ((armRun hst (h 0 (by omega))).trans hcmd).trans hstop
  rw [← hp] at hrun
  refine ⟨hrun.busy, ?_, hrun.writes, hrun.ends.trans ?_⟩
  · rw [hrun.reads, List.append_nil]
    exact hreads.trans (List.map_congr_left fun i _ => by simp [State.cmdAddr, State.wrap, htx])
  · rw [State.transmitted, hlater, hu, elapseN_withTxidx]
    simp [stopEnd, hsh, hb]

/-! #### The state in which it ends -/

section
variable (s : State)
@[simp] theorem transmitted_cfg : s.transmitted.cfg = s.cfg := by simp [State.transmitted]
@[simp] theorem transmitted_dir : s.transmitted.dir = .input := rfl
@[simp] theorem transmitted_rxidx : s.transmitted.rxidx = s.rxidx := by simp [State.transmitted]
@[simp] theorem transmitted_m : s.transmitted.m = s.m := by simp [State.transmitted]
@[simp] theorem transmitted_respAddr (j : Nat) : s.transmitted.respAddr j = s.respAddr j := by
  simp [State.transmitted, State.respAddr, State.wrap]
@[simp] theorem transmitted_mem : s.transmitted.mem = s.mem := by simp [State.transmitted]
@[simp] theorem transmitted_bitTicks : s.transmitted.bitTicks = s.bitTicks := by
  simp [State.bitTicks, State.sampleDelay, State.t]
@[simp] theorem transmitted_inputAt (j : Nat) : s.transmitted.inputAt j = s.inputAt (s.transmitTicks + j) := by
  simp [State.transmitted]
@[simp] theorem afterStop_respAddr (j : Nat) : (afterStop s).respAddr j = s.respAddr j := by
  unfold afterStop; split <;> rfl
@[simp] theorem afterStop_mem : (afterStop s).mem = s.mem := by unfold afterStop; split <;> rfl
theorem afterStop_rxidx {s : State} (h : s.rxidx = 0) : (afterStop s).rxidx = 0 := by
  unfold afterStop
  split
  · exact h
  · rfl
end

/-! ### The receive phase -/

/-- The bytes of a receive phase still to come, on any waveform: at most `8*(2*POLL_CAP + 2*T)` ticks each (R119). -/
theorem exists_bytesRun (r : Nat) {s : State} (hst : s.st = .rxWaitHigh) (hd : s.dir = .input) (hc : s.cnt = 0)
    (hb : s.bitcnt = 0) (hm : s.rxidx.toNat + (r + 1) = s.m.toNat) (hr : NoReset s ((r + 1) * (8 * s.bitTicks))) :
    ∃ k w, k ≤ (r + 1) * (8 * s.bitTicks) ∧ BytesRun s (r + 1) k w := by
  induction r generalizing s with
  | zero =>
    obtain ⟨k, v, hk, hrun⟩ := exists_byteRun 7 hst hd hc (by simp [hb]) (hr.mono (by omega))
    exact ⟨k, fun _ => v, by omega, .one hrun (hr.mono (by omega)) hd hm rfl⟩
  | succ r ih =>
    have hmul : (r + 1 + 1) * (8 * s.bitTicks) = 8 * s.bitTicks + (r + 1) * (8 * s.bitTicks) := by
      rw [Nat.add_mul (r + 1), Nat.one_mul, Nat.add_comm]
    rw [hmul] at hr ⊢
    obtain ⟨k, v, hk, hrun⟩ := exists_byteRun 7 hst hd hc (by simp [hb]) (hr.mono (by omega))
    obtain ⟨t, ht, heq⟩ := hrun.ends
    obtain ⟨hstored, hpassed⟩ := ht.byteStored v hrun.pos hd
    rw [← heq] at hstored hpassed
    have hlt := s.m.isLt
    have hlast : s.lastByte = false := by
      rw [State.lastByte, beq_eq_false_iff_ne]
      omega
    obtain ⟨hst', hc', -, hb', hrx', -, hd', -⟩ := hstored.next hlast
    have hbt : (ticks k s).bitTicks = s.bitTicks := by
      simp [State.bitTicks, State.sampleDelay, State.t, hpassed.cfg]
    have hm' : (ticks k s).rxidx.toNat + (r + 1) = (ticks k s).m.toNat := by
      rw [hrx', hstored.operands.m, BitVec.toNat_add]
      simp
      omega
    obtain ⟨k', w, hk', hrest⟩ := ih hst' (hd'.trans hd) hc' hb' hm'
      (by rw [hbt]; exact NoReset.ticks (hr.mono (by omega)))
    rw [hbt] at hk'
    exact ⟨k + k', Stream'.cons v w, by omega, .cons hrun (hr.mono (by omega)) hd (by omega) rfl hrest⟩

/-- No byte to come: the transaction has finished. -/
theorem bytesRun_finish (s : State) (w : Nat → Byte) : BytesRun (finish s) 0 0 w where
  busy j hj := absurd hj (Nat.not_lt_zero j)
  idle := rfl
  done := rfl
  dir := rfl
  ie := rfl
  ieSaved := rfl
  txidx := rfl
  operands := ⟨rfl, rfl, rfl, rfl⟩
  caller := ⟨rfl, rfl, rfl, rfl, rfl, rfl, rfl, rfl, rfl⟩
  passed := passed_elapseN 0 _
  reads := rfl
  writes := rfl
  others _ _ := rfl
  bytes _ i hi := absurd hi (Nat.not_lt_zero i)

/-- What follows the stop bit, on any waveform: the M response bytes, or with none the end of the transaction. -/
theorem exists_bytesRun_afterStop {s : State} (hd : s.dir = .input) (hr : NoReset s (s.m.toNat * (8 * s.bitTicks))) :
    ∃ k w, k ≤ s.m.toNat * (8 * s.bitTicks) ∧ BytesRun (afterStop s) s.m.toNat k w := by
  by_cases hm : s.m = 0
  · exact ⟨0, fun _ => 0, Nat.zero_le _, by rw [afterStop, if_pos hm, hm]; exact bytesRun_finish s _⟩
  · obtain ⟨r, hr'⟩ : ∃ r, s.m.toNat = r + 1 := Nat.exists_eq_succ_of_ne_zero fun h => hm (BitVec.eq_of_toNat_eq h)
    rw [afterStop, if_neg hm, hr']
    rw [hr'] at hr
    exact exists_bytesRun r (s := startRxByte { s with rxidx := 0 }) rfl hd rfl rfl (by simp [hr']) hr

/-! ### A whole transaction -/

section
variable (n m : Byte) (s : State)

/-- The command addresses of an accepted transaction are those on the port, modulo `2^ADDR_W` (R29, R51). -/
theorem accept_cmdAddr (i : Nat) : (accept n m s).cmdAddr i = s.wrap (s.portCmdBase + i) := Nat.mod_add_mod _ _ _

/-- The response addresses likewise. -/
theorem accept_respAddr (j : Nat) : (accept n m s).respAddr j = s.wrap (s.portRespBase + j) := Nat.mod_add_mod _ _ _

/-- The most ticks of a transaction: its transmit phase and M bytes of the longest duration (R133). -/
theorem transactTicks_eq : s.transactTicks n m =
    (accept n m (elapse s)).transmitTicks + m.toNat * (8 * (accept n m (elapse s)).bitTicks) := rfl

end

/-- `TRANSACT` presented to an idle block, on any waveform: the transmit phase, then the M response bytes, then `IDLE`
(R128, R133). -/
theorem exists_transactRun {s a : State} {n m : Byte} (ha : a = accept n m (elapse s)) (hs : s.st = .idle)
    (h : NoReset s (1 + s.transactTicks n m)) :
    BusyRun a.transmitTicks a ((List.range n.toNat).map a.cmdAddr) [] (afterStop a.transmitted) ∧
    ∃ r w, r ≤ m.toNat * (8 * s.bitTicks) ∧ exec (.transact n m) s = .next (ticks (a.transmitTicks + r) a) ∧
      BytesRun (afterStop a.transmitted) m.toNat r w := by
  subst ha
  set a := accept n m (elapse s) with ha
  rw [Nat.add_comm] at h
  have hr : NoReset a (a.transmitTicks + m.toNat * (8 * a.bitTicks)) :=
    transactTicks_eq n m s ▸ h.start (f := accept n m) fun _ => ⟨rfl, rfl⟩
  have htx := transmitRun (s := a) rfl rfl rfl rfl (hr.mono (by omega))
  have hrx : NoReset a.transmitted (a.transmitted.m.toNat * (8 * a.transmitted.bitTicks)) := fun j hj => by
    rw [transmitted_m, transmitted_bitTicks] at hj
    rw [transmitted_inputAt]
    exact hr _ (Nat.add_lt_add_left hj _)
  obtain ⟨r, w, hle, hrun⟩ := exists_bytesRun_afterStop (transmitted_dir a) hrx
  rw [transmitted_m, transmitted_bitTicks] at hle
  rw [transmitted_m] at hrun
  refine ⟨htx, r, w, hle, ?_, hrun⟩
  have hall := htx.trans ⟨hrun.busy, hrun.reads, hrun.writes, rfl⟩
  have hidle : (ticks (a.transmitTicks + r) a).busy = false := by
    rw [hall.ends, busy_eq_false_iff]
    exact hrun.idle
  have hbusy : runBusy (s.transactTicks n m) a = ticks (a.transmitTicks + r) a :=
    runBusy_eq (Nat.add_le_add_left hle _) hall.busy hidle
  show Host.Outcome.next (if s.busy then tick s else transactAll n m s) = _
  rw [if_neg (by simp [State.busy, hs]), transactAll, if_neg (by simp [h.head]), ← ha, hbusy]

/-! ### The statement -/

/-- Settles O33: the transmit phase reads the N command bytes and writes nothing, the receive phase reads nothing and
stores the M response bytes, and no other byte is written. -/
theorem transactAccesses : Obligations.TransactAccesses := by
  intro s n m hs h a p
  obtain ⟨htx, r, w, -, hexec, hrx⟩ := exists_transactRun (a := a) rfl hs h
  have hp : a.transmitTicks = p := rfl
  rw [hp] at htx hexec
  set u := afterStop a.transmitted with hu
  have hall := htx.trans ⟨hrx.busy, hrx.reads, hrx.writes, rfl⟩
  have hresp : ∀ j, u.respAddr (u.rxidx.toNat + j) = s.wrap (s.portRespBase + j) := fun j => by
    have hfirst : u.rxidx.toNat + j = j := by
      rw [hu, afterStop_rxidx (transmitted_rxidx a)]
      exact Nat.zero_add j
    rw [hfirst, hu, afterStop_respAddr, transmitted_respAddr]
    exact accept_respAddr n m (elapse s) j
  have hmem : ∀ x, memRead u x = memRead s x := fun x => by
    rw [memRead, hu, afterStop_mem, transmitted_mem]
    rfl
  refine ⟨p + r, hexec, ?_, Nat.le_add_right p r, htx.writes, ?_, ?_, ?_, ?_⟩
  · rw [hall.ends]
    exact hrx.done
  · rw [Nat.add_sub_cancel_left, htx.ends]
    exact hrx.reads
  · rw [hall.reads, List.append_nil]
    exact List.map_congr_left fun i _ => accept_cmdAddr n m (elapse s) i
  · rw [hall.writes, List.nil_append]
    exact List.map_congr_left fun j _ => hresp j
  · intro x hx
    rw [hall.ends, hrx.others x (by simpa only [hresp] using hx), hmem]

end Sys2Proof.Machine

/-! ## Proofs: the pin driver (`spec/40_pin_driver.md`)

The line and the pin's output enable as equivalences, so that later proofs need not unfold them. -/

namespace Sys2Proof.Machine

variable {s : State}

/-- The wired-AND with a pull-up: either side alone pulls the line low (R93). -/
theorem line_eq_false_iff : s.line = false ↔ s.dir = .output ∨ s.input.extLow = true := by
  rw [State.line, Bool.not_eq_false', Bool.or_eq_true, beq_iff_eq]

/-- The output enable follows the direction register (R34). -/
theorem pinOe_iff : s.pinOe = true ↔ s.dir = .output := by
  rw [State.pinOe, beq_iff_eq]

/-- Settles O17: the line is the wired-AND of both sides, the output latch is the constant 0 (R35), and the output
enable is `DIR`. -/
theorem lineIsWiredAnd : Obligations.LineIsWiredAnd :=
  fun _ => ⟨line_eq_false_iff, rfl, pinOe_iff⟩

end Sys2Proof.Machine

/-! ## Proofs: the data symbols (`spec/41_transmit.md`)

What the two operations `TX0` and `TX1` share, the bit being their parameter, and the schedule of R100 and R101 from the
closed forms of the symbol's two phases. -/

namespace Sys2Proof.Machine

/-! ### The start of a symbol -/

section
variable (b : Bool) (s : State)

/-- A symbol begins with CNT at the length of its low phase (R100, R101). -/
theorem startSymbol_cnt_eq_low : (startSymbol b s).cnt = (startSymbol b s).low (startSymbol b s).curbit := rfl

/-- Besides `ST`, `DIR` and CNT, the start of a symbol writes `CURBIT` alone (R100, R101). -/
theorem startSymbol_inPhase (st : SeqState) (d : Dir) (c : Nat) :
    (startSymbol b s).inPhase st d c = (s.inPhase st d c).withBits s.shreg s.bitcnt b := rfl

/-- Either operation is the start of its bit's symbol and a symbol's ticks. -/
theorem exec_symbol :
    exec (if b then .tx1 else .tx0) s = .next (presentFor (startSymbol b) untilCut s.period s) := by
  cases b <;> rfl

/-- Its image is the symbol `0bb1` (R71). -/
theorem encode_symbol_image : (encode (if b then .tx1 else .tx0)).image = symbolImage b := by
  cases b <;> rfl

end

/-! ### The line in a tick -/

/-- A driven line is low, whatever the controller does (R93). -/
theorem line_of_output {s : State} (h : s.dir = .output) : s.line = false :=
  line_eq_false_iff.2 (Or.inl h)

/-- A released line is what the controller makes it (R93). -/
theorem line_ticks_of_input {s : State} {k : Nat} (h : (ticks k s).dir = .input) :
    (ticks k s).line = s.wireAt k := by
  rw [line_of_input h, State.wireAt, inputAt_ticks, Nat.add_zero, State.wireAt]

/-! ### The phases of a symbol -/

section
variable {b : Bool} {s : State} {k : Nat}

/-- A tick of the low phase (R100, R101). -/
theorem startSymbol_lowPhase (hk : k < s.low b) (h : NoReset (startSymbol b s) k) :
    (ticks k (startSymbol b s)).st = .txLow ∧ (ticks k (startSymbol b s)).dir = .output ∧
      (ticks k (startSymbol b s)).line = false ∧ (ticks k (startSymbol b s)).curbit = b ∧
      (ticks k (startSymbol b s)).cnt = s.low b - k := by
  have hrun : ticks k (startSymbol b s) = (elapseN k (startSymbol b s)).withCnt (s.low b - k) :=
    ticks_symbol_low rfl (startSymbol_cnt_eq_low b s) hk h
  have hdir : (ticks k (startSymbol b s)).dir = .output := by simp [hrun]
  exact ⟨by simp [hrun], hdir, line_of_output hdir, by simp [hrun], by simp [hrun]⟩

/-- A tick of the released phase (R100, R101). -/
theorem startSymbol_highPhase (hl : s.low b ≤ k) (hk : k < s.period) (h : NoReset (startSymbol b s) k) :
    (ticks k (startSymbol b s)).st = .txHigh ∧ (ticks k (startSymbol b s)).dir = .input ∧
      (ticks k (startSymbol b s)).line = s.wireAt k ∧ (ticks k (startSymbol b s)).curbit = b ∧
      (ticks k (startSymbol b s)).cnt = s.period - k := by
  have hrun : ticks k (startSymbol b s) = (elapseN k (startSymbol b s)).inPhase .txHigh .input (s.period - k) :=
    ticks_symbol_high rfl (startSymbol_cnt_eq_low b s) hl hk h
  have hdir : (ticks k (startSymbol b s)).dir = .input := by simp [hrun]
  exact ⟨by simp [hrun], hdir, line_ticks_of_input hdir, by simp [hrun], by simp [hrun]⟩

/-- A symbol's last tick starts what follows, `CURBIT` its bit and the rest of the byte as it was (R102). -/
theorem ticks_startSymbol (h : NoReset (startSymbol b s) s.period) :
    ticks s.period (startSymbol b s) =
      nextSymbol (((elapseN s.period s).inPhase .txHigh .input 1).withBits s.shreg s.bitcnt b) := by
  have hend : ticks s.period (startSymbol b s) =
      nextSymbol ((elapseN s.period (startSymbol b s)).inPhase .txHigh .input 1) :=
    ticks_symbol rfl (startSymbol_cnt_eq_low b s) h
  rw [hend, elapseN_startSymbol, startSymbol_inPhase, elapseN_shreg, elapseN_bitcnt]

end

/-! ### The statement -/

/-- Settles O20: the tick of presentation passes, and the symbol's two phases and its last tick follow from there. -/
theorem symbolSchedule : Obligations.SymbolSchedule := by
  intro s b h a
  have hclock : ∀ u, (startSymbol b u).env = u.env ∧ (startSymbol b u).now = u.now := fun _ => ⟨rfl, rfl⟩
  have ha : NoReset a s.period := h.start hclock
  have hwire : ∀ j, (elapse s).wireAt j = s.wireAt (1 + j) := wireAt_elapseN 1 s
  have hlow : s.low b < s.period := State.low_lt_period s b
  refine ⟨encode_symbol_image b, ?_, fun j hj => ?_, fun j hl hj => ?_, ?_⟩
  · rw [exec_symbol, presentFor_cut hclock h]
  · exact startSymbol_lowPhase hj (ha.mono (by omega))
  · rw [← hwire]
    exact startSymbol_highPhase hl hj (ha.mono (by omega))
  · exact ticks_startSymbol ha

end Sys2Proof.Machine

/-! ## Proofs: the transaction (`spec/43_transaction.md`)

What a tick lets the caller do, in a busy block (nothing) and in an idle one (a `start` is accepted); where each piece of
`Step` leads, as an equation for `ST`; and from these the table of transitions. -/

namespace Sys2Proof.Machine

/-! ### The caller's act in a tick -/

/-- A busy block does not look at what the caller does (R8, R129). -/
theorem tickCase_of_busy {s : State} (hb : s.busy = true) (act act' : CallerAct) (mayStart pin : Bool) :
    tickCase act mayStart pin s = tickCase act' mayStart pin s := by
  cases hst : s.st with
  | idle => exact absurd hst (busy_iff.1 hb)
  | arm | txLow | txHigh | stopLow | stopHigh | rxWaitHigh | rxWaitLow | rxDelay => simp only [tickCase, hst]

/-- The tick in which the caller does something else than scheduled: its act alone is another. -/
theorem tick_withEnv_act {s : State} {i : TickIn} {rest : List TickIn} (henv : s.env = i :: rest) (act : CallerAct) :
    tick (s.withEnv ({ i with act := act } :: rest)) =
      if i.rst then resetStep s else tickCase act (s.gapLeft == 0) s.line (elapse s) := by
  have hs : s = s.withEnv (i :: rest) := by rw [← henv]; rfl
  rw [hs]
  rfl

/-- A busy tick is the same whatever the caller does (R129). -/
theorem tick_withEnv_act_of_busy {s : State} {i : TickIn} {rest : List TickIn} (hb : s.busy = true)
    (henv : s.env = i :: rest) (act : CallerAct) : tick (s.withEnv ({ i with act := act } :: rest)) = tick s := by
  have hin : s.input = i := by simp [State.input, State.inputAt, henv]
  have hbe : (elapse s).busy = true := hb
  rw [tick_withEnv_act henv, tick, hin, tickCase_of_busy hbe act i.act]

/-- An idle block accepts a `start` with the operands on its ports, whatever `DONE` and the gap (R129). -/
theorem tick_start {s : State} {cb rb : Nat} {n m : Byte} (hr : s.input.rst = false) (hs : s.st = .idle)
    (hact : s.input.act = .start cb n rb m) :
    tick s = accept n m { elapse s with portCmdBase := cb, portRespBase := rb } := by
  rw [tick_idle hr hs, hact]
  rfl

/-- Settles O10: a busy tick does not depend on the caller's act, and the tick of an idle block with `start` raised is
`accept` after the tick's passing. -/
theorem startIsAcceptedWhenIdleOnly : Obligations.StartIsAcceptedWhenIdleOnly := by
  refine ⟨fun s i rest act hb henv => tick_withEnv_act_of_busy hb henv act, ?_⟩
  intro s cb rb n m ho hb hr hact
  have hp : Passed 1 s (elapse s) := passed_elapseN 1 s
  refine ⟨tick s, by simp [step, ho], ?_⟩
  rw [tick_start hr (busy_eq_false_iff.1 hb) hact]
  exact ⟨rfl, rfl, rfl, rfl, rfl, rfl, rfl, rfl, rfl, rfl, rfl, rfl, rfl, rfl, rfl, fun _ => rfl,
    hp.now, hp.env, hp.hostIn, hp.cfg, hp.ops, hp.sensed⟩

/-! ### Where each piece of `Step` leads -/

/-- `NextSymbol` starts a symbol while bits or command bytes are left, else the stop bit (R102, R104). -/
theorem nextSymbol_st (s : State) :
    (nextSymbol s).st = if 0 < s.bitcnt.toNat ∨ s.txidx.toNat < s.n.toNat then .txLow else .stopLow := by
  unfold nextSymbol
  split
  · next hb => simp [hb]
  · next hb =>
    split
    · next hn => simp [hn]
    · next hn => simp [hb, hn]

/-- `AfterStop` goes on to the response bytes, if any are requested (R125). -/
theorem afterStop_st (s : State) : (afterStop s).st = if 0 < s.m.toNat then .rxWaitHigh else .idle := by
  by_cases h : s.m = 0
  · simp [afterStop, h]
  · have hm : 0 < s.m.toNat := Nat.pos_of_ne_zero fun h0 => h (BitVec.eq_of_toNat_eq h0)
    rw [afterStop, if_neg h, if_pos hm, startRxByte_st]

/-- `NextByte` goes on to the next response byte, if the one received was not the last (R114). -/
theorem nextByte_st {s : State} (h : s.rxidx.toNat < s.m.toNat) :
    (nextByte s).st = if s.rxidx.toNat + 1 < s.m.toNat then .rxWaitHigh else .idle := by
  by_cases hn : s.rxidx.toNat + 1 < s.m.toNat
  · have hl : s.lastByte = false := beq_eq_false_iff_ne.2 hn.ne
    simp [nextByte, hl, hn]
  · have hl : s.lastByte = true := beq_iff_eq.2 (by omega)
    simp [nextByte, hl, hn]

/-- In a tick that ends a byte, sampled or timed out, the next byte begins or the transaction ends (R114, R164). -/
theorem nextByte_store_elapse_st (x : Byte) {s : State} (h : s.rxidx.toNat < s.m.toNat) :
    (nextByte (store x (elapse s))).st = if s.rxidx.toNat + 1 < s.m.toNat then .rxWaitHigh else .idle :=
  nextByte_st (s := store x (elapse s)) h

@[simp] theorem relayPoll_st (s : State) : (relayPoll s).st = s.st := by
  obtain ⟨m, i, r, e⟩ := exists_relayPoll s
  rw [e]

@[simp] theorem relayWait_st (s : State) : (relayWait s).st = s.st := by
  obtain ⟨m, i, r, e⟩ := exists_relayWait s
  rw [e]

/-- The relay's action leaves `ST` alone, unless it starts its frame's transaction (R144, R183). -/
theorem relayAct_st (mayStart : Bool) (s : State) :
    (relayAct mayStart s).st = if s.relay == .transact && mayStart then .arm else s.st := by
  unfold relayAct
  split
  next hrelay =>
    rw [hrelay]
    split
    · exact relayPoll_st _
    · rfl
  next hrelay => rw [hrelay]; exact relayPoll_st s
  next hrelay => rw [hrelay]; cases mayStart <;> rfl
  next hrelay => rw [hrelay]; rfl

/-- An `IDLE` tick leads to `ARM` exactly with the port `start` raised (R127, R129). -/
theorem tickIdle_elapse_st (s : State) :
    (tickIdle s.input.act (s.gapLeft == 0) (elapse s)).st = if s.startPort then .arm else s.st := by
  unfold State.startPort
  cases s.input.act with
  | quiet => exact relayWait_st (elapse s)
  | start cb n rb m => rfl
  | setIe v => rfl
  | store a v => rfl
  | place cb rb => rfl
  | relay => exact relayAct_st _ (elapse s)

/-! ### The table of transitions -/

/-- A tick leads where the table of R127 says. -/
theorem tick_st {s : State} (h : BlockInv s) : (tick s).st = s.nextPlace := by
  unfold State.nextPlace
  cases hr : s.input.rst with
  | true => rw [tick_of_rst hr]; rfl
  | false =>
    rw [if_neg Bool.false_ne_true]
    cases hst : s.st with
    | idle => rw [tick_idle hr hst, tickIdle_elapse_st, hst]
    | arm =>
      obtain ⟨htx, hbit⟩ := h.armed hst
      rw [tick_arm hr hst, nextSymbol_st]
      simp [htx, hbit]
    | txLow =>
      rw [tick_txLow hr hst, tickTxLow_elapse]
      split
      · exact hst
      · rfl
    | txHigh =>
      rw [tick_txHigh hr hst, tickTxHigh_elapse]
      split
      · exact hst
      · exact nextSymbol_st (elapse s)
    | stopLow =>
      rw [tick_stopLow hr hst, tickStopLow_elapse]
      split
      · exact hst
      · split
        · rfl
        · exact afterStop_st (releaseLine (elapse s))
    | stopHigh =>
      rw [tick_stopHigh hr hst, tickStopHigh_elapse]
      split
      · exact hst
      · exact afterStop_st (elapse s)
    | rxWaitHigh =>
      have hrx : s.rxidx.toNat < s.m.toNat := h.rxidx (.inl hst)
      rw [tick_rxWaitHigh hr hst, tickWaitHigh_elapse]
      split
      · rfl
      · split
        · next hcap =>
          rw [timeoutHigh, timeoutEntry, nextByte_store_elapse_st _ hrx]
          simp [Nat.not_lt.2 hcap]
        · next hcap => simp [hst, Nat.not_le.1 hcap]
    | rxWaitLow =>
      have hrx : s.rxidx.toNat < s.m.toNat := h.rxidx (.inr (.inl hst))
      rw [tick_rxWaitLow hr hst, tickWaitLow_elapse]
      split
      · rfl
      · split
        · next hcap =>
          rw [timeoutLow, timeoutEntry, nextByte_store_elapse_st _ hrx]
          simp [Nat.not_lt.2 hcap]
        · next hcap => simp [hst, Nat.not_le.1 hcap]
    | rxDelay =>
      have hrx : s.rxidx.toNat < s.m.toNat := h.rxidx (.inr (.inr hst))
      rw [tick_rxDelay hr hst, tickDelay_elapse]
      split
      · exact hst
      · split
        · next hbit =>
          rw [nextByte_store_elapse_st _ hrx]
          simp [hbit]
        · next hbit =>
          have hne : s.bitcnt.toNat ≠ 7 := fun he => hbit (BitVec.eq_of_toNat_eq he)
          have hlt : s.bitcnt.toNat < 7 := lt_of_le_of_ne h.bitcnt hne
          simp [hlt]

/-- Settles O38: a step with nothing presented is a tick, and a tick leads where the table says. -/
theorem transitionTable : Obligations.TransitionTable := by
  intro s t h hstep
  rw [step_eq_tick h.quiet hstep]
  exact tick_st h

end Sys2Proof.Machine

/-! ## Proofs: the exceptions (`spec/60_exceptions.md`)

The tick of the last failed poll, as an equation for each of the two waits, and what the entry of a timeout leaves. -/

namespace Sys2Proof.Machine

/-! ### The tick of the last failed poll -/

section
variable {s : State} (hr : s.input.rst = false) (hcap : s.cfg.pollCap ≤ s.cnt + 1)
include hr hcap

/-- The line has not risen: `SENT_HI` ends the byte (R157, R164). -/
theorem tick_timesOut_high (hst : s.st = .rxWaitHigh) (hl : s.line = false) :
    tick s = timeoutEntry s.cfg.sentHi (elapse s) := by
  rw [tick_rxWaitHigh hr hst, tickWaitHigh_elapse, hl, if_neg Bool.false_ne_true, if_pos hcap]
  rfl

/-- The line has not fallen: `SENT_LO` ends the byte (R158, R164). -/
theorem tick_timesOut_low (hst : s.st = .rxWaitLow) (hl : s.line = true) :
    tick s = timeoutEntry s.cfg.sentLo (elapse s) := by
  rw [tick_rxWaitLow hr hst, tickWaitLow_elapse, hl, Bool.not_true, if_neg Bool.false_ne_true, if_pos hcap]
  rfl

end

/-! ### The entry of a timeout -/

/-- Within its tick, the entry of a timeout stores the sentinel and the phase goes on; nothing else happens (R164). -/
theorem timeoutEntry_elapse (v : Byte) (s : State) :
    ByteStored v s (timeoutEntry v (elapse s)) ∧ Passed 1 s (timeoutEntry v (elapse s)) := by
  have hops : SameOperands s (elapse s) := by constructor <;> rfl
  have hcaller : SameCaller s (elapse s) := by constructor <;> rfl
  have htick : Passed 1 s (elapse s) := passed_elapseN 1 s
  exact ⟨byteStored_nextByte v rfl rfl rfl hops hcaller rfl rfl rfl rfl rfl, htick.nextByte v⟩

/-- Settles O31: with nothing presented the step is the tick, and the tick of the last failed poll is the entry of the
timeout of its wait. -/
theorem timeoutEntry_of_lastFailedPoll : Obligations.TimeoutEntry := by
  intro s hq hr hcap
  have hstep : step s = .next (tick s) := by rw [step, hq]
  refine ⟨fun hst hl => ⟨_, hstep, ?_⟩, fun hst hl => ⟨_, hstep, ?_⟩⟩
  · rw [tick_timesOut_high hr hcap hst hl]
    exact timeoutEntry_elapse s.cfg.sentHi s
  · rw [tick_timesOut_low hr hcap hst hl]
    exact timeoutEntry_elapse s.cfg.sentLo s

end Sys2Proof.Machine

/-! ## Proofs: the encodings (`spec/30_encoding.md`)

Each reader of an image accepts exactly the images its writer makes (an `↔` a format). From these, a word decodes to an
operation exactly if it is the operation's word, which is both round trips; and a word of the fixed characters of its
format has such an operation. -/

namespace Sys2Proof

/-! ### Bytes -/

theorem byteOfBits_bitsOfByte (v : Byte) : byteOfBits (bitsOfByte v) = v := by revert v; decide

theorem bitsOfByte_byteOfBits {img : Image} (h : img.length = 8) : bitsOfByte (byteOfBits img) = img := by
  obtain ⟨b7, b6, b5, b4, b3, b2, b1, b0, rfl⟩ : ∃ b7 b6 b5 b4 b3 b2 b1 b0, img = [b7, b6, b5, b4, b3, b2, b1, b0] := by
    match img, h with
    | [b7, b6, b5, b4, b3, b2, b1, b0], _ => exact ⟨_, _, _, _, _, _, _, _, rfl⟩
  revert b7 b6 b5 b4 b3 b2 b1 b0
  decide

/-- Eight bits are a byte's bits exactly if the byte is theirs. -/
theorem eq_bitsOfByte_iff {img : Image} {v : Byte} : img = bitsOfByte v ↔ img.length = 8 ∧ byteOfBits img = v := by
  constructor
  · rintro rfl
    exact ⟨rfl, byteOfBits_bitsOfByte v⟩
  · rintro ⟨h, rfl⟩
    exact (bitsOfByte_byteOfBits h).symm

/-! ### What each reader accepts -/

theorem decodeBit_eq_ok {img : Image} {b : Bool} : decodeBit img = .ok b ↔ img = [b] := by
  match img with
  | [] => simp [decodeBit]
  | [c] => simp [decodeBit]
  | _ :: _ :: _ => simp [decodeBit]

theorem decodeSymbol_eq_ok {img : Image} {d : Bool} : decodeSymbol img = .ok d ↔ img = symbolImage d := by
  match img with
  | [] | [_] | [_, _] | [_, _, _] => simp [decodeSymbol, symbolImage]
  | [s0, s1, s2, s3] => revert s0 s1 s2 s3 d; decide
  | _ :: _ :: _ :: _ :: _ :: _ => simp [decodeSymbol, symbolImage]

/-- Symbols back to back are read exactly from the images of their bits back to back (R72). -/
theorem decodeSymbols_eq_ok {k : Nat} {img : Image} {ds : Image} :
    decodeSymbols k img = .ok ds ↔ ds.length = k ∧ img = ds.flatMap symbolImage := by
  induction k generalizing img ds with
  | zero =>
    cases img with
    | nil => cases ds <;> simp [decodeSymbols]
    | cons b rest => cases ds <;> simp [decodeSymbols]
  | succ k ih =>
    match img with
    | [] | [_] | [_, _] | [_, _, _] => cases ds <;> simp [decodeSymbols, symbolImage]
    | s0 :: s1 :: s2 :: s3 :: rest =>
      have hcons : ∀ d ds', s0 :: s1 :: s2 :: s3 :: rest = (d :: ds').flatMap symbolImage ↔
          [s0, s1, s2, s3] = symbolImage d ∧ rest = ds'.flatMap symbolImage := by simp [symbolImage, and_assoc]
      rw [decodeSymbols]
      cases ds with
      | nil => cases decodeSymbol [s0, s1, s2, s3] <;> cases decodeSymbols k rest <;> simp
      | cons d ds' =>
        rw [hcons, ← decodeSymbol_eq_ok, List.length_cons, Nat.add_right_cancel_iff]
        have hrest := ih (img := rest) (ds := ds')
        cases hd : decodeSymbol [s0, s1, s2, s3] with
        | error e => simp
        | ok b =>
          cases hs : decodeSymbols k rest with
          | error e => rw [hs] at hrest; simp at hrest ⊢; tauto
          | ok bs => rw [hs] at hrest; simp at hrest ⊢; tauto

theorem decodeData_eq_ok {img : Image} {v : Byte} : decodeData img = .ok v ↔ img = bitsOfByte v := by
  rw [eq_bitsOfByte_iff, decodeData]
  split <;> simp [*]

/-- Eight symbols are a byte's image exactly if their bits are the byte's. -/
theorem decodeByte_eq_ok {img : Image} {v : Byte} :
    (∃ ds, decodeSymbols 8 img = .ok ds ∧ byteOfBits ds = v) ↔ img = byteImage v := by
  simp only [decodeSymbols_eq_ok]
  constructor
  · rintro ⟨ds, ⟨hl, rfl⟩, hv⟩
    rw [eq_bitsOfByte_iff.2 ⟨hl, hv⟩]
    rfl
  · rintro rfl
    exact ⟨bitsOfByte v, ⟨rfl, rfl⟩, byteOfBits_bitsOfByte v⟩

theorem decodeHeader_eq_ok {img : Image} {n m : Byte} :
    decodeHeader img = .ok (n, m) ↔ img = bitsOfByte n ++ bitsOfByte m := by
  have hsplit : img = bitsOfByte n ++ bitsOfByte m ↔ img.take 8 = bitsOfByte n ∧ img.drop 8 = bitsOfByte m := by
    constructor
    · rintro rfl
      exact ⟨List.take_left' rfl, List.drop_left' rfl⟩
    · rintro ⟨hn, hm⟩
      rw [← hn, ← hm, List.take_append_drop]
  rw [hsplit, eq_bitsOfByte_iff, eq_bitsOfByte_iff, decodeHeader, List.length_take, List.length_drop]
  split
  · next h => simp [h]
  · next h =>
    simp only [reduceCtorEq, false_iff]
    omega

/-! ### The round trips -/

/-- Settles O1: each reader reads what its writer made. -/
theorem decodeOfEncode : Obligations.DecodeOfEncode := by
  intro i
  cases i with
  | driveLow | release | sense p | tx0 | tx1 | txstop | waitHigh | waitLow | injectHi | injectLo | irqEnter | irqExit s
  | relayDrop => rfl
  | rxbit d =>
    have hd : decodeSymbol (symbolImage d) = .ok d := decodeSymbol_eq_ok.2 rfl
    simp only [decode, encode, hd]
  | txbyte v | rxbyte v =>
    obtain ⟨ds, hds, hv⟩ := decodeByte_eq_ok.2 (rfl : byteImage v = byteImage v)
    simp only [decode, encode, hds, hv]
  | transact n m | relayFrame n m =>
    have hnm : decodeHeader (bitsOfByte n ++ bitsOfByte m) = .ok (n, m) := decodeHeader_eq_ok.2 rfl
    simp only [decode, encode, hnm]
  | relayReply v =>
    have hv : decodeData (bitsOfByte v) = .ok v := decodeData_eq_ok.2 rfl
    simp only [decode, encode, hv]

/-- Settles O2: a reader accepts only what its writer made, so no other word has the meaning. -/
theorem encodeOfDecode : Obligations.EncodeOfDecode := by
  rintro ⟨site, img⟩ i h
  cases site with
  | pinDirection | pinLevel | waitLevel | irqEntry | irqLeave =>
    cases hb : decodeBit img with
    | error e => simp [decode, hb] at h
    | ok b =>
      obtain rfl := decodeBit_eq_ok.1 hb
      cases b <;> cases h <;> rfl
  | txSymbol | txStop | rxSymbol =>
    cases hd : decodeSymbol img with
    | error e => simp [decode, hd] at h
    | ok d =>
      obtain rfl := decodeSymbol_eq_ok.1 hd
      cases d <;> cases h <;> rfl
  | txByte | rxByte =>
    cases hds : decodeSymbols 8 img with
    | error e => simp [decode, hds] at h
    | ok ds =>
      obtain rfl := decodeByte_eq_ok.1 ⟨ds, hds, rfl⟩
      simp only [decode, hds, Except.ok.injEq] at h
      subst h
      rfl
  | respSlot =>
    cases hv : decodeData img with
    | error e => simp [decode, hv] at h
    | ok v =>
      obtain rfl := decodeData_eq_ok.1 hv
      simp only [decode, hv] at h
      split at h
      · next h255 => cases h; rw [h255]; rfl
      · split at h
        · next h254 => cases h; rw [h254]; rfl
        · cases h
  | hostReply =>
    cases hv : decodeData img with
    | error e => simp [decode, hv] at h
    | ok v =>
      obtain rfl := decodeData_eq_ok.1 hv
      simp only [decode, hv, Except.ok.injEq] at h
      subst h
      rfl
  | blockHeader | hostHeader =>
    cases hnm : decodeHeader img with
    | error e => simp [decode, hnm] at h
    | ok p =>
      obtain rfl := decodeHeader_eq_ok.1 hnm
      simp only [decode, hnm, Except.ok.injEq] at h
      subst h
      rfl
  | hostDrop =>
    cases img with
    | nil => cases h; rfl
    | cons b rest => cases h

/-! ### The well-formed words -/

/-- Every operation's word is well formed: the fixed characters of its pattern are fixed in its image. -/
theorem wf_encode (i : Instr) : (encode i).wf = true := by
  cases i with
  | driveLow | release | sense p | tx0 | tx1 | txstop | waitHigh | waitLow | injectHi | injectLo | irqEnter | irqExit s
  | transact n m | relayFrame n m | relayReply v | relayDrop => rfl
  | rxbit d => cases d <;> rfl
  | txbyte v | rxbyte v =>
    simp [encode, byteImage, bitsOfByte, symbolImage, OpWord.wf, OpWord.lengthOk, OpWord.slot0Ok, OpWord.slot3Ok,
      OpWord.dataSlotsOk, OpWord.stopOk, OpWord.sentinelOk, OpWord.entryOk, OpWord.slot, Site.chars, Site.format,
      Format.chars, List.range_succ]

/-- An image whose symbols all have their fixed slots is read (R71, R72). -/
theorem exists_decodeSymbols {k : Nat} {img : Image} (hl : img.length = 4 * k)
    (h0 : ∀ j < k, img.getD (4 * j) false = false) (h3 : ∀ j < k, img.getD (4 * j + 3) false = true)
    (h12 : ∀ j < k, img.getD (4 * j + 1) false = img.getD (4 * j + 2) false) : ∃ ds, decodeSymbols k img = .ok ds := by
  induction k generalizing img with
  | zero => exact ⟨[], by simp [List.length_eq_zero_iff.1 hl, decodeSymbols]⟩
  | succ k ih =>
    match img with
    | [] | [_] | [_, _] | [_, _, _] =>
      simp only [List.length_cons, List.length_nil] at hl
      omega
    | s0 :: s1 :: s2 :: s3 :: rest =>
      have e0 : s0 = false := h0 0 (by omega)
      have e3 : s3 = true := h3 0 (by omega)
      have e12 : s1 = s2 := h12 0 (by omega)
      obtain ⟨ds, hds⟩ := ih (img := rest) (by simp at hl; omega) (fun j hj => h0 (j + 1) (by omega))
        (fun j hj => h3 (j + 1) (by omega)) (fun j hj => h12 (j + 1) (by omega))
      exact ⟨s1 :: ds, by simp [decodeSymbols, decodeSymbol, e0, e3, e12, hds]⟩

/-- A well-formed wire image of `k` symbols is read symbol by symbol. -/
theorem exists_decodeSymbols_of_wf {w : OpWord} (hw : w.wf = true) (hs : w.site.symbolic = true) {k : Nat}
    (hl : w.site.chars = 4 * k) : ∃ ds, decodeSymbols k w.image = .ok ds := by
  simp only [OpWord.wf, OpWord.lengthOk, OpWord.slot0Ok, OpWord.slot3Ok, OpWord.dataSlotsOk, OpWord.slot, hs, hl,
    Bool.and_eq_true, beq_iff_eq, Bool.not_true, Bool.false_or, List.all_eq_true, List.mem_range,
    Bool.not_eq_true'] at hw
  obtain ⟨⟨⟨⟨⟨⟨hlen, h0⟩, h3⟩, h12⟩, -⟩, -⟩, -⟩ := hw
  have hk : w.image.length / 4 = k := by omega
  rw [hk] at h0 h3 h12
  exact exists_decodeSymbols hlen h0 h3 h12

theorem OpWord.length_of_wf {w : OpWord} (hw : w.wf = true) : w.image.length = w.site.chars := by
  simp only [OpWord.wf, OpWord.lengthOk, Bool.and_eq_true, beq_iff_eq] at hw
  obtain ⟨⟨⟨⟨⟨⟨hlen, -⟩, -⟩, -⟩, -⟩, -⟩, -⟩ := hw
  exact hlen

/-- A well-formed symbol is the image of a bit (R71). -/
theorem eq_symbolImage_of_wf {site : Site} {img : Image} (hw : OpWord.wf ⟨site, img⟩ = true)
    (hs : site.symbolic = true) (hl : site.chars = 4) : ∃ d, img = symbolImage d := by
  obtain ⟨ds, hds⟩ := exists_decodeSymbols_of_wf (k := 1) hw hs hl
  obtain ⟨hone, himg⟩ := decodeSymbols_eq_ok.1 hds
  obtain ⟨d, rfl⟩ := List.length_eq_one_iff.1 hone
  exact ⟨d, himg⟩

/-- A word of the fixed characters of its format is read (R84). -/
theorem exists_decode_of_wf {w : OpWord} (hw : w.wf = true) : ∃ i, decode w = .ok i := by
  obtain ⟨site, img⟩ := w
  have hlen : img.length = site.chars := OpWord.length_of_wf hw
  cases site with
  | pinDirection | pinLevel | waitLevel | irqLeave =>
    obtain ⟨b, rfl⟩ := List.length_eq_one_iff.1 hlen
    cases b <;> exact ⟨_, rfl⟩
  | irqEntry =>
    obtain ⟨b, rfl⟩ := List.length_eq_one_iff.1 hlen
    cases b with
    | false => exact ⟨_, rfl⟩
    | true => exact absurd hw (by decide)
  | txSymbol | rxSymbol =>
    obtain ⟨d, rfl⟩ := eq_symbolImage_of_wf hw rfl rfl
    cases d <;> exact ⟨_, rfl⟩
  | txStop =>
    obtain ⟨d, rfl⟩ := eq_symbolImage_of_wf hw rfl rfl
    cases d with
    | false => exact absurd hw (by decide)
    | true => exact ⟨_, rfl⟩
  | txByte | rxByte =>
    obtain ⟨ds, hds⟩ := exists_decodeSymbols_of_wf (k := 8) hw rfl rfl
    simp only [decode, hds]
    exact ⟨_, rfl⟩
  | respSlot =>
    obtain ⟨v, rfl⟩ : ∃ v, img = bitsOfByte v := ⟨_, (bitsOfByte_byteOfBits hlen).symm⟩
    have hv : v = 255 ∨ v = 254 := by
      have hall : ∀ v : Byte, OpWord.wf ⟨.respSlot, bitsOfByte v⟩ = true → v = 255 ∨ v = 254 := by decide
      exact hall v hw
    rcases hv with rfl | rfl
    · exact ⟨.injectHi, rfl⟩
    · exact ⟨.injectLo, rfl⟩
  | hostReply => exact ⟨_, by simp only [decode, decodeData, if_pos (show img.length = 8 from hlen)]; rfl⟩
  | blockHeader | hostHeader =>
    exact ⟨_, by simp only [decode, decodeHeader, if_pos (show img.length = 16 from hlen)]; rfl⟩
  | hostDrop =>
    obtain rfl := List.length_eq_zero_iff.1 hlen
    exact ⟨_, rfl⟩

/-- Settles O3: a word that decodes is an operation's word, whose fixed characters stand; and those are all that the
readers test. -/
theorem decodeAcceptsExactlyWellFormed : Obligations.DecodeAcceptsExactlyWellFormed := by
  refine fun w => ⟨?_, exists_decode_of_wf⟩
  rintro ⟨i, h⟩
  rw [← encodeOfDecode w i h]
  exact wf_encode i

/-- Settles O4: each of the eight words is one image, read by computation. -/
theorem writtenOutWordsDecode : Obligations.WrittenOutWordsDecode := by
  unfold Obligations.WrittenOutWordsDecode
  decide

end Sys2Proof

/-! ## Proofs: the invariant (`spec/10_state.md`)

Memory first, of every step: what is canonical and inside `BUF` is a property that stores keep (`StoreInvariant`). Then the
invariant of a block that nobody presents operations to, piece of `Step` by piece, and from the pieces a tick. -/

namespace Sys2Proof.Machine

/-! ### Memory -/

/-- To be canonical and inside `BUF` is a property that stores into `BUF` keep (R50). -/
theorem storeInvariant_memOk : StoreInvariant MemOk where
  congr hs hc hm := ⟨hm ▸ hs.canonical, hc ▸ hm ▸ hs.inRange⟩
  memWrite a v hs := by
    refine ⟨Memory.wf_write hs.canonical _ _, fun c hc => ?_⟩
    rcases Memory.mem_write hc with rfl | hc
    · exact Nat.mod_lt a (Nat.two_pow_pos _)
    · exact hs.inRange c hc

/-- Settles O42: it is a property that stores keep, so every step keeps it. -/
theorem everyStepKeepsMemoryOk : Obligations.EveryStepKeepsMemoryOk :=
  fun _ _ hs h => storeInvariant_memOk.step hs h

/-! ### Nothing is presented by a tick -/

@[simp] theorem relayPoll_ops (s : State) : (relayPoll s).ops = s.ops := by
  obtain ⟨m, i, r, e⟩ := exists_relayPoll s
  rw [e]

@[simp] theorem relayWait_ops (s : State) : (relayWait s).ops = s.ops := by
  obtain ⟨m, i, r, e⟩ := exists_relayWait s
  rw [e]

@[simp] theorem relayAct_ops (mayStart : Bool) (s : State) : (relayAct mayStart s).ops = s.ops := by
  unfold relayAct
  split
  · split
    · exact relayPoll_ops _
    · rfl
  · exact relayPoll_ops s
  · split <;> rfl
  · rfl

@[simp] theorem nextSymbol_ops (s : State) : (nextSymbol s).ops = s.ops := by
  unfold nextSymbol
  split
  · rfl
  · split <;> rfl

@[simp] theorem afterStop_ops (s : State) : (afterStop s).ops = s.ops := by
  unfold afterStop
  split <;> rfl

@[simp] theorem nextByte_ops (s : State) : (nextByte s).ops = s.ops := by
  unfold nextByte
  split <;> rfl

@[simp] theorem timeoutEntry_ops (v : Byte) (s : State) : (timeoutEntry v s).ops = s.ops := nextByte_ops _

theorem tickIdle_ops (act : CallerAct) (mayStart : Bool) (s : State) : (tickIdle act mayStart s).ops = s.ops := by
  cases act with
  | quiet => exact relayWait_ops s
  | start cb n rb m => rfl
  | setIe v => rfl
  | store a v => rfl
  | place cb rb => rfl
  | relay => exact relayAct_ops mayStart s

/-- A tick uses up no presented operation. -/
@[simp] theorem tick_ops (s : State) : (tick s).ops = s.ops := by
  cases hr : s.input.rst with
  | true => rw [tick_of_rst hr, resetStep_ops]
  | false =>
    cases hst : s.st with
    | idle => rw [tick_idle hr hst, tickIdle_ops, elapse_ops]
    | arm => rw [tick_arm hr hst, nextSymbol_ops, elapse_ops]
    | txLow =>
      rw [tick_txLow hr hst, tickTxLow_elapse]
      split <;> rfl
    | txHigh =>
      rw [tick_txHigh hr hst, tickTxHigh_elapse]
      split
      · rfl
      · exact nextSymbol_ops _
    | stopLow =>
      rw [tick_stopLow hr hst, tickStopLow_elapse]
      split
      · rfl
      · split
        · rfl
        · exact afterStop_ops _
    | stopHigh =>
      rw [tick_stopHigh hr hst, tickStopHigh_elapse]
      split
      · rfl
      · exact afterStop_ops _
    | rxWaitHigh =>
      rw [tick_rxWaitHigh hr hst, tickWaitHigh_elapse]
      split
      · rfl
      · split
        · exact timeoutEntry_ops _ _
        · rfl
    | rxWaitLow =>
      rw [tick_rxWaitLow hr hst, tickWaitLow_elapse]
      split
      · rfl
      · split
        · exact timeoutEntry_ops _ _
        · rfl
    | rxDelay =>
      rw [tick_rxDelay hr hst, tickDelay_elapse]
      split
      · rfl
      · split
        · exact nextByte_ops _
        · rfl

@[simp] theorem ticks_ops (k : Nat) (s : State) : (ticks k s).ops = s.ops := by
  induction k generalizing s with
  | zero => rfl
  | succ k ih => rw [ticks_succ, ih, tick_ops]

/-! ### The pieces of `Step` keep the invariant -/

/-- After reset (R43, R175). -/
theorem BlockInv.resetStep {s : State} (h : BlockInv s) : BlockInv (resetStep s) where
  quiet := h.quiet
  driven := by simp
  masked hs := absurd rfl hs
  donePulse _ := rfl
  bitcnt := by simp
  txidx := by simp
  rxidx hs := by simp [State.receiving] at hs
  cnt := Nat.zero_le _
  shreg hs := by simp [State.receiving] at hs
  armed hs := by simp at hs
  stopping hs := by simp at hs
  tail hs := by simp at hs
  bases := ⟨Nat.two_pow_pos _, Nat.two_pow_pos _⟩
  mem := storeInvariant_memOk.resetStep h.mem

/-- While the tick passes (R125). -/
theorem BlockInv.elapse {s : State} (h : BlockInv s) : BlockInv (elapse s) :=
  ⟨h.quiet, h.driven, h.masked, fun hd => absurd hd Bool.false_ne_true, h.bitcnt, h.txidx, h.rxidx, h.cnt, h.shreg,
    h.armed, h.stopping, h.tail, h.bases, storeInvariant_memOk.elapse h.mem⟩

end Sys2Proof.Machine

namespace Sys2Proof.Machine

/-- In every place CNT is in the range it may have in `IDLE` (R26). -/
theorem CntOk.le_max {s : State} (h : CntOk s) : s.cnt ≤ max s.low0 (max s.cfg.pollCap s.cfg.stopTail) := by
  have hlow : ∀ b, s.low b = if b then s.t else 3 * s.t := fun _ => rfl
  have hperiod : s.period = 4 * s.t := rfl
  have hdelay : s.sampleDelay = 2 * s.t := rfl
  unfold CntOk at h
  split at h <;> cases hb : s.curbit <;> simp_all <;> omega

/-- A sample shifted in behind `b` bits leaves `b+1` bits (R22, R113). -/
theorem shiftIn_lt {v : Byte} {b : Nat} (h : v.toNat < 2 ^ b) (d : Bool) : (shiftIn v d).toNat < 2 ^ (b + 1) := by
  rw [shiftIn, BitVec.toNat_or]
  have hd : d.toNat < 2 ^ (b + 1) := lt_of_le_of_lt (Bool.toNat_le d) (Nat.one_lt_two_pow (Nat.succ_ne_zero b))
  refine Nat.or_lt_two_pow ?_ ?_
  · rw [BitVec.toNat_shiftLeft, Nat.shiftLeft_eq, Nat.pow_one, Nat.pow_succ]
    exact lt_of_le_of_lt (Nat.mod_le _ _) (by omega)
  · rw [BitVec.toNat_ofNat]
    exact lt_of_le_of_lt (Nat.mod_le _ _) hd

/-- Releasing a released line changes nothing. -/
theorem releaseLine_of_input {s : State} (h : s.dir = .input) : releaseLine s = s := by
  rw [releaseLine, ← h]

section
variable {s : State} (h : BlockInv s)
include h

/-- Another value of CNT in its range: counting down, or up at a failed poll. -/
theorem BlockInv.withCnt {c : Nat} (hc : CntOk (s.withCnt c)) : BlockInv (s.withCnt c) :=
  { h with
    cnt := hc
    mem := storeInvariant_memOk.congr h.mem rfl rfl }

/-- Counting down (R26). -/
theorem BlockInv.countDown (hs : s.timed) (hc : 1 < s.cnt) : BlockInv (countDown s) := by
  have hcnt := h.cnt
  refine h.withCnt ?_
  rcases hs with hs | hs | hs | hs | hs <;>
    (simp only [CntOk, hs, withCnt_st, withCnt_cnt] at hcnt ⊢; exact ⟨by omega, le_trans (Nat.sub_le _ _) hcnt.2⟩)

/-- The line is released in the receive phase (R34). -/
theorem BlockInv.released (hs : s.st ≠ .txLow ∧ s.st ≠ .stopLow) : s.dir = .input := by
  cases hd : s.dir with
  | input => rfl
  | output => exact absurd (h.driven.1 hd) (by simp [hs])

/-- The end of a low phase. -/
theorem BlockInv.endLow (hs : s.st = .txLow) : BlockInv (endLow s) :=
  { h with
    driven := by simp
    masked := fun _ => h.masked (by simp [hs])
    donePulse := fun hd => absurd (h.donePulse hd) (by simp [hs])
    rxidx := fun hr => by simp [State.receiving] at hr
    cnt := ⟨Nat.sub_pos_of_lt (s.low_lt_period s.curbit), Nat.le_refl _⟩
    shreg := fun hr => by simp [State.receiving] at hr
    armed := fun ha => by simp at ha
    stopping := fun hp => by simp at hp
    tail := fun hp => by simp at hp
    mem := storeInvariant_memOk.congr h.mem rfl rfl }

/-- The start of a symbol, whatever the bits left (R100, R101). -/
theorem BlockInv.startSymbol (hs : s.st ≠ .idle) (b : Bool) {sh : Byte} {bc : BitVec 4} {i : Byte}
    (hbc : bc.toNat ≤ 7) (hi : i.toNat ≤ s.n.toNat) :
    BlockInv (startSymbol b { s with shreg := sh, bitcnt := bc, txidx := i }) :=
  { h with
    driven := by simp
    masked := fun _ => h.masked hs
    donePulse := fun hd => absurd (h.donePulse hd) hs
    bitcnt := hbc
    txidx := hi
    rxidx := fun hr => by simp [State.receiving] at hr
    cnt := ⟨s.one_le_low b, Nat.le_refl _⟩
    shreg := fun hr => by simp [State.receiving] at hr
    armed := fun ha => by simp at ha
    stopping := fun hp => by simp at hp
    tail := fun hp => by simp at hp
    mem := storeInvariant_memOk.congr h.mem rfl rfl }

/-- The start of the stop bit, after the last command byte (R104). -/
theorem BlockInv.startStop (hs : s.st ≠ .idle) (hb : s.bitcnt = 0) (hn : s.txidx = s.n) : BlockInv (startStop s) :=
  { h with
    driven := by simp
    masked := fun _ => h.masked hs
    donePulse := fun hd => absurd (h.donePulse hd) hs
    rxidx := fun hr => by simp [State.receiving] at hr
    cnt := ⟨s.one_le_t, Nat.le_refl _⟩
    shreg := fun hr => by simp [State.receiving] at hr
    armed := fun ha => by simp at ha
    stopping := fun _ => ⟨rfl, hb, hn⟩
    tail := fun hp => by simp at hp
    mem := storeInvariant_memOk.congr h.mem rfl rfl }

/-- `NextSymbol` (R125). -/
theorem BlockInv.nextSymbol (hs : s.st ≠ .idle) : BlockInv (nextSymbol s) := by
  have hb := h.bitcnt
  have hn := h.txidx
  unfold Machine.nextSymbol
  split
  · next hpos =>
    have hbc : (s.bitcnt - 1).toNat ≤ 7 := by bv_omega
    exact h.startSymbol hs _ hbc hn
  · next hzero =>
    split
    · next hlt =>
      have hi : (s.txidx + 1).toNat ≤ s.n.toNat := by bv_omega
      exact h.startSymbol hs _ (by decide) hi
    · next hge => exact h.startStop hs (BitVec.eq_of_toNat_eq (by simpa using hzero)) (BitVec.eq_of_toNat_eq (by omega))

/-- `Finish` (R125), whatever the result of the transaction. -/
theorem BlockInv.finish : BlockInv (finish s) :=
  { h with
    driven := by simp
    masked := fun hs => absurd rfl hs
    donePulse := fun _ => rfl
    rxidx := fun hr => by simp [State.receiving] at hr
    cnt := h.cnt.le_max
    shreg := fun hr => by simp [State.receiving] at hr
    armed := fun ha => by simp at ha
    stopping := fun hp => by simp at hp
    tail := fun hp => by simp at hp
    mem := storeInvariant_memOk.congr h.mem rfl rfl }

/-- A place of the receive phase, whatever the bits sampled (R34, R36). -/
theorem BlockInv.receive (hs : s.st ≠ .idle) {t : State} {st : SeqState} {c : Nat} {sh : Byte} {bc : BitVec 4} {j : Byte}
    (ht : t = { s with st := st, dir := .input, cnt := c, shreg := sh, bitcnt := bc, rxidx := j }) (hr : t.receiving)
    (hc : CntOk t) (hbc : bc.toNat ≤ 7) (hsh : sh.toNat < 2 ^ bc.toNat) (hj : j.toNat < s.m.toNat) : BlockInv t := by
  have hst : st = .rxWaitHigh ∨ st = .rxWaitLow ∨ st = .rxDelay := by rw [ht] at hr; exact hr
  subst ht
  exact
    { h with
      driven := by rcases hst with rfl | rfl | rfl <;> simp
      masked := fun _ => h.masked hs
      donePulse := fun hd => absurd (h.donePulse hd) hs
      bitcnt := hbc
      rxidx := fun _ => hj
      cnt := hc
      shreg := fun _ => hsh
      armed := fun ha => by rcases hst with rfl | rfl | rfl <;> simp at ha
      stopping := fun hp => by rcases hst with rfl | rfl | rfl <;> simp at hp
      tail := fun hp => by rcases hst with rfl | rfl | rfl <;> simp at hp
      mem := storeInvariant_memOk.congr h.mem rfl rfl }

/-- The optional wait after the stop bit's low phase (R104). -/
theorem BlockInv.stopHigh (hs : s.st = .stopLow) (ht : 0 < s.cfg.stopTail) :
    BlockInv (s.inPhase .stopHigh .input s.cfg.stopTail) :=
  { h with
    driven := by simp
    masked := fun _ => h.masked (by simp [hs])
    donePulse := fun hd => absurd (h.donePulse hd) (by simp [hs])
    rxidx := fun hr => by simp [State.receiving] at hr
    cnt := ⟨ht, Nat.le_refl _⟩
    shreg := fun hr => by simp [State.receiving] at hr
    armed := fun ha => by simp at ha
    stopping := fun _ => h.stopping (.inl hs)
    tail := fun _ => ht
    mem := storeInvariant_memOk.congr h.mem rfl rfl }

/-- `AfterStop`, the line released (R125). -/
theorem BlockInv.afterStop (hs : s.st ≠ .idle) : BlockInv (afterStop (releaseLine s)) := by
  unfold Machine.afterStop
  split
  · exact h.finish
  · next hm =>
    have hpos : 0 < s.m.toNat := Nat.pos_of_ne_zero fun h0 => hm (BitVec.eq_of_toNat_eq h0)
    exact h.receive hs rfl (.inl rfl) s.one_le_pollCap (Nat.zero_le 7) Nat.one_pos hpos

/-- `Store` and `NextByte` at the end of a received byte (R114). -/
theorem BlockInv.nextByte_store (hr : s.receiving) (v : Byte) : BlockInv (nextByte (store v s)) := by
  have hs : s.st ≠ .idle := by rcases hr with hr | hr | hr <;> simp [hr]
  have hd : s.dir = .input := h.released (by rcases hr with hr | hr | hr <;> simp [hr])
  have hstore : BlockInv (store v s) := { h with mem := storeInvariant_memOk.store v h.mem }
  unfold nextByte
  split
  · exact hstore.finish
  · next hl =>
    have hlt := h.rxidx hr
    have hne : s.rxidx.toNat + 1 ≠ s.m.toNat := by simpa [State.lastByte] using hl
    refine hstore.receive hs (t := startRxByte _) (st := .rxWaitHigh) (c := 0) (sh := 0) (bc := 0) (j := s.rxidx + 1) ?_ (.inl rfl) s.one_le_pollCap (Nat.zero_le 7)
      Nat.one_pos (by show _ < s.m.toNat; bv_omega)
    rw [← hd]
    rfl

/-- The acceptance of `start` (R125), raised by the caller or by the relay for its frame. -/
theorem BlockInv.accept (hd : s.done = false) (n m : Byte) (cb rb : Nat) (r : RelayPhase) :
    BlockInv (accept n m { s with portCmdBase := cb, portRespBase := rb, relay := r }) :=
  { h with
    driven := by simp
    masked := fun _ => rfl
    donePulse := fun hd' => absurd (hd.symm.trans hd') Bool.false_ne_true
    bitcnt := Nat.zero_le 7
    txidx := Nat.zero_le _
    rxidx := fun hr => by simp [State.receiving] at hr
    cnt := rfl
    shreg := fun hr => by simp [State.receiving] at hr
    armed := fun _ => ⟨rfl, rfl⟩
    stopping := fun hp => by simp at hp
    tail := fun hp => by simp at hp
    bases := ⟨Nat.mod_lt _ (Nat.two_pow_pos _), Nat.mod_lt _ (Nat.two_pow_pos _)⟩
    mem := storeInvariant_memOk.congr h.mem rfl rfl }

/-- A tick of a read of command bytes. -/
theorem BlockInv.relayPoll : BlockInv (relayPoll s) := by
  have hm := storeInvariant_memOk.relayPoll h.mem
  obtain ⟨m, i, r, e⟩ := exists_relayPoll s
  rw [e] at hm ⊢
  exact { h with mem := hm }

/-- A tick in which the relay takes its next action (R142). -/
theorem BlockInv.relayAct (hd : s.done = false) (mayStart : Bool) : BlockInv (relayAct mayStart s) := by
  unfold Machine.relayAct
  split
  · split
    · refine BlockInv.relayPoll ?_
      exact { h with mem := storeInvariant_memOk.congr h.mem rfl rfl }
    · exact h
  · exact h.relayPoll
  · split
    · exact h.accept hd _ _ _ _ _
    · exact h
  · exact { h with mem := storeInvariant_memOk.congr h.mem rfl rfl }

/-- A tick of an idle block, whatever the caller does (R129). -/
theorem BlockInv.tickIdle (hs : s.st = .idle) (hd : s.done = false) (act : CallerAct) (mayStart : Bool) :
    BlockInv (tickIdle act mayStart s) := by
  cases act with
  | quiet =>
    show BlockInv (relayWait s)
    unfold relayWait
    split
    · exact h.relayPoll
    · exact h
  | start cb n rb m => exact h.accept hd n m cb rb s.relay
  | setIe v => exact { h with masked := fun hb => absurd hs hb, mem := storeInvariant_memOk.congr h.mem rfl rfl }
  | store a v => exact { h with mem := storeInvariant_memOk.memWrite a v h.mem }
  | place cb rb => exact { h with mem := storeInvariant_memOk.congr h.mem rfl rfl }
  | relay => exact h.relayAct hd mayStart

/-! ### A tick keeps it -/

/-- One tick (R125). -/
theorem BlockInv.tick : BlockInv (tick s) := by
  have he := h.elapse
  cases hr : s.input.rst with
  | true => rw [tick_of_rst hr]; exact h.resetStep
  | false =>
    cases hst : s.st with
    | idle => rw [tick_idle hr hst]; exact he.tickIdle hst rfl _ _
    | arm => rw [tick_arm hr hst]; exact he.nextSymbol (by simp [hst])
    | txLow =>
      rw [tick_txLow hr hst, tickTxLow_elapse]
      split
      · next hc => exact he.countDown (.inl hst) hc
      · exact he.endLow hst
    | txHigh =>
      rw [tick_txHigh hr hst, tickTxHigh_elapse]
      split
      · next hc => exact he.countDown (.inr (.inl hst)) hc
      · exact he.nextSymbol (by simp [hst])
    | stopLow =>
      rw [tick_stopLow hr hst, tickStopLow_elapse]
      split
      · next hc => exact he.countDown (.inr (.inr (.inl hst))) hc
      · split
        · next ht => exact he.stopHigh hst ht
        · exact he.afterStop (by simp [hst])
    | stopHigh =>
      have hd : s.dir = .input := h.released (by simp [hst])
      rw [tick_stopHigh hr hst, tickStopHigh_elapse]
      split
      · next hc => exact he.countDown (.inr (.inr (.inr (.inl hst)))) hc
      · rw [← releaseLine_of_input (s := Machine.elapse s) hd]
        exact he.afterStop (by simp [hst])
    | rxWaitHigh =>
      have hd : s.dir = .input := h.released (by simp [hst])
      have hrec : s.receiving := .inl hst
      rw [tick_rxWaitHigh hr hst, tickWaitHigh_elapse]
      split
      · rw [startWaitLow_eq (s := Machine.elapse s) hd]
        exact he.receive (by simp [hst]) rfl (.inr (.inl rfl)) s.one_le_pollCap h.bitcnt (h.shreg hrec) (h.rxidx hrec)
      · split
        · exact he.nextByte_store hrec _
        · next hcap => exact he.withCnt (by simp only [CntOk, withCnt_st, elapse_st, hst]; simpa using hcap)
    | rxWaitLow =>
      have hd : s.dir = .input := h.released (by simp [hst])
      have hrec : s.receiving := .inr (.inl hst)
      rw [tick_rxWaitLow hr hst, tickWaitLow_elapse]
      split
      · rw [startDelay_eq (s := Machine.elapse s) hd]
        exact he.receive (by simp [hst]) rfl (.inr (.inr rfl)) ⟨Nat.mul_pos Nat.two_pos s.one_le_t, Nat.le_refl _⟩
          h.bitcnt (h.shreg hrec) (h.rxidx hrec)
      · split
        · exact he.nextByte_store hrec _
        · next hcap => exact he.withCnt (by simp only [CntOk, withCnt_st, elapse_st, hst]; simpa using hcap)
    | rxDelay =>
      have hd : s.dir = .input := h.released (by simp [hst])
      have hrec : s.receiving := .inr (.inr hst)
      rw [tick_rxDelay hr hst, tickDelay_elapse]
      split
      · next hc => exact he.countDown (.inr (.inr (.inr (.inr hst)))) hc
      · split
        · exact he.nextByte_store hrec _
        · next hb7 =>
          have hne : s.bitcnt.toNat ≠ 7 := fun he7 => hb7 (BitVec.eq_of_toNat_eq he7)
          have hle := h.bitcnt
          have hbc : (s.bitcnt + 1).toNat = s.bitcnt.toNat + 1 := by bv_omega
          rw [startWaitHigh_eq (by simpa using hd)]
          refine he.receive (by simp [hst]) rfl (.inl rfl) s.one_le_pollCap (bc := s.bitcnt + 1)
            (sh := shiftIn s.shreg s.line) (by omega) ?_ (h.rxidx hrec)
          rw [hbc]
          exact shiftIn_lt (h.shreg hrec) _

end

/-! ### The statements -/

/-- Settles O40: in the reset state every register is at its value of R43's table. -/
theorem invariantAtReset : Obligations.InvariantAtReset where
  quiet := rfl
  driven := by decide
  masked hs := absurd rfl hs
  donePulse hd := absurd hd (by decide)
  bitcnt := by decide
  txidx := by decide
  rxidx hr := by simp [State.receiving, State.reset] at hr
  cnt := Nat.zero_le _
  shreg hr := by simp [State.receiving, State.reset] at hr
  armed ha := absurd ha (by decide)
  stopping hp := absurd hp (by decide)
  tail hp := absurd hp (by decide)
  bases := by decide
  mem := ⟨rfl, fun c hc => absurd hc List.not_mem_nil⟩

/-- Settles O41: with nothing presented the step is the tick, and the tick keeps the invariant place by place. -/
theorem stepKeepsInvariant : Obligations.StepKeepsInvariant := by
  intro s t h hstep
  rw [step_eq_tick h.quiet hstep]
  exact h.tick

end Sys2Proof.Machine

/-! ## Proofs: the step (`spec/43_transaction.md`, `spec/60_exceptions.md`, `spec/70_reset_and_hazards.md`)

That every operation answers with a next state and presents nothing itself; what a reset does to an operation; and the
statements about a step of one tick: the pin, the interrupt mask, a sentinel injected, the caller, a busy block. -/

namespace Sys2Proof.Machine

/-! ### Presented operations -/

section
variable {s : State} {act : State → State} {last : State → Bool} {k : Nat}

/-- An operation presented in a tick with `rst = 1` (R175). -/
theorem present_of_rst (h : s.input.rst = true) : present act s = resetStep s := by rw [present, if_pos h]

theorem presentFor_of_rst (h : s.input.rst = true) : presentFor act last k s = resetStep s := by
  rw [presentFor, if_pos h]

theorem presentCaller_of_rst (h : s.input.rst = true) : presentCaller act s = resetStep s := by
  rw [presentCaller, present_of_rst h, tick_of_rst h, ite_self]

theorem transactAll_of_rst {n m : Byte} (h : s.input.rst = true) : transactAll n m s = resetStep s := by
  rw [transactAll, if_pos h]

/-- An operation of one tick, without a reset. -/
theorem present_of_noRst (h : s.input.rst = false) : present act s = act (elapse s) := by
  rw [present, if_neg (by simp [h])]

/-- An operation of the caller presented to an idle block. -/
theorem presentCaller_of_idle (hs : s.st = .idle) (h : s.input.rst = false) : presentCaller act s = act (elapse s) := by
  rw [presentCaller, if_neg (by simp [State.busy, hs]), present_of_noRst h]

/-- An operation of the caller presented to a busy block (R8, R129). -/
theorem presentCaller_of_busy (hb : s.busy = true) : presentCaller act s = tick s := by rw [presentCaller, if_pos hb]

/-- The relay does not wait after a reset. -/
theorem runRelayWait_resetStep (k : Nat) (s : State) : runRelayWait k (resetStep s) = resetStep s :=
  runRelayWait_eq (Nat.zero_le k) (fun i hi => absurd hi (Nat.not_lt_zero i)) (by simp)

/-! ### No operation presents another -/

theorem runUntil_ops (last : State → Bool) (k : Nat) (s : State) : (runUntil last k s).ops = s.ops := by
  induction k generalizing s with
  | zero => rfl
  | succ k ih =>
    unfold runUntil
    split
    · exact tick_ops s
    · rw [ih, tick_ops]

theorem runBusy_ops (k : Nat) (s : State) : (runBusy k s).ops = s.ops := by
  induction k generalizing s with
  | zero => rfl
  | succ k ih =>
    unfold runBusy
    split
    · rw [ih, tick_ops]
    · rfl

theorem runRelayWait_ops (k : Nat) (s : State) : (runRelayWait k s).ops = s.ops := by
  induction k generalizing s with
  | zero => rfl
  | succ k ih =>
    unfold runRelayWait
    split
    · rfl
    · rw [ih, tick_ops]

section
variable (hact : ∀ u, (act u).ops = u.ops)
include hact

theorem present_ops : (present act s).ops = s.ops := by
  unfold present
  split
  · rfl
  · rw [hact, elapse_ops]

theorem presentFor_ops : (presentFor act last k s).ops = s.ops := by
  unfold presentFor
  split
  · rfl
  · rw [runUntil_ops, hact, elapse_ops]

theorem presentCaller_ops : (presentCaller act s).ops = s.ops := by
  unfold presentCaller
  split
  · exact tick_ops s
  · exact present_ops hact

end

end

/-- Every operation answers with a next state (R155) and leaves the presented operations alone. -/
theorem exec_ops (i : Instr) (s : State) : ∃ t, exec i s = .next t ∧ t.ops = s.ops := by
  cases i with
  | driveLow => exact ⟨_, rfl, present_ops driveLow_ops⟩
  | release => exact ⟨_, rfl, present_ops releaseLine_ops⟩
  | sense p => exact ⟨_, rfl, present_ops fun _ => rfl⟩
  | tx0 => exact ⟨_, rfl, presentFor_ops (startSymbol_ops false)⟩
  | tx1 => exact ⟨_, rfl, presentFor_ops (startSymbol_ops true)⟩
  | txstop => exact ⟨_, rfl, presentFor_ops startStop_ops⟩
  | waitHigh => exact ⟨_, rfl, presentFor_ops startWaitHigh_ops⟩
  | waitLow => exact ⟨_, rfl, presentFor_ops startWaitLow_ops⟩
  | rxbit d => exact ⟨_, rfl, presentFor_ops startWaitHigh_ops⟩
  | txbyte v => exact ⟨_, rfl, presentFor_ops (startByte_ops v)⟩
  | rxbyte v => exact ⟨_, rfl, presentFor_ops startRxByte_ops⟩
  | injectHi => exact ⟨_, rfl, present_ops fun _ => timeoutEntry_ops _ _⟩
  | injectLo => exact ⟨_, rfl, present_ops fun _ => timeoutEntry_ops _ _⟩
  | irqEnter => exact ⟨_, rfl, present_ops irqEnter_ops⟩
  | irqExit b => exact ⟨_, rfl, present_ops irqExit_ops⟩
  | transact n m =>
    refine ⟨_, rfl, ?_⟩
    split
    · exact tick_ops s
    · unfold transactAll
      split
      · rfl
      · rw [runBusy_ops, accept_ops, elapse_ops]
  | relayFrame n m =>
    refine ⟨_, rfl, ?_⟩
    split
    · exact tick_ops s
    · rw [runRelayWait_ops, present_ops (act := relayFrame n m) fun _ => relayPoll_ops _]
  | relayReply v => exact ⟨_, rfl, presentCaller_ops fun _ => rfl⟩
  | relayDrop => exact ⟨_, rfl, presentCaller_ops fun _ => rfl⟩

/-- In a tick with `rst = 1` every operation is the reset (R163, R175). -/
theorem exec_of_rst {s : State} (h : s.input.rst = true) (i : Instr) : exec i s = .next (resetStep s) := by
  cases i with
  | driveLow | release | sense p | injectHi | injectLo | irqEnter | irqExit b => exact congrArg _ (present_of_rst h)
  | tx0 | tx1 | txstop | waitHigh | waitLow | rxbit d | txbyte v | rxbyte v => exact congrArg _ (presentFor_of_rst h)
  | relayReply v | relayDrop => exact congrArg _ (presentCaller_of_rst h)
  | transact n m =>
    show Host.Outcome.next (if s.busy then tick s else transactAll n m s) = _
    rw [tick_of_rst h, transactAll_of_rst h, ite_self]
  | relayFrame n m =>
    show Host.Outcome.next (if s.busy then tick s else runRelayWait _ (present (relayFrame n m) s)) = _
    rw [tick_of_rst h, present_of_rst h, runRelayWait_resetStep, ite_self]

/-! ### What may have changed in a tick -/

/-- The ticks passed are read off the fields that `Passed` speaks of. -/
theorem Passed.congr {k : Nat} {s t u : State} (h : Passed k s u) (hnow : t.now = u.now) (henv : t.env = u.env)
    (hin : t.hostIn = u.hostIn) (hcfg : t.cfg = u.cfg) (hops : t.ops = u.ops) (hsen : t.sensed = u.sensed) :
    Passed k s t :=
  ⟨hnow.trans h.now, henv.trans h.env, hin.trans h.hostIn, hcfg.trans h.cfg, hops.trans h.ops, hsen.trans h.sensed⟩

/-- A tick's passing is one tick. -/
theorem passed_elapse (s : State) : Passed 1 s (elapse s) := passed_elapseN 1 s

/-- With nothing presented the step is the tick (R125). -/
theorem step_of_quiet {s : State} (ho : s.ops = []) : step s = .next (tick s) := by rw [step, ho]

/-! ### The statements about a step -/

/-- Settles O5: the step looks at the oldest word, and a table word put in front is the oldest. -/
theorem stepRunsPresentedOperation : Obligations.StepRunsPresentedOperation := by
  have hrun : ∀ (s : State) (w : OpWord) (rest : List OpWord) (i : Instr), s.ops = w :: rest → decode w = .ok i →
      step s = exec i { s with ops := rest } := by
    intro s w rest i ho hd
    simp only [step, ho, hd]
  refine ⟨hrun, fun s nbits w i hd => hrun _ (tableWord nbits w) s.ops i rfl ?_⟩
  rw [decodeTableWord] at hd
  split at hd
  · next j hj => rw [hj, Option.some.inj hd]
  · cases hd

/-- Settles O6: with no word to run the step is the tick. -/
theorem stepIsOneClockTick : Obligations.StepIsOneClockTick := fun _ ho => step_of_quiet ho

/-- Settles O7: a tick answers a next state, and so does every operation; a well-formed word is one. -/
theorem stepGivesANextState : Obligations.StepGivesANextState := by
  intro s hw
  cases ho : s.ops with
  | nil => exact ⟨tick s, step_of_quiet ho, by rw [tick_ops, ho, List.tail_nil]⟩
  | cons w rest =>
    obtain ⟨i, hi⟩ := exists_decode_of_wf (hw w rest ho)
    obtain ⟨t, ht, hops⟩ := exec_ops i { s with ops := rest }
    exact ⟨t, (stepRunsPresentedOperation.1 s w rest i ho hi).trans ht, hops⟩

/-- Settles O8: `rst` is the first thing every tick and every operation looks at. -/
theorem resetOverridesEverything : Obligations.ResetOverridesEverything := fun s h =>
  ⟨tick_of_rst h, exec_of_rst h, rfl, rfl, (passed_elapse s).congr rfl rfl rfl rfl rfl rfl⟩

/-- Settles O13: each operation of the caller looks at `BUSY` first. -/
theorem busyBlockIgnoresTheCaller : Obligations.BusyBlockIgnoresTheCaller := fun _ hb =>
  ⟨fun _ _ => congrArg _ (if_pos hb), fun _ _ => congrArg _ (if_pos hb), fun _ => congrArg _ (presentCaller_of_busy hb),
    congrArg _ (presentCaller_of_busy hb)⟩

/-- Settles O14: the state after the tick's passing, with `DIR` at `OUT`. -/
theorem driveLowSetsDirection : Obligations.DriveLowSetsDirection := fun s h =>
  ⟨driveLow (elapse s), congrArg _ (present_of_noRst h), rfl, rfl, line_of_output rfl, rfl, rfl, rfl,
    ⟨rfl, rfl, rfl, rfl, rfl, rfl⟩, ⟨rfl, rfl, rfl, rfl⟩, ⟨rfl, rfl⟩, fun _ => rfl,
    ⟨rfl, rfl, rfl, rfl, rfl, rfl, rfl, rfl, rfl⟩, (passed_elapse s).congr rfl rfl rfl rfl rfl rfl⟩

/-- Settles O15: the state after the tick's passing, with `DIR` at `IN`. -/
theorem releaseClearsDirection : Obligations.ReleaseClearsDirection := fun s h =>
  ⟨releaseLine (elapse s), congrArg _ (present_of_noRst h), rfl, rfl, line_of_input rfl, rfl, rfl, rfl,
    ⟨rfl, rfl, rfl, rfl, rfl, rfl⟩, ⟨rfl, rfl, rfl, rfl⟩, ⟨rfl, rfl⟩, fun _ => rfl,
    ⟨rfl, rfl, rfl, rfl, rfl, rfl, rfl, rfl, rfl⟩, (passed_elapse s).congr rfl rfl rfl rfl rfl rfl⟩

/-- Settles O16: the state after the tick's passing, with the line of the tick itself as the result. -/
theorem senseReadsTheLine : Obligations.SenseReadsTheLine := fun s _ h =>
  ⟨{ elapse s with sensed := s.line }, congrArg _ (present_of_noRst h), rfl, rfl, rfl, rfl, rfl,
    ⟨rfl, rfl, rfl, rfl, rfl, rfl⟩, ⟨rfl, rfl, rfl, rfl⟩, ⟨rfl, rfl⟩, fun _ => rfl,
    ⟨rfl, rfl, rfl, rfl, rfl, rfl, rfl, rfl, rfl⟩, (passed_elapse s).congr rfl rfl rfl rfl rfl rfl⟩

/-- Settles O18: the state after the tick's passing, with IE saved and cleared. -/
theorem irqEnterSavesAndMasks : Obligations.IrqEnterSavesAndMasks := fun s h =>
  ⟨irqEnter (elapse s), congrArg _ (present_of_noRst h), rfl, rfl, rfl, rfl, rfl, rfl,
    ⟨rfl, rfl, rfl, rfl, rfl, rfl⟩, ⟨rfl, rfl, rfl, rfl⟩, fun _ => rfl,
    ⟨rfl, rfl, rfl, rfl, rfl, rfl, rfl, rfl, rfl⟩, (passed_elapse s).congr rfl rfl rfl rfl rfl rfl⟩

/-- Settles O19: the state after the tick's passing, with IE restored. -/
theorem irqExitRestores : Obligations.IrqExitRestores := fun s _ h =>
  ⟨irqExit (elapse s), congrArg _ (present_of_noRst h), rfl, rfl, rfl, rfl, rfl, rfl,
    ⟨rfl, rfl, rfl, rfl, rfl, rfl⟩, ⟨rfl, rfl, rfl, rfl⟩, fun _ => rfl,
    ⟨rfl, rfl, rfl, rfl, rfl, rfl, rfl, rfl, rfl⟩, (passed_elapse s).congr rfl rfl rfl rfl rfl rfl⟩

/-- Settles O30: each is the entry of a timeout after the tick's passing. -/
theorem injectStoresItsSentinel : Obligations.InjectStoresItsSentinel := fun s h =>
  ⟨⟨_, congrArg Host.Outcome.next (present_of_noRst h), timeoutEntry_elapse s.cfg.sentHi s⟩,
    ⟨_, congrArg Host.Outcome.next (present_of_noRst h), timeoutEntry_elapse s.cfg.sentLo s⟩⟩

/-- Settles O11: the caller's act is taken after the tick's passing, and each act is one update. -/
theorem callerActsInIdleTicks : Obligations.CallerActsInIdleTicks := by
  intro s ho hst hr
  have hstep : ∀ {act}, s.input.act = act → step s = .next (tickIdle act (s.gapLeft == 0) (elapse s)) := by
    rintro act rfl
    rw [step_of_quiet ho, tick_idle hr hst]
  have hp : Passed 1 s (elapse s) := passed_elapse s
  refine ⟨fun hact hrelay => ?_, fun v hact => ?_, fun a v hact => ?_, fun cb rb hact => ?_⟩
  · rw [hstep hact]
    exact congrArg _ (relayWait_of_ne hrelay)
  · exact ⟨_, hstep hact, rfl, rfl, hst, rfl, rfl, rfl, ⟨rfl, rfl, rfl, rfl, rfl, rfl⟩, ⟨rfl, rfl, rfl, rfl⟩,
      fun _ => rfl, ⟨rfl, rfl, rfl, rfl, rfl, rfl, rfl, rfl, rfl⟩, hp.congr rfl rfl rfl rfl rfl rfl⟩
  · exact ⟨_, hstep hact, fun hm => memRead_memWrite_self (s := elapse s) hm.canonical _ v,
      fun _ hx => memRead_memWrite_of_ne (s := elapse s) v hx, rfl,
      ⟨rfl, rfl, rfl, ⟨rfl, rfl⟩, ⟨rfl, rfl, rfl, rfl, rfl, rfl⟩, ⟨rfl, rfl, rfl, rfl⟩⟩,
      ⟨rfl, rfl, rfl, rfl, rfl, rfl, rfl, rfl, rfl⟩, hp.congr rfl rfl rfl rfl rfl rfl⟩
  · exact ⟨_, hstep hact, rfl, rfl, rfl,
      ⟨rfl, rfl, rfl, ⟨rfl, rfl⟩, ⟨rfl, rfl, rfl, rfl, rfl, rfl⟩, ⟨rfl, rfl, rfl, rfl⟩⟩, fun _ => rfl,
      hp.congr rfl rfl rfl rfl rfl rfl, ⟨rfl, rfl, rfl, rfl, rfl, rfl, rfl, rfl, rfl⟩⟩

/-- Settles O52: `Params.wf` is the conjunction of the constraints, and a positive multiple of 1,000,000 is 1,000,000
times its quotient. -/
theorem configurationConstraints : Obligations.ConfigurationConstraints := by
  have hwf : ∀ p : Params, p.wf = true ↔ 0 < p.fClkHz ∧ p.fClkHz % 1000000 = 0 ∧ 1 ≤ p.pollCap ∧ p.sentLo ≠ p.sentHi ∧
      p.stopTail ≤ 3 * p.t ∧ 8 ≤ p.addrW := by
    intro p
    simp only [Params.wf, Params.clockOk, Params.pollCapOk, Params.sentinelsOk, Params.stopTailOk, Params.addrWOk,
      Bool.and_eq_true, decide_eq_true_eq, and_assoc]
  refine ⟨hwf, fun c => ?_⟩
  obtain ⟨hpos, hmod, -⟩ := (hwf c.toParams).1 c.ok
  unfold Params.t
  omega

end Sys2Proof.Machine

/-! ## Proofs: writes and accesses (`spec/20_memory.md`)

What a read gives after a write, in one equation, and from it the laws of writes as equalities of states; then what the
tick of a busy block does for each of the accesses it can issue at its memory port. -/

namespace Sys2Proof.Machine

/-! ### Writes -/

/-- A read after a write, at any address (R52, R53). -/
theorem Memory.read_write {mem : List Host.Cell} (hwf : Memory.wf mem = true) (x : Nat) (v : Byte) (y : Nat) :
    Memory.read (Memory.write mem x v) y = if y = x then v else Memory.read mem y := by
  split
  · next h => rw [h, Memory.read_write_self hwf]
  · next h => exact Memory.read_write_of_ne mem v h

/-- A state is another with its memory replaced by one that reads the same, both canonical. -/
theorem memWrite_eq_of_read {s t : State} {x : Nat} {v : Byte} (ht : t = { s with mem := t.mem })
    (hs : Memory.wf s.mem = true) (hwf : Memory.wf t.mem = true)
    (h : ∀ y, memRead t y = if y = x then v else memRead s y) : memWrite x v s = t := by
  rw [ht]
  refine congrArg (fun m => { s with mem := m }) (Memory.ext_of_read (Memory.wf_write hs x v) hwf fun y => ?_)
  rw [Memory.read_write hs]
  exact (h y).symm

/-- Settles O44: both sides of each law read the same everywhere, and canonical memories that do are equal. -/
theorem writesReplaceAndCommute : Obligations.WritesReplaceAndCommute := by
  intro s x y v w hs
  have hwf : ∀ a b, Memory.wf (memWrite a b s).mem = true := Memory.wf_write hs
  have hread : ∀ a b z, memRead (memWrite a b s) z = if z = a then b else memRead s z := Memory.read_write hs
  refine ⟨?_, fun hxy => ?_, ?_⟩
  · refine memWrite_eq_of_read rfl (hwf x w) (hwf x v) fun z => ?_
    rw [hread, hread]
    split <;> rfl
  · refine memWrite_eq_of_read rfl (hwf y w) (Memory.wf_write (hwf x v) y w) fun z => ?_
    rw [memRead, memWrite, Memory.read_write (hwf x v), hread]
    show (if z = y then w else memRead (memWrite x v s) z) = _
    rw [hread]
    by_cases hz : z = x
    · simp [hz, hxy]
    · simp [hz]
  · refine memWrite_eq_of_read rfl hs hs fun z => ?_
    split
    · next h => rw [h]
    · rfl

/-! ### The tick of an access -/

@[simp] theorem nextSymbol_mem (s : State) : (nextSymbol s).mem = s.mem := by
  unfold nextSymbol
  split
  · rfl
  · split <;> rfl

@[simp] theorem nextByte_mem (s : State) : (nextByte s).mem = s.mem := by
  unfold nextByte
  split <;> rfl

/-- What the tick does for the access it issues: leave memory alone; start the byte it has read; end the byte it
stores. -/
def PortTick (s : State) : MemAccess → Prop
  | .none => (tick s).mem = s.mem
  | .read a => a = s.cmdAddr s.txidx.toNat ∧ tick s = startByte (memRead s a) (elapse s)
  | .write a v => a = s.respAddr s.rxidx.toNat ∧ tick s = nextByte (store v (elapse s))

/-- The tick of a fetch (R52, R65). -/
theorem portTick_fetch {s : State} (h : tick s = nextSymbol (elapse s)) : PortTick s (fetchPort s) := by
  unfold fetchPort
  split
  · next hf =>
    obtain ⟨hb, hn⟩ := hf
    exact ⟨rfl, h.trans (nextSymbol_byte (s := elapse s) (BitVec.eq_of_toNat_eq hb) hn)⟩
  · show (tick s).mem = s.mem
    rw [h, nextSymbol_mem, elapse_mem]

/-- The tick of a busy block, for each access (R53). -/
theorem portTick {s : State} (hb : s.busy = true) : PortTick s (memPort s) := by
  cases hr : s.input.rst with
  | true =>
    have hport : memPort s = .none := by simp [memPort, hr]
    rw [hport]
    show (tick s).mem = s.mem
    rw [tick_of_rst hr, resetStep_mem]
  | false =>
    have hidle : ∀ {u : State}, tick s = u → u.mem = s.mem → PortTick s .none := fun e hm => by
      show (tick s).mem = s.mem
      rw [e, hm]
    cases hst : s.st with
    | idle => exact absurd hst (busy_iff.1 hb)
    | arm =>
      have hport : memPort s = fetchPort s := by simp [memPort, hr, hst]
      rw [hport]
      exact portTick_fetch (tick_arm hr hst)
    | txLow =>
      rw [memPort_timed (.inl hst)]
      refine hidle (tick_txLow hr hst) ?_
      rw [tickTxLow_elapse]
      split <;> rfl
    | txHigh =>
      have htick := (tick_txHigh hr hst).trans (tickTxHigh_elapse s)
      by_cases hc : 1 < s.cnt
      · rw [memPort_timed (.inr (.inl ⟨hst, hc⟩))]
        exact hidle (htick.trans (if_pos hc)) rfl
      · have hport : memPort s = fetchPort s := by simp [memPort, hr, hst, hc]
        rw [hport]
        exact portTick_fetch (htick.trans (if_neg hc))
    | stopLow =>
      rw [memPort_timed (.inr (.inr (.inl hst)))]
      refine hidle (tick_stopLow hr hst) ?_
      rw [tickStopLow_elapse]
      split
      · rfl
      · split
        · rfl
        · exact afterStop_mem _
    | stopHigh =>
      rw [memPort_timed (.inr (.inr (.inr hst)))]
      refine hidle (tick_stopHigh hr hst) ?_
      rw [tickStopHigh_elapse]
      split
      · rfl
      · exact afterStop_mem _
    | rxWaitHigh =>
      have htick := (tick_rxWaitHigh hr hst).trans (tickWaitHigh_elapse s s.line)
      cases hl : s.line with
      | true =>
        have hport : memPort s = .none := by simp [memPort, hr, hst, timesOut, hl]
        rw [hport]
        exact hidle htick (by rw [hl]; rfl)
      | false =>
        rw [hl, if_neg Bool.false_ne_true] at htick
        by_cases hc : s.cfg.pollCap ≤ s.cnt + 1
        · have hport : memPort s = .write (s.respAddr s.rxidx.toNat) s.cfg.sentHi := by
            simp [memPort, hr, hst, timesOut, State.lastPoll, hl, hc]
          rw [hport]
          exact ⟨rfl, htick.trans (if_pos hc)⟩
        · have hport : memPort s = .none := by simp [memPort, hr, hst, timesOut, State.lastPoll, hc]
          rw [hport]
          exact hidle (htick.trans (if_neg hc)) rfl
    | rxWaitLow =>
      have htick := (tick_rxWaitLow hr hst).trans (tickWaitLow_elapse s s.line)
      cases hl : s.line with
      | false =>
        have hport : memPort s = .none := by simp [memPort, hr, hst, timesOut, hl]
        rw [hport]
        exact hidle htick (by rw [hl]; rfl)
      | true =>
        rw [hl, Bool.not_true, if_neg Bool.false_ne_true] at htick
        by_cases hc : s.cfg.pollCap ≤ s.cnt + 1
        · have hport : memPort s = .write (s.respAddr s.rxidx.toNat) s.cfg.sentLo := by
            simp [memPort, hr, hst, timesOut, State.lastPoll, hl, hc]
          rw [hport]
          exact ⟨rfl, htick.trans (if_pos hc)⟩
        · have hport : memPort s = .none := by simp [memPort, hr, hst, timesOut, State.lastPoll, hc]
          rw [hport]
          exact hidle (htick.trans (if_neg hc)) rfl
    | rxDelay =>
      have htick := (tick_rxDelay hr hst).trans (tickDelay_elapse s s.line)
      by_cases hc : 1 < s.cnt
      · have hport : memPort s = .none := by simp [memPort, hr, hst, samples, Nat.not_le.2 hc]
        rw [hport]
        exact hidle (htick.trans (if_pos hc)) rfl
      · rw [if_neg hc] at htick
        by_cases hb7 : s.bitcnt = 7
        · have hport : memPort s = .write (s.respAddr s.rxidx.toNat) (shiftIn s.shreg s.line) := by
            simp [memPort, hr, hst, samples, Nat.not_lt.1 hc, hb7]
          rw [hport]
          exact ⟨rfl, htick.trans (if_pos hb7)⟩
        · have hport : memPort s = .none := by
            simp only [memPort, hr, hst, beq_eq_false_iff_ne.2 hb7, Bool.and_false, Bool.false_eq_true, if_false]
          rw [hport]
          exact hidle (htick.trans (if_neg hb7)) rfl

/-- Settles O45: no access leaves memory alone, a byte read starts to go out, and a byte stored is one write. -/
theorem portAccesses : Obligations.PortAccesses := by
  intro s hb hwf
  have hport := portTick hb
  cases hp : memPort s with
  | none =>
    rw [hp] at hport
    intro a
    rw [memRead, hport, memRead]
  | read a =>
    rw [hp] at hport
    obtain ⟨ha, htick⟩ := hport
    show SameMemory s (tick s) ∧ _
    rw [htick]
    exact ⟨fun _ => rfl, rfl, rfl, rfl, ha⟩
  | write a v =>
    rw [hp] at hport
    obtain ⟨rfl, htick⟩ := hport
    have hread : ∀ x, memRead (tick s) x = if x = s.respAddr s.rxidx.toNat then v else memRead s x := fun x => by
      rw [memRead, htick, nextByte_mem]
      exact Memory.read_write hwf _ v x
    exact ⟨(hread _).trans (if_pos rfl), fun x hx => (hread x).trans (if_neg hx), rfl⟩

end Sys2Proof.Machine

/-! ## Proofs: a byte and the stop bit on the wire (`spec/41_transmit.md`)

Which level a character of a byte's image is, as a comparison with the low phase of its symbol; from it what a byte drives,
tick by tick. Then the stop bit in closed form, and what the end of either leaves unchanged. -/

namespace Sys2Proof.Machine

/-! ### The characters of an image -/

/-- Character `i` of a byte's image is slot `i % 4` of the symbol of bit `7 - i / 4` (R72). -/
theorem byteImage_getD (v : Byte) {i : Nat} (hi : i < 32) :
    (byteImage v).getD i true = (symbolImage (v.getLsbD (7 - i / 4))).getD (i % 4) true := by
  interval_cases i <;> rfl

/-- Slot `q` of a symbol, `T` ticks long, is high exactly if the low phase has ended before it (R9, R71). -/
theorem symbolImage_getD (s : State) (d : Bool) {q j : Nat} (hq : q < 4) (hj : j < s.t) :
    (symbolImage d).getD q true = decide (s.low d ≤ s.t * q + j) := by
  interval_cases q <;> cases d <;> simp [symbolImage, State.low] <;> omega

/-- Tick `j` of character `i` is a tick of the symbol of bit `7 - i / 4`. -/
theorem character_tick (s : State) (i j : Nat) : s.t * i + j = i / 4 * s.period + (s.t * (i % 4) + j) := by
  have hsplit : s.t * i = s.t * (4 * (i / 4) + i % 4) := by rw [Nat.div_add_mod]
  have hper : i / 4 * s.period = s.t * (4 * (i / 4)) := by rw [State.period]; ring
  rw [hsplit, hper]
  ring

theorem character_tick_lt (s : State) (i : Nat) {j : Nat} (hj : j < s.t) : s.t * (i % 4) + j < s.period := by
  have hle : s.t * (i % 4) ≤ s.t * 3 := Nat.mul_le_mul_left _ (by omega)
  rw [State.period]
  omega

/-! ### A byte -/

/-- The places of a byte's symbols (R31). -/
theorem startByte_place {s : State} (v : Byte) (h : NoReset s (8 * s.period)) {j : Nat} (hj : j < 8 * s.period) :
    (ticks j (startByte v s)).st = .txLow ∨ (ticks j (startByte v s)).st = .txHigh := by
  have hper : 0 < s.period := Nat.zero_lt_of_lt (s.low_lt_period true)
  have hbit : j / s.period < 8 := Nat.div_lt_of_lt_mul (by rwa [Nat.mul_comm])
  have hsum : j / s.period * s.period + j % s.period = j := Nat.div_add_mod' j s.period
  obtain ⟨hst, -⟩ := ticks_startByte_at v (Nat.le_of_lt_succ hbit) (Nat.mod_lt j hper) (h.mono (by omega))
  rw [hsum] at hst
  split at hst
  · exact .inl hst
  · exact .inr hst

/-- A byte's ticks drive the line as the 32 characters of its image say, `T` ticks each (R72, R103). -/
theorem startByte_drives {s : State} (v : Byte) (h : NoReset s (8 * s.period)) {i j : Nat} (hi : i < 32) (hj : j < s.t) :
    (ticks (s.t * i + j) (startByte v s)).dir = if (byteImage v).getD i true then .input else .output := by
  have hlt := character_tick_lt s i hj
  have hmul : i / 4 * s.period ≤ 7 * s.period := Nat.mul_le_mul_right _ (by omega)
  obtain ⟨-, hdir⟩ := ticks_startByte_at v (i := i / 4) (by omega) hlt (h.mono (by omega))
  rw [character_tick, hdir, byteImage_getD v hi, symbolImage_getD s _ (Nat.mod_lt i (by omega)) hj]
  by_cases hc : s.t * (i % 4) + j < s.low (v.getLsbD (7 - i / 4))
  · simp [hc]
  · simp [hc, Nat.not_lt.1 hc]

/-- Settles O21: the tick of presentation passes, and the byte's ticks and its end follow from there. -/
theorem txByteDrivesItsImage : Obligations.TxByteDrivesItsImage := by
  intro s v h a
  have hclock : ∀ u, (startByte v u).env = u.env ∧ (startByte v u).now = u.now := fun _ => ⟨rfl, rfl⟩
  have he : NoReset (elapse s) (8 * s.period) := h.start (f := id) fun _ => ⟨rfl, rfl⟩
  exact ⟨congrArg Host.Outcome.next (presentFor_cut hclock h), fun i hi j hj => startByte_drives v he hi hj,
    ticks_startByte v he⟩

/-! ### The stop bit -/

/-- The ticks of the stop bit's low phase (R104). -/
theorem ticks_startStop_low {s : State} {j : Nat} (hj : j < s.t) (h : NoReset s j) :
    ticks j (startStop s) = (startStop (elapseN j s)).withCnt (s.t - j) := by
  rw [ticks_countDown (s := startStop s) (by simp [State.timed]) hj fun i hi => h i hi, elapseN_startStop]
  rfl

/-- The ticks of the wait after it (R104). -/
theorem ticks_startStop_high {s : State} {j : Nat} (hl : s.t ≤ j) (hj : j < s.t + s.cfg.stopTail) (h : NoReset s j) :
    ticks j (startStop s) = (startStop (elapseN j s)).inPhase .stopHigh .input (s.t + s.cfg.stopTail - j) := by
  obtain ⟨t, ht⟩ : ∃ t, s.t = t + 1 := ⟨s.t - 1, by have := s.one_le_t; omega⟩
  obtain ⟨d, rfl⟩ : ∃ d, j = t + 1 + d := ⟨j - (t + 1), by omega⟩
  have hlast : ticks t (startStop s) = (startStop (elapseN t s)).withCnt 1 := by
    rw [ticks_startStop_low (by omega) (h.mono (by omega)), ht, Nat.add_sub_cancel_left]
  have hrst : ((startStop (elapseN t s)).withCnt 1).input.rst = false :=
    (congrArg TickIn.rst (input_elapseN t s)).trans (h t (by omega))
  have hfirst : ticks (t + 1) (startStop s) =
      (startStop (elapseN (t + 1) s)).inPhase .stopHigh .input s.cfg.stopTail := by
    have htail : 0 < s.cfg.stopTail := by omega
    rw [ticks_succ', hlast, tick_stopLow hrst rfl, tickStopLow_tail (by simp) (by simpa using htail), elapseN_succ']
    simp only [elapse_cfg, withCnt_cfg, startStop_cfg, elapseN_cfg]
    rfl
  rw [ticks_add, hfirst, ticks_countDown (by simp [State.timed]) (by simp; omega), elapseN_inPhase, elapseN_startStop,
    ← elapseN_add, inPhase_cnt, ht, Nat.add_sub_add_left]
  · rfl
  · intro i hi
    rw [inPhase_inputAt]
    exact (congrArg TickIn.rst (inputAt_elapseN (t + 1) s i)).trans (h _ (by omega))

/-! ### What the end of a byte or of the stop bit leaves unchanged -/

/-- Putting back the index a state has changes nothing. -/
theorem withTxidx_self {s : State} {i : Byte} (h : s.txidx = i) : s.withTxidx i = s := by
  subst h
  rfl

section
variable {k : Nat} (hk : 0 < k) (s : State) (st : SeqState) (d : Dir) (c : Nat) (sh : Byte) (bc : BitVec 4) (cb : Bool)
  (i : Byte)
include hk

/-- The state `k` ticks later, at another place of the transmit phase. -/
theorem sending_frame {t : State} (ht : t = (((elapseN k s).inPhase st d c).withBits sh bc cb).withTxidx i) :
    SameMemory s t ∧ SameOperands s t ∧ SameIe s t ∧ SameCaller s t ∧ t.rxidx = s.rxidx ∧ t.done = false ∧
      Passed k s t := by
  subst ht
  have hp := passed_elapseN k s
  refine ⟨fun a => by simp [memRead], ?_, ?_, ?_, by simp, elapseN_done k s hk, hp.congr rfl rfl rfl rfl rfl rfl⟩ <;>
    constructor <;> simp

end

/-- `NextSymbol` writes the place, the bits and TXIDX alone (R125). -/
theorem exists_nextSymbol (s : State) :
    ∃ st d c sh bc cb i, nextSymbol s = ((s.inPhase st d c).withBits sh bc cb).withTxidx i := by
  unfold nextSymbol
  split
  · exact ⟨_, _, _, _, _, _, s.txidx, (startBit_eq s).trans (withTxidx_self rfl).symm⟩
  · split
    · exact ⟨_, _, _, _, _, _, _, startByte_eq _ s⟩
    · exact ⟨_, _, _, _, _, _, s.txidx, (startStop_eq s).trans (withTxidx_self rfl).symm⟩

/-- Settles O23: after either the state is `NextSymbol` of one that differs in the place, the bits and TXIDX. -/
theorem transmitFrame : Obligations.TransmitFrame := by
  intro s i k hik h
  have hend : ∀ {t st d c sh bc cb x},
      t = nextSymbol ((((elapseN (k + 1) s).inPhase st d c).withBits sh bc cb).withTxidx x) →
      SameMemory s t ∧ SameOperands s t ∧ SameIe s t ∧ SameCaller s t ∧ t.rxidx = s.rxidx ∧ t.done = false ∧
        Passed (k + 1) s t := by
    intro t st d c sh bc cb x ht
    obtain ⟨st', d', c', sh', bc', cb', x', hn⟩ :=
      exists_nextSymbol ((((elapseN (k + 1) s).inPhase st d c).withBits sh bc cb).withTxidx x)
    exact sending_frame (Nat.succ_pos k) s st' d' c' sh' bc' cb' x' (ht.trans hn)
  have hsymbol : ∀ b : Bool, k = s.period → i = (if b then .tx1 else .tx0) → ∃ t, exec i s = .next t ∧ SameMemory s t ∧
      SameOperands s t ∧ SameIe s t ∧ SameCaller s t ∧ t.rxidx = s.rxidx ∧ t.done = false ∧ Passed (k + 1) s t := by
    rintro b rfl rfl
    obtain ⟨-, hexec, -, -, ht⟩ := symbolSchedule s b h
    exact ⟨_, hexec, hend (x := s.txidx) (ht.trans (congrArg nextSymbol (withTxidx_self (by simp)).symm))⟩
  rcases hik with ⟨rfl, hk⟩ | ⟨rfl, hk⟩ | ⟨⟨v, rfl⟩, rfl⟩
  · exact hsymbol false hk rfl
  · exact hsymbol true hk rfl
  · obtain ⟨hexec, -, ht⟩ := txByteDrivesItsImage s v h
    exact ⟨_, hexec, hend ht⟩

end Sys2Proof.Machine

namespace Sys2Proof.Machine

/-! ### The end of the stop bit -/

/-- What `AfterStop` does: the transaction finishes, or the first response byte begins (R125). -/
theorem afterStop_cases (s : State) :
    s.m = 0 ∧ afterStop s = finish s ∨ s.m ≠ 0 ∧ afterStop s = startRxByte { s with rxidx := 0 } := by
  by_cases hm : s.m = 0
  · exact .inl ⟨hm, if_pos hm⟩
  · exact .inr ⟨hm, if_neg hm⟩

/-- What it leaves unchanged. -/
theorem afterStop_frame (s : State) : SameOperands s (afterStop s) ∧ SameCaller s (afterStop s) ∧
    (afterStop s).txidx = s.txidx ∧ (afterStop s).ieSaved = s.ieSaved ∧ Passed 0 s (afterStop s) := by
  rcases afterStop_cases s with ⟨-, e⟩ | ⟨-, e⟩ <;> rw [e] <;>
    exact ⟨⟨rfl, rfl, rfl, rfl⟩, ⟨rfl, rfl, rfl, rfl, rfl, rfl, rfl, rfl, rfl⟩, rfl, rfl,
      (passed_elapseN 0 s).congr rfl rfl rfl rfl rfl rfl⟩

/-- Settles O22: the low phase and the wait in closed form, and `AfterStop` in the last tick. -/
theorem txStopSchedule : Obligations.TxStopSchedule := by
  intro s h a
  have hclock : ∀ u, (startStop u).env = u.env ∧ (startStop u).now = u.now := fun _ => ⟨rfl, rfl⟩
  have he : NoReset (elapse s) (s.t + s.cfg.stopTail) := h.start (f := id) fun _ => ⟨rfl, rfl⟩
  set u := ((elapseN (s.t + s.cfg.stopTail) (elapse s)).inPhase (stopEnd (elapse s)) .input 1).withBits s.shreg s.bitcnt
    true with hu
  have hend : ticks (s.t + s.cfg.stopTail) a = afterStop u := ticks_startStop he
  obtain ⟨hmem, hops, hie, hcaller, hrx, hdone, hp⟩ := sending_frame (Nat.succ_pos (s.t + s.cfg.stopTail)) s
    (stopEnd (elapse s)) .input 1 s.shreg s.bitcnt true s.txidx (t := u) (withTxidx_self (by simp [hu])).symm
  obtain ⟨hops', hcaller', htx', hsaved', hp'⟩ := afterStop_frame u
  have htx : u.txidx = s.txidx := by simp [hu]
  refine ⟨ticks (s.t + s.cfg.stopTail) a, congrArg Host.Outcome.next (presentFor_cut hclock h), rfl, fun j hj => ?_, fun j hl hj => ?_, ?_⟩
  · have hlow : ticks j a = (startStop (elapseN j (elapse s))).withCnt (s.t - j) :=
      ticks_startStop_low hj (he.mono (by omega))
    rw [hlow]
    exact ⟨rfl, rfl, rfl, rfl⟩
  · have hhigh : ticks j a =
        (startStop (elapseN j (elapse s))).inPhase .stopHigh .input (s.t + s.cfg.stopTail - j) :=
      ticks_startStop_high hl hj (he.mono (by omega))
    rw [hhigh]
    exact ⟨rfl, rfl, rfl, rfl⟩
  · rw [hend]
    refine ⟨?_, htx'.trans htx, hops.trans hops', hcaller.trans hcaller', fun x => ?_, hp.trans hp',
      hsaved'.trans hie.ieSaved, fun hm => ?_, fun hm => ?_⟩
    · rcases afterStop_cases u with ⟨-, e⟩ | ⟨-, e⟩ <;> rw [e] <;> rfl
    · rw [memRead, afterStop_mem]
      exact hmem x
    · rw [afterStop, if_neg (hops.m ▸ hm)]
      exact ⟨rfl, rfl, rfl, rfl, rfl, hdone, hie.ie⟩
    · rw [afterStop, if_pos (hops.m.trans hm)]
      exact ⟨rfl, rfl, hie.ieSaved, hrx⟩

/-! ### The places of the transmit phase -/

section
variable {s : State} (hst : s.st = .arm) (hb : s.bitcnt = 0) (hsh : s.shreg = 0) (htx : s.txidx = 0)
  (h : NoReset s s.transmitTicks)
include hst hb hsh htx h

/-- Tick `x` of command byte `i` of a transaction in `ARM` (R105, R126). -/
theorem ticks_transmit_command {i x : Nat} (hi : i < s.n.toNat) (hx : x < 8 * s.period) :
    ∃ u, u.cfg = s.cfg ∧ NoReset u (8 * s.period) ∧
      ticks (1 + 8 * s.period * i + x) s = ticks x (startByte (memRead s (s.cmdAddr i)) u) := by
  have hn := s.n.isLt
  have hmul : 8 * s.period * (i + 1) ≤ 8 * s.period * s.n.toNat := Nat.mul_le_mul_left _ hi
  rw [Nat.mul_add, Nat.mul_one] at hmul
  have hle : 1 + 8 * s.period * i + 8 * s.period ≤ s.transmitTicks := by rw [State.transmitTicks]; omega
  have hr : NoReset (elapse s) (i * (8 * (elapse s).period)) := fun j hj => by
    rw [inputAt_elapse]
    exact h _ (by rw [Nat.mul_comm] at hj; change j < 8 * s.period * i at hj; omega)
  obtain ⟨cb, hcb⟩ := ticks_commandByte i (s := elapse s) hb hsh (by simp [htx]; omega) hr
  set u := ((elapseN (i * (8 * (elapse s).period)) (elapse s)).withTxidx ((elapse s).txidx + BitVec.ofNat 8 i)).withBits
    0 0 cb with hu
  have hutx : u.txidx.toNat = i := by
    rw [hu, withBits_txidx, withTxidx_txidx, elapse_txidx, htx, zero_add, BitVec.toNat_ofNat]
    omega
  have hnext : nextSymbol u = startByte (memRead s (s.cmdAddr i)) u := by
    rw [nextSymbol_byte rfl (by rw [hutx]; simpa [hu] using hi), hutx]
    simp [hu, memRead, State.cmdAddr, State.wrap]
  refine ⟨u, by simp [hu], fun j hj => ?_, ?_⟩
  · have hin : u.inputAt j = s.inputAt (1 + 8 * s.period * i + j) := by
      rw [hu, withBits_inputAt, withTxidx_inputAt, inputAt_elapseN, inputAt_elapse, Nat.mul_comm i]
      congr 1
      change 8 * s.period * i + j + 1 = _
      omega
    rw [hin]
    exact h _ (by omega)
  · rw [ticks_add, ticks_add 1, Nat.mul_comm _ i, ticks_succ, ticks_zero, tick_arm (h 0 (by omega)) hst]
    exact congrArg (ticks x) (hcb.trans hnext)

/-- The stop bit of a transaction in `ARM` begins after its last command byte (R105, R126). -/
theorem ticks_transmit_stop : ∃ u, u.cfg = s.cfg ∧ NoReset u (s.t + s.cfg.stopTail) ∧
    ∀ x, ticks (1 + 8 * s.period * s.n.toNat + x) s = ticks x (startStop u) := by
  have hle : 1 + 8 * s.period * s.n.toNat + (s.t + s.cfg.stopTail) = s.transmitTicks := by
    rw [State.transmitTicks]; omega
  have hr : NoReset (elapse s) (s.n.toNat * (8 * (elapse s).period)) := fun j hj => by
    rw [inputAt_elapse]
    exact h _ (by rw [Nat.mul_comm] at hj; change j < 8 * s.period * s.n.toNat at hj; omega)
  have hcmd := ticks_command s.n.toNat (s := elapse s) hb hsh (by simp [htx]) hr
  set u := (elapseN (s.n.toNat * (8 * (elapse s).period)) (elapse s)).withTxidx (elapse s).n with hu
  refine ⟨u, by simp [hu], fun j hj => ?_, fun x => ?_⟩
  · have hin : u.inputAt j = s.inputAt (1 + 8 * s.period * s.n.toNat + j) := by
      rw [hu, withTxidx_inputAt, inputAt_elapseN, inputAt_elapse, Nat.mul_comm s.n.toNat]
      congr 1
      change 8 * s.period * s.n.toNat + j + 1 = _
      omega
    rw [hin]
    exact h _ (by omega)
  · rw [ticks_add, ticks_add 1, Nat.mul_comm _ s.n.toNat, ticks_succ, ticks_zero, tick_arm (h 0 (by omega)) hst]
    exact congrArg (ticks x) hcmd

/-- In no tick of its transmit phase is the block in the receive phase (R31). -/
theorem not_receiving_transmit {j : Nat} (hj : j < s.transmitTicks) : ¬ (ticks j s).receiving := by
  have hplace : (ticks j s).st = .arm ∨ ((ticks j s).st = .txLow ∨ (ticks j s).st = .txHigh) ∨
      ((ticks j s).st = .stopLow ∨ (ticks j s).st = .stopHigh) := by
    rcases Nat.eq_zero_or_pos j with rfl | hpos
    · exact .inl hst
    · rcases Nat.lt_or_ge j (1 + 8 * s.period * s.n.toNat) with hlt | hge
      · have hper : 0 < 8 * s.period := by have := s.low_lt_period true; omega
        have hdiv : (j - 1) / (8 * s.period) < s.n.toNat := Nat.div_lt_of_lt_mul (by omega)
        have hmod := Nat.mod_lt (j - 1) hper
        obtain ⟨u, hcfg, hr, e⟩ := ticks_transmit_command hst hb hsh htx h hdiv hmod
        have hsum : 1 + 8 * s.period * ((j - 1) / (8 * s.period)) + (j - 1) % (8 * s.period) = j := by
          rw [Nat.add_assoc, Nat.div_add_mod]
          omega
        have huper : u.period = s.period := by simp [State.period, State.t, hcfg]
        rw [hsum] at e
        rw [e]
        exact .inr (.inl (startByte_place _ (huper ▸ hr) (huper ▸ hmod)))
      · obtain ⟨u, hcfg, hr, e⟩ := ticks_transmit_stop hst hb hsh htx h
        obtain ⟨x, rfl⟩ := Nat.exists_eq_add_of_le hge
        have hut : u.t + u.cfg.stopTail = s.t + s.cfg.stopTail := by simp [State.t, hcfg]
        have hx : x < u.t + u.cfg.stopTail := by
          rw [State.transmitTicks] at hj
          omega
        rw [e]
        exact .inr (.inr ((ticks_startStop_at hx (hut ▸ hr)).imp And.left And.left))
  rintro (hrec | hrec | hrec) <;> simp [hrec] at hplace

end

/-- Settles O34: tick `x` of command byte `i` is one of that byte's own ticks, and after the last byte the stop bit
drives the line. -/
theorem transactSendsTheCommand : Obligations.TransactSendsTheCommand := by
  intro s n m _ h a
  have hr : NoReset a a.transmitTicks := by
    rw [Nat.add_comm, transactTicks_eq n m s] at h
    exact (h.start (f := accept n m) fun _ => ⟨rfl, rfl⟩).mono (Nat.le_add_right _ _)
  have hper : a.period = s.period := rfl
  refine ⟨rfl, rfl, fun i hi c hc j hj => ?_, fun j hj => ?_⟩
  · have hx : s.t * c + j < 8 * s.period := by
      have hle : s.t * c ≤ s.t * 31 := Nat.mul_le_mul_left _ (by omega)
      rw [State.period]
      omega
    obtain ⟨u, hcfg, hru, e⟩ := ticks_transmit_command (s := a) rfl rfl rfl rfl hr hi hx
    have hut : u.t = s.t := by simp only [State.t, hcfg]; rfl
    have huper : u.period = a.period := by simp [State.period, State.t, hcfg]
    rw [Nat.add_assoc, ← hper, e, ← hut, startByte_drives _ (huper ▸ hru) hc (hut ▸ hj), accept_cmdAddr]
    rfl
  · obtain ⟨u, hcfg, hru, e⟩ := ticks_transmit_stop (s := a) rfl rfl rfl rfl hr
    have hut : u.t = s.t := by simp only [State.t, hcfg]; rfl
    have hn : 1 + 8 * a.period * a.n.toNat + j = 1 + 8 * s.period * n.toNat + j := rfl
    rw [← hn, e, ticks_startStop_low (hut ▸ hj) (hru.mono (Nat.le_trans (Nat.le_of_lt hj) (Nat.le_add_right _ _)))]
    rfl

end Sys2Proof.Machine

namespace Sys2Proof.Machine

/-! ### Other inputs to come

Every piece of `Step` leaves the inputs to come alone and looks at none of them. -/

section
variable (s : State) (e : List TickIn)

theorem nextSymbol_withEnv : nextSymbol (s.withEnv e) = (nextSymbol s).withEnv e := by
  simp only [nextSymbol, apply_ite (State.withEnv · e)]
  rfl

theorem afterStop_withEnv : afterStop (s.withEnv e) = (afterStop s).withEnv e := by
  simp only [afterStop, apply_ite (State.withEnv · e)]
  rfl

theorem tickTxLow_withEnv : tickTxLow (s.withEnv e) = (tickTxLow s).withEnv e := by
  simp only [tickTxLow, apply_ite (State.withEnv · e)]
  rfl

theorem tickTxHigh_withEnv : tickTxHigh (s.withEnv e) = (tickTxHigh s).withEnv e := by
  simp only [tickTxHigh, nextSymbol_withEnv, apply_ite (State.withEnv · e)]
  rfl

theorem tickStopLow_withEnv : tickStopLow (s.withEnv e) = (tickStopLow s).withEnv e := by
  simp only [tickStopLow, apply_ite (State.withEnv · e), ← afterStop_withEnv]
  rfl

theorem tickStopHigh_withEnv : tickStopHigh (s.withEnv e) = (tickStopHigh s).withEnv e := by
  simp only [tickStopHigh, afterStop_withEnv, apply_ite (State.withEnv · e)]
  rfl

theorem memWriteList_withEnv (vs : List Byte) (a : Nat) :
    memWriteList a vs (s.withEnv e) = (memWriteList a vs s).withEnv e := by
  induction vs generalizing a s with
  | nil => rfl
  | cons v vs ih => exact ih (memWrite (s.wrap a) v s) (a + 1)

theorem relayRead_withEnv : relayRead (s.withEnv e) = (relayRead s).withEnv e := by
  simp only [relayRead, memWriteList_withEnv, apply_ite (State.withEnv · e)]
  rfl

theorem relayTimeout_withEnv : relayTimeout (s.withEnv e) = (relayTimeout s).withEnv e := by
  simp only [relayTimeout, apply_ite (State.withEnv · e)]
  rfl

theorem relayPoll_withEnv : relayPoll (s.withEnv e) = (relayPoll s).withEnv e := by
  rw [relayPoll, relayRead_withEnv, relayTimeout_withEnv, relayPoll]

theorem relayFrame_withEnv (n m : Byte) : relayFrame n m (s.withEnv e) = (relayFrame n m s).withEnv e :=
  relayPoll_withEnv { s with
    frameN := n, frameM := m, frameCmd := s.portCmdBase, frameResp := s.portRespBase, frameTick := s.now } e

theorem relayWait_withEnv : relayWait (s.withEnv e) = (relayWait s).withEnv e := by
  simp only [relayWait, relayPoll_withEnv, apply_ite (State.withEnv · e)]
  rfl

theorem relayAct_withEnv (mayStart : Bool) : relayAct mayStart (s.withEnv e) = (relayAct mayStart s).withEnv e := by
  have hrelay : (s.withEnv e).relay = s.relay := rfl
  have hin : (s.withEnv e).hostIn = s.hostIn := rfl
  unfold relayAct
  rw [hrelay, hin]
  split
  · split
    · next rest _ => exact relayFrame_withEnv { s with hostIn := rest } e _ _
    · rfl
  · exact relayPoll_withEnv s e
  · split <;> rfl
  · rfl

theorem tickIdle_withEnv (act : CallerAct) (mayStart : Bool) :
    tickIdle act mayStart (s.withEnv e) = (tickIdle act mayStart s).withEnv e := by
  cases act with
  | quiet => exact relayWait_withEnv s e
  | start cb n rb m => rfl
  | setIe v => rfl
  | store a v => rfl
  | place cb rb => rfl
  | relay => exact relayAct_withEnv s e mayStart

/-- Outside the receive phase the pin is not looked at either (R95). -/
theorem tickCase_withEnv {s : State} (h : ¬ s.receiving) (act : CallerAct) (mayStart pin pin' : Bool) :
    tickCase act mayStart pin' (s.withEnv e) = (tickCase act mayStart pin s).withEnv e := by
  have hplace : (s.withEnv e).st = s.st := rfl
  cases hst : s.st with
  | idle => simpa only [tickCase, hplace, hst] using tickIdle_withEnv s e act mayStart
  | arm => simpa only [tickCase, hplace, hst] using nextSymbol_withEnv s e
  | txLow => simpa only [tickCase, hplace, hst] using tickTxLow_withEnv s e
  | txHigh => simpa only [tickCase, hplace, hst] using tickTxHigh_withEnv s e
  | stopLow => simpa only [tickCase, hplace, hst] using tickStopLow_withEnv s e
  | stopHigh => simpa only [tickCase, hplace, hst] using tickStopHigh_withEnv s e
  | rxWaitHigh => exact absurd (.inl hst) h
  | rxWaitLow => exact absurd (.inr (.inl hst)) h
  | rxDelay => exact absurd (.inr (.inr hst)) h

end

/-! ### Two states that differ in the line to come -/

/-- Their inputs differ in the line alone. -/
theorem SameButLine.inputAt {s s' : State} (h : SameButLine s s') (j : Nat) :
    (s'.inputAt j).withoutLine = (s.inputAt j).withoutLine := by
  have henv : (s'.env[j]?).map TickIn.withoutLine = (s.env[j]?).map TickIn.withoutLine := by
    rw [← List.getElem?_map, ← List.getElem?_map, h.inputs]
  have hnow : s'.now = s.now := by rw [h.state]; rfl
  unfold State.inputAt
  rw [hnow]
  cases hs : s.env[j]? <;> cases hs' : s'.env[j]? <;> simp_all

/-- Two states whose own difference is the inputs to come, one tick's used up. -/
theorem SameButLine.of_tail {s s' t t' : State} (h : SameButLine s s') (ht : t.env = s.env.tail)
    (he : t' = t.withEnv s'.env.tail) : SameButLine t t' := by
  subst he
  refine ⟨rfl, ?_⟩
  show s'.env.tail.map _ = t.env.map _
  rw [ht, List.map_tail, List.map_tail, h.inputs]

/-- The passing of the tick (R11). -/
theorem SameButLine.elapse {s s' : State} (h : SameButLine s s') : elapse s' = (elapse s).withEnv s'.env.tail := by
  have hrx : s'.input.rx = s.input.rx := (congrArg TickIn.rx (h.inputAt 0) :)
  unfold Machine.elapse
  rw [hrx, h.state]
  rfl

/-- A tick outside the receive phase (R95). -/
theorem SameButLine.tick {s s' : State} (h : SameButLine s s') (hrec : ¬ s.receiving) :
    SameButLine (tick s) (tick s') := by
  have hrst : s'.input.rst = s.input.rst := (congrArg TickIn.rst (h.inputAt 0) :)
  have hact : s'.input.act = s.input.act := (congrArg TickIn.act (h.inputAt 0) :)
  have hgap : s'.gapLeft = s.gapLeft := by rw [h.state]; rfl
  refine h.of_tail (tick_clock s).1 ?_
  cases hr : s.input.rst with
  | true =>
    have hreset : s'.cfg = s.cfg := by rw [h.state]; rfl
    rw [tick_of_rst hr, tick_of_rst (hrst.trans hr)]
    unfold resetStep
    rw [h.elapse, hreset]
    rfl
  | false =>
    have hrec' : ¬ (Machine.elapse s).receiving := hrec
    rw [tick_of_noRst hr, tick_of_noRst (hrst.trans hr), hact, hgap, h.elapse,
      tickCase_withEnv s'.env.tail hrec' _ _ s.line]

/-- Settles O24: no piece of `Step` outside the receive phase looks at the line, and no tick of the transmit phase is in
the receive phase. -/
theorem transmitIgnoresTheLine : Obligations.TransmitIgnoresTheLine := by
  refine ⟨fun s s' h hrec => h.tick hrec, fun s s' n m h hr k hk => ?_⟩
  have hra : NoReset (accept n m (elapse s)) (accept n m (elapse s)).transmitTicks := by
    refine NoReset.start (f := accept n m) (fun _ => ⟨rfl, rfl⟩) (hr.mono (Nat.le_of_eq ?_))
    show 1 + 8 * s.period * n.toNat + s.t + s.cfg.stopTail + 1 = _
    omega
  induction k with
  | zero => exact h.of_tail rfl (congrArg (accept n m) h.elapse)
  | succ k ih =>
    rw [ticks_succ', ticks_succ']
    exact (ih (by omega)).tick (not_receiving_transmit rfl rfl rfl rfl hra hk)

end Sys2Proof.Machine

/-! ## Proofs: the receive operations (`spec/42_receive.md`)

A wait for high whose polls are all low, whoever pulls the line, for each of the three operations that begin with it; then
each operation from the closed forms of its waits, its bit or its byte. -/

namespace Sys2Proof.Machine

/-! ### A later state of the receive phase -/

/-- The line after ticks that do nothing else. -/
theorem line_elapseN_of_input {s : State} (h : s.dir = .input) (j : Nat) : (elapseN j s).line = s.wireAt j := by
  rw [line_of_input (by simpa using h), wireAt_elapseN, Nat.add_zero]

theorem line_elapseN_of_output {s : State} (h : s.dir = .output) (j : Nat) : (elapseN j s).line = false :=
  line_of_output (by simpa using h)

/-- A byte stored from a state that is `s` some ticks later, at another place and with other bits. -/
theorem byteStored_later (v : Byte) {s u : State} {k : Nat} (hk : 0 < k) {st : SeqState} {c : Nat} {sh : Byte}
    {bc : BitVec 4} {cb : Bool} (hu : u = ((elapseN k s).inPhase st s.dir c).withBits sh bc cb) :
    ByteStored v s (nextByte (store v u)) ∧ Passed k s (nextByte (store v u)) := by
  have htx : u.txidx = s.txidx := by simp [hu]
  obtain ⟨-, hops, hie, hcaller, hrx, hdone, hp⟩ :=
    sending_frame hk s st s.dir c sh bc cb s.txidx (t := u) (by rw [hu]; exact (withTxidx_self (by simp)).symm)
  exact ⟨byteStored_nextByte v (by simp [hu]) hp.cfg hrx hops hcaller htx hie.ieSaved (by simp [hu]) hie.ie hdone,
    hp.nextByte v⟩

/-! ### A wait for high that never rises -/

section
variable {s : State} (hs : s.st = .rxWaitHigh) (hc : s.cnt = 0)
include hs hc

/-- Low polls only count up, whoever pulls the line. -/
theorem ticks_waitHigh_low {k : Nat} (hk : k < s.cfg.pollCap) (hw : ∀ j < k, (elapseN j s).line = false)
    (h : NoReset s k) : ticks k s = (elapseN k s).withCnt k := by
  induction k with
  | zero =>
    show s = { s with cnt := 0 }
    rw [← hc]
  | succ k ih =>
    have hr : ((elapseN k s).withCnt k).input.rst = false := by
      rw [withCnt_input, input_elapseN]
      exact h k (by omega)
    have hline : ((elapseN k s).withCnt k).line = false := hw k (by omega)
    rw [ticks_succ', ih (by omega) (fun j hj => hw j (by omega)) (h.mono (by omega)),
      tick_rxWaitHigh hr (by simpa using hs), tickWaitHigh_elapse, hline, if_neg Bool.false_ne_true, if_neg,
      elapseN_succ']
    · rfl
    · simp
      omega

end

/-- With the line low in the ticks of a wait, whoever pulls it, its polls are low. -/
theorem line_low_of_dead {s : State} {cap : Nat} (h : s.dir = .output ∨ ∀ j < cap, s.wireAt (1 + j) = false) {j : Nat}
    (hj : j < cap) : (elapseN (1 + j) s).line = false := by
  cases hd : s.dir with
  | output => exact line_elapseN_of_output hd _
  | input =>
    rw [line_elapseN_of_input hd]
    exact (h.resolve_left (by simp [hd])) j hj

/-- What begins with a wait for high and, while the line is low, ends in its last poll: `WAIT_HIGH`, `RXBIT`, `RXBYTE`. -/
structure BeginsWithWaitHigh (f : State → State) (last : State → Bool) : Prop where
  clock : ∀ s, (f s).env = s.env ∧ (f s).now = s.now
  start : ∀ s, ∃ sh bc, f s = (s.inPhase .rxWaitHigh s.dir 0).withBits sh bc s.curbit
  last : ∀ s, s.st = .rxWaitHigh → s.line = false → last s = s.lastPoll

theorem beginsWithWaitHigh_waitHigh : BeginsWithWaitHigh startWaitHigh waitHighEnds where
  clock _ := ⟨rfl, rfl⟩
  start s := ⟨s.shreg, s.bitcnt, rfl⟩
  last s _ hl := by simp [waitHighEnds, hl]

theorem beginsWithWaitHigh_rxBit : BeginsWithWaitHigh startWaitHigh rxBitEnds where
  clock _ := ⟨rfl, rfl⟩
  start s := ⟨s.shreg, s.bitcnt, rfl⟩
  last s hs hl := by simp [rxBitEnds, timesOut, samples, hs, hl]

theorem beginsWithWaitHigh_rxByte : BeginsWithWaitHigh startRxByte rxByteEnds where
  clock _ := ⟨rfl, rfl⟩
  start _ := ⟨0, 0, rfl⟩
  last s hs hl := by simp [rxByteEnds, timesOut, samples, hs, hl]

section
variable {f : State → State} {last : State → Bool} (hf : BeginsWithWaitHigh f last) {s : State}
  (hdead : s.dir = .output ∨ ∀ j < s.cfg.pollCap, s.wireAt (1 + j) = false) (hr : NoReset s (s.cfg.pollCap + 1))
include hf hdead hr

/-- The ticks of such a wait on a line that stays low. -/
theorem BeginsWithWaitHigh.low {j : Nat} (hj : j < s.cfg.pollCap) :
    ∃ sh bc, ticks j (f (elapse s)) = ((elapseN (1 + j) s).inPhase .rxWaitHigh s.dir j).withBits sh bc s.curbit ∧
      (ticks j (f (elapse s))).line = false := by
  obtain ⟨sh, bc, e⟩ := hf.start (elapse s)
  have hlow : ∀ i, (elapseN i (f (elapse s))).line = (elapseN (1 + i) s).line := fun i => by
    rw [e, elapseN_withBits, elapseN_inPhase]
    simp [State.line, Nat.add_comm]
  have hrun := ticks_waitHigh_low (s := f (elapse s)) (by rw [e]; rfl) (by rw [e]; rfl) (k := j) (by rw [e]; exact hj)
    (fun i hi => (hlow i).trans (line_low_of_dead hdead (by omega))) ((hr.start hf.clock).mono (by omega))
  refine ⟨sh, bc, ?_, ?_⟩
  · rw [hrun, e, elapseN_withBits, elapseN_inPhase, elapseN_add 1]
    rfl
  · rw [hrun]
    exact (hlow j).trans (line_low_of_dead hdead hj)

/-- Its run is `POLL_CAP` ticks. -/
theorem BeginsWithWaitHigh.run {k : Nat} (hk : s.cfg.pollCap ≤ k) :
    presentFor f last k s = ticks s.cfg.pollCap (f (elapse s)) := by
  have hcap := s.one_le_pollCap
  have hlast : ∀ j < s.cfg.pollCap, last (ticks j (f (elapse s))) = decide (s.cfg.pollCap ≤ j + 1) := by
    intro j hj
    obtain ⟨sh, bc, e, hl⟩ := hf.low hdead hr hj
    rw [hf.last _ (by rw [e]; rfl) hl, e]
    simp [State.lastPoll]
  rw [presentFor_ends (j := s.cfg.pollCap - 1) hf.clock (by omega) (hr.mono (by omega)), Nat.sub_add_cancel hcap]
  · intro i hi
    rw [hlast i (by omega), decide_eq_false_iff_not]
    omega
  · rw [hlast _ (by omega), decide_eq_true_eq]
    omega

/-- Its end is the entry of the timeout (R111, R115). -/
theorem BeginsWithWaitHigh.ends : ByteStored s.cfg.sentHi s (ticks s.cfg.pollCap (f (elapse s))) ∧
    Passed (1 + s.cfg.pollCap) s (ticks s.cfg.pollCap (f (elapse s))) := by
  have hcap := s.one_le_pollCap
  obtain ⟨k, hk⟩ : ∃ k, s.cfg.pollCap = k + 1 := ⟨s.cfg.pollCap - 1, by omega⟩
  obtain ⟨sh, bc, e, hl⟩ := hf.low hdead hr (j := k) (by omega)
  have hrst : (ticks k (f (elapse s))).input.rst = false := by
    rw [e, withBits_input, inPhase_input, input_elapseN]
    exact hr _ (by omega)
  have htick := tick_timesOut_high hrst (by rw [e]; simp [hk]) (by rw [e]; rfl) hl
  rw [hk, ticks_succ', htick, e, elapse_withBits, elapse_inPhase, ← elapseN_succ']
  simp only [withBits_cfg, inPhase_cfg, elapseN_cfg]
  exact byteStored_later s.cfg.sentHi (by omega) rfl

end

/-! ### The starts, some ticks later -/

theorem elapseN_startWaitHigh (k : Nat) (s : State) :
    elapseN k (startWaitHigh (elapse s)) = startWaitHigh (elapseN (1 + k) s) := by
  rw [elapseN_comm (f := startWaitHigh) (fun _ => rfl), elapseN_add]
  rfl

theorem elapseN_startWaitLow (k : Nat) (s : State) :
    elapseN k (startWaitLow (elapse s)) = startWaitLow (elapseN (1 + k) s) := by
  rw [elapseN_comm (f := startWaitLow) (fun _ => rfl), elapseN_add]
  rfl

theorem elapseN_startRxByte (k : Nat) (s : State) :
    elapseN k (startRxByte (elapse s)) = startRxByte (elapseN (1 + k) s) := by
  rw [elapseN_comm (f := startRxByte) (fun _ => rfl), elapseN_add]
  rfl

/-! ### The waits -/

/-- Settles O25: the polls before the rise count up, and the rise or the last poll ends the wait. -/
theorem waitHighEndsOrTimesOut : Obligations.WaitHighEndsOrTimesOut := by
  intro s hr
  have hclock : ∀ u, (startWaitHigh u).env = u.env ∧ (startWaitHigh u).now = u.now := fun _ => ⟨rfl, rfl⟩
  set a := startWaitHigh (elapse s) with ha
  have hcap : a.cfg.pollCap = s.cfg.pollCap := rfl
  have hra : NoReset a s.cfg.pollCap := hr.start hclock
  have hwire : ∀ j, a.wireAt j = s.wireAt (1 + j) := wireAt_elapseN 1 s
  refine ⟨fun hd h hh hlow hhigh => ?_, fun hdead => ?_⟩
  · have hda : a.dir = .input := hd
    have hfail : ∀ i ≤ h, ticks i a = (elapseN i a).inPhase .rxWaitHigh .input i := fun i hi =>
      ticks_waitHigh_failing rfl hda rfl (by omega) (fun j hj => (hwire j).trans (hlow j (by omega))) (hra.mono (by omega))
    have hline : ∀ i ≤ h, (ticks i a).line = s.wireAt (1 + i) := fun i hi => by
      rw [hfail i hi, line_of_input rfl, inPhase_wireAt, wireAt_elapseN, Nat.add_zero, hwire]
    have hend : ticks (h + 1) a = (((elapseN (1 + (h + 1)) s).inPhase .rxWaitLow .input 0).withBits s.shreg s.bitcnt
        s.curbit).withTxidx s.txidx := by
      rw [ticks_waitHigh_succeeds rfl hda rfl hh (fun j hj => (hwire j).trans (hlow j hj)) ((hwire h).trans hhigh)
        (hra.mono (by omega)), elapseN_startWaitHigh, withTxidx_self (by simp), withBits_self (by simp) (by simp) (by simp),
        startWaitLow_eq (by simpa using hd)]
      rfl
    obtain ⟨hmem, hops, hie, hcaller, hrx, hdone, hp⟩ := sending_frame (by omega) s _ _ _ _ _ _ _ hend
    refine ⟨ticks (h + 1) a, congrArg Host.Outcome.next (presentFor_ends hclock hh (hr.mono (by omega)) ?_ ?_), ?_⟩
    · intro i hi
      have hpoll : (ticks i a).lastPoll = false := by
        rw [hfail i (by omega)]
        simp [State.lastPoll, hcap]
        omega
      rw [waitHighEnds, ← ha, hpoll, hline i (by omega), hlow i hi, Bool.or_self]
    · rw [waitHighEnds, ← ha, hline h (Nat.le_refl h), hhigh, Bool.true_or]
    · refine ⟨?_, ?_, ?_, ?_, ?_, hrx, ?_, ?_, hdone, hops, hie, hmem, hcaller, hp⟩ <;> rw [hend] <;> rfl
  · exact ⟨_, congrArg Host.Outcome.next (beginsWithWaitHigh_waitHigh.run hdead hr (Nat.le_refl _)),
      beginsWithWaitHigh_waitHigh.ends hdead hr⟩

end Sys2Proof.Machine

namespace Sys2Proof.Machine

/-! ### The wait for low -/

section
variable {s : State} {l : Nat} (hl : l < s.cfg.pollCap)
  (hfall : s.dir = .output ∧ l = 0 ∨
    s.dir = .input ∧ (∀ j < l, s.wireAt (1 + j) = true) ∧ s.wireAt (1 + l) = false)
  (hr : NoReset s (s.cfg.pollCap + 1))
include hl hfall hr

/-- A wait for low whose first low poll is poll `l`: it ends in that tick, with the delay to come (R112). -/
theorem ticks_waitLow_falls : (∀ i < l, waitLowEnds (ticks i (startWaitLow (elapse s))) = false) ∧
    waitLowEnds (ticks l (startWaitLow (elapse s))) = true ∧
    ticks (l + 1) (startWaitLow (elapse s)) = startDelay (elapseN (1 + (l + 1)) s) := by
  set a := startWaitLow (elapse s) with ha
  have hra : NoReset a s.cfg.pollCap := hr.start (f := startWaitLow) fun _ => ⟨rfl, rfl⟩
  have hcap : a.cfg.pollCap = s.cfg.pollCap := rfl
  have hlater : startDelay (elapseN (l + 1) a) = startDelay (elapseN (1 + (l + 1)) s) := by
    rw [ha, elapseN_startWaitLow]
    rfl
  rcases hfall with ⟨hd, rfl⟩ | ⟨hd, hhigh, hlow⟩
  · have hline : a.line = false := line_of_output hd
    refine ⟨fun i hi => absurd hi (Nat.not_lt_zero i), by simp [waitLowEnds, hline], ?_⟩
    rw [← hlater, ticks_succ, ticks_zero, tick_rxWaitLow (hra 0 (by omega)) rfl, tickWaitLow_elapse, hline, Bool.not_false,
      if_pos rfl]
    rfl
  · have hda : a.dir = .input := hd
    have hwire : ∀ j, a.wireAt j = s.wireAt (1 + j) := wireAt_elapseN 1 s
    have hfail : ∀ i ≤ l, ticks i a = (elapseN i a).inPhase .rxWaitLow .input i := fun i hi =>
      ticks_waitLow_failing rfl hda rfl (by omega) (fun j hj => (hwire j).trans (hhigh j (by omega))) (hra.mono (by omega))
    have hline : ∀ i ≤ l, (ticks i a).line = s.wireAt (1 + i) := fun i hi => by
      rw [hfail i hi, line_of_input rfl, inPhase_wireAt, wireAt_elapseN, Nat.add_zero, hwire]
    refine ⟨fun i hi => ?_, ?_, ?_⟩
    · have hpoll : (ticks i a).lastPoll = false := by
        rw [hfail i (by omega)]
        simp [State.lastPoll, hcap]
        omega
      rw [waitLowEnds, hpoll, hline i (by omega), hhigh i hi, Bool.not_true, Bool.or_self]
    · rw [waitLowEnds, hline l (Nat.le_refl l), hlow, Bool.not_false, Bool.true_or]
    · rw [ticks_waitLow_succeeds rfl hda rfl hl (fun j hj => (hwire j).trans (hhigh j hj)) ((hwire l).trans hlow)
        (hra.mono (by omega)), hlater]

end

/-- A wait for low on a released line that stays high: it ends in its last poll, with `SENT_LO` (R112, R116). -/
theorem waitLow_neverFalls {s : State} (hd : s.dir = .input) (hhigh : ∀ j < s.cfg.pollCap, s.wireAt (1 + j) = true)
    (hr : NoReset s (s.cfg.pollCap + 1)) :
    presentFor startWaitLow waitLowEnds s.cfg.pollCap s = ticks s.cfg.pollCap (startWaitLow (elapse s)) ∧
    ByteStored s.cfg.sentLo s (ticks s.cfg.pollCap (startWaitLow (elapse s))) ∧
    Passed (1 + s.cfg.pollCap) s (ticks s.cfg.pollCap (startWaitLow (elapse s))) := by
  have hclock : ∀ u, (startWaitLow u).env = u.env ∧ (startWaitLow u).now = u.now := fun _ => ⟨rfl, rfl⟩
  have hone := s.one_le_pollCap
  set a := startWaitLow (elapse s) with ha
  have hra : NoReset a s.cfg.pollCap := hr.start hclock
  have hcap : a.cfg.pollCap = s.cfg.pollCap := rfl
  have hda : a.dir = .input := hd
  have hwire : ∀ j, a.wireAt j = s.wireAt (1 + j) := wireAt_elapseN 1 s
  have hlast : ∀ j < s.cfg.pollCap, waitLowEnds (ticks j a) = decide (s.cfg.pollCap ≤ j + 1) := by
    intro j hj
    rw [ticks_waitLow_failing rfl hda rfl hj (fun i hi => (hwire i).trans (hhigh i (by omega))) (hra.mono (by omega)),
      waitLowEnds, line_of_input rfl, inPhase_wireAt, wireAt_elapseN, Nat.add_zero, hwire, hhigh j hj]
    simp [State.lastPoll, hcap]
  have hend : ticks s.cfg.pollCap a =
      nextByte (store s.cfg.sentLo ((elapseN (1 + s.cfg.pollCap) s).inPhase .rxWaitLow .input (s.cfg.pollCap - 1))) := by
    rw [← hcap, ticks_waitLow_timesOut rfl hda rfl (fun j hj => (hwire j).trans (hhigh j hj)) hra, ha,
      elapseN_startWaitLow, timeoutLow, timeoutEntry]
    simp only [inPhase_cfg, startWaitLow_cfg, elapseN_cfg, elapse_cfg]
    rfl
  refine ⟨?_, ?_⟩
  · rw [presentFor_ends (j := s.cfg.pollCap - 1) hclock (by omega) (hr.mono (by omega)), Nat.sub_add_cancel hone]
    · intro i hi
      rw [← ha, hlast i (by omega), decide_eq_false_iff_not]
      omega
    · rw [← ha, hlast _ (by omega), decide_eq_true_eq]
      omega
  · rw [hend, ← hd]
    exact byteStored_later s.cfg.sentLo (by omega) (withBits_self rfl rfl rfl).symm

/-- Settles O26: the polls before the fall count up, and the fall or the last poll ends the wait. -/
theorem waitLowEndsOrTimesOut : Obligations.WaitLowEndsOrTimesOut := by
  intro s hr
  have hclock : ∀ u, (startWaitLow u).env = u.env ∧ (startWaitLow u).now = u.now := fun _ => ⟨rfl, rfl⟩
  refine ⟨fun l hl hfall => ?_, fun hd hhigh => ?_⟩
  · obtain ⟨hgo, hlast, hend⟩ := ticks_waitLow_falls hl hfall hr
    have hlater : startDelay (elapseN (1 + (l + 1)) s) =
        (((elapseN (1 + (l + 1)) s).inPhase .rxDelay s.dir s.sampleDelay).withBits s.shreg s.bitcnt
          s.curbit).withTxidx s.txidx := by
      rw [withTxidx_self (by simp), withBits_self (by simp) (by simp) (by simp), ← elapseN_dir (1 + (l + 1)) s,
        ← elapseN_sampleDelay (1 + (l + 1)) s]
      rfl
    rw [hlater] at hend
    obtain ⟨hmem, hops, hie, hcaller, hrx, hdone, hp⟩ := sending_frame (by omega) s _ _ _ _ _ _ _ hend
    refine ⟨_, congrArg Host.Outcome.next (presentFor_ends hclock hl (hr.mono (by omega)) hgo hlast), ?_⟩
    refine ⟨?_, ?_, ?_, ?_, ?_, hrx, ?_, ?_, hdone, hops, hie, hmem, hcaller, hp⟩ <;> rw [hend] <;> rfl
  · obtain ⟨hexec, hend⟩ := waitLow_neverFalls hd hhigh hr
    exact ⟨_, congrArg Host.Outcome.next hexec, hend⟩

/-! ### A bit -/

/-- `RXBIT` on a released line is a bit's run. -/
theorem exec_rxBit_of_bitRun {s : State} {k : Nat} (d : Bool) (h : BitRun (startWaitHigh (elapse s)) k)
    (hr : NoReset s (1 + k)) : exec (.rxbit d) s = .next (ticks k (startWaitHigh (elapse s))) := by
  have hpos := h.pos
  have hbound : k ≤ s.bitTicks := h.bound
  have hclock : ∀ u, (startWaitHigh u).env = u.env ∧ (startWaitHigh u).now = u.now := fun _ => ⟨rfl, rfl⟩
  have hgo : ∀ i < k - 1, rxBitEnds (ticks i (startWaitHigh (elapse s))) = false := fun i hi => by
    obtain ⟨st, c, -, -, hgo⟩ := h.during i (by omega)
    exact hgo (by omega)
  have hrun := presentFor_ends (k := s.bitTicks) hclock (by omega) (hr.mono (by omega)) hgo h.lastTick
  rw [Nat.sub_add_cancel hpos] at hrun
  exact congrArg Host.Outcome.next hrun

/-- A state of the wait for high's start, `k` ticks later at another place. -/
theorem elapseN_startWaitHigh_inPhase {s : State} (hd : s.dir = .input) (k : Nat) (st : SeqState) (c : Nat) :
    (elapseN k (startWaitHigh (elapse s))).inPhase st .input c =
      ((elapseN (1 + k) s).inPhase st s.dir c).withBits s.shreg s.bitcnt s.curbit := by
  rw [elapseN_startWaitHigh, hd, withBits_self (by simp) (by simp) (by simp)]
  rfl

/-- Settles O27: on a released line the bit's run in closed form, and on a dead one its wait for high. -/
theorem rxBitSamplesAtMidBit : Obligations.RxBitSamplesAtMidBit := by
  intro s d hr
  have hb : s.bitTicks = 2 * s.cfg.pollCap + s.sampleDelay := rfl
  set a := startWaitHigh (elapse s) with ha
  have hra : NoReset a s.bitTicks := by
    rw [Nat.add_comm] at hr
    exact hr.start (f := startWaitHigh) fun _ => ⟨rfl, rfl⟩
  have hwire : ∀ j, a.wireAt j = s.wireAt (1 + j) := wireAt_elapseN 1 s
  have hsd : a.sampleDelay = s.sampleDelay := rfl
  have hcap : a.cfg.pollCap = s.cfg.pollCap := rfl
  refine ⟨fun h l hd hh hl hlow hhigh hhi hlo => ?_, fun hdead => ?_, fun hd h hh hlow hhigh hhi => ?_⟩
  · have hda : a.dir = .input := hd
    have hlow' : ∀ j < h, a.wireAt j = false := fun j hj => (hwire j).trans (hlow j hj)
    have hhigh' : a.wireAt h = true := (hwire h).trans hhigh
    have hhi' : ∀ j < l, a.wireAt (h + 1 + j) = true := fun j hj => by
      rw [hwire, ← Nat.add_assoc]
      exact hhi j hj
    have hlo' : a.wireAt (h + 1 + l) = false := by
      rw [hwire, ← Nat.add_assoc]
      exact hlo
    have hrk : NoReset a (h + 1 + (l + 1) + a.sampleDelay) := hra.mono (by omega)
    have hrun := bitRun_sampled rfl hda rfl hh hl hlow' hhigh' hhi' hlo' hrk
    obtain ⟨hend, -⟩ := ticks_bit_sampled rfl hda rfl hh hl hlow' hhigh' hhi' hlo' hrk
    have hbit : a.wireAt (h + 1 + l + s.sampleDelay) = s.wireAt (1 + (h + 1) + l + s.sampleDelay) := by
      rw [hwire]
      congr 1
      omega
    have hk : 1 + (h + 1 + (l + 1) + s.sampleDelay) = 1 + (h + 1) + (l + 1) + s.sampleDelay := by omega
    rw [hsd, hbit, elapseN_startWaitHigh_inPhase hd, hk] at hend
    rw [hsd] at hrun
    refine ⟨_, exec_rxBit_of_bitRun d hrun (hr.mono (by omega)), ?_⟩
    rw [← ha, hend]
    generalize s.wireAt (1 + (h + 1) + l + s.sampleDelay) = b
    by_cases hb7 : s.bitcnt = 7
    · obtain ⟨hstored, hp⟩ := byteStored_later (s := s) (k := 1 + (h + 1) + (l + 1) + s.sampleDelay) (shiftIn s.shreg b)
        (by omega) rfl
      rw [sampleBit_byte (by simpa using hb7)]
      exact ⟨hp, fun hne => absurd hb7 hne, fun _ => hstored⟩
    · rw [sampleBit_bit (by simpa using hb7) (by simpa using hd)]
      obtain ⟨hmem, hops, hie, hcaller, hrx, hdone, hp⟩ := sending_frame (k := 1 + (h + 1) + (l + 1) + s.sampleDelay)
        (by omega) s .rxWaitHigh .input 0 (shiftIn s.shreg b) (s.bitcnt + 1) s.curbit s.txidx
        (withTxidx_self (by simp)).symm
      exact ⟨hp, fun _ => ⟨rfl, rfl, rfl, rfl, hrx, elapseN_txidx _ s, rfl, hdone, hops, hie, hmem, hcaller⟩,
        fun h7 => absurd h7 hb7⟩
  · have hrc : NoReset s (s.cfg.pollCap + 1) := hr.mono (by omega)
    exact ⟨_, congrArg Host.Outcome.next (beginsWithWaitHigh_rxBit.run hdead hrc (by omega)),
      beginsWithWaitHigh_rxBit.ends hdead hrc⟩
  · have hda : a.dir = .input := hd
    have hlow' : ∀ j < h, a.wireAt j = false := fun j hj => (hwire j).trans (hlow j hj)
    have hhigh' : a.wireAt h = true := (hwire h).trans hhigh
    have hhi' : ∀ j < a.cfg.pollCap, a.wireAt (h + 1 + j) = true := fun j hj => by
      rw [hwire, ← Nat.add_assoc]
      exact hhi j hj
    have hrk : NoReset a (h + 1 + a.cfg.pollCap) := hra.mono (by omega)
    have hrun := bitRun_neverFell rfl hda rfl hh hlow' hhigh' hhi' hrk
    have hend := ticks_bit_neverFell rfl hda rfl hh hlow' hhigh' hhi' hrk
    rw [hcap, elapseN_startWaitHigh_inPhase hd, ← Nat.add_assoc] at hend
    rw [hcap] at hrun
    refine ⟨_, exec_rxBit_of_bitRun d hrun (hr.mono (by omega)), ?_⟩
    rw [← ha, hend, timeoutLow, timeoutEntry, withBits_cfg, inPhase_cfg, elapseN_cfg]
    exact byteStored_later s.cfg.sentLo (by omega) rfl

end Sys2Proof.Machine

namespace Sys2Proof.Machine

/-! ### A byte -/

section
variable {s : State} {k : Nat} {v : Byte}

/-- `RXBYTE` on a released line is a byte's run. -/
theorem exec_rxByte_of_byteRun (w : Byte) (h : ByteRun (startRxByte (elapse s)) k v) (hk : k ≤ 8 * s.bitTicks)
    (hr : NoReset s (1 + k)) : exec (.rxbyte w) s = .next (ticks k (startRxByte (elapse s))) := by
  have hpos := h.pos
  have hclock : ∀ u, (startRxByte u).env = u.env ∧ (startRxByte u).now = u.now := fun _ => ⟨rfl, rfl⟩
  have hrun := presentFor_ends (k := 8 * s.bitTicks) hclock (by omega) (hr.mono (by omega))
    (fun i hi => h.goesOn i (by omega)) h.lastTick
  rw [Nat.sub_add_cancel hpos] at hrun
  exact congrArg Host.Outcome.next hrun

/-- The end of a byte that began with the wait for high, in what it changed since before that (R114). -/
theorem Receiving.byteStored_start {u : State} (h : Receiving (startRxByte (elapse s)) k u) (hd : s.dir = .input) :
    ByteStored v s (nextByte (store v u)) ∧ Passed (1 + k) s (nextByte (store v u)) := by
  obtain ⟨st, c, sh, bc, -, rfl⟩ := h
  refine byteStored_later v (by omega) (st := st) (c := c) (sh := sh) (bc := bc) (cb := s.curbit) ?_
  rw [elapseN_startRxByte, hd]
  rfl

end

/-- On a dead line no tick before the last of the wait accesses memory, and the last stores `SENT_HI` (R53). -/
theorem trace_dead {s : State} (hdead : s.dir = .output ∨ ∀ j < s.cfg.pollCap, s.wireAt (1 + j) = false)
    (hr : NoReset s (s.cfg.pollCap + 1)) :
    writeTrace s.cfg.pollCap (startRxByte (elapse s)) = [s.respAddr s.rxidx.toNat] ∧
      readTrace s.cfg.pollCap (startRxByte (elapse s)) = [] := by
  set a := startRxByte (elapse s) with ha
  have hra : NoReset a s.cfg.pollCap := hr.start (f := startRxByte) fun _ => ⟨rfl, rfl⟩
  have hport : ∀ j < s.cfg.pollCap, memPort (ticks j a) =
      if s.cfg.pollCap ≤ j + 1 then .write (s.respAddr s.rxidx.toNat) s.cfg.sentHi else .none := by
    intro j hj
    obtain ⟨sh, bc, e, hl⟩ := beginsWithWaitHigh_rxByte.low hdead hr hj
    have hst : (ticks j a).st = .rxWaitHigh := by rw [ha, e]; rfl
    have hrst : (ticks j a).input.rst = false := by
      rw [input_eq_inputAt, inputAt_ticks]
      exact hra _ (by omega)
    have hto : timesOut (ticks j a) = decide (s.cfg.pollCap ≤ j + 1) := by
      rw [timesOut, hst, ha, hl, e]
      simp [State.lastPoll]
    have haddr : (ticks j a).respAddr (ticks j a).rxidx.toNat = s.respAddr s.rxidx.toNat := by
      rw [ha, e]
      simp [State.respAddr, State.wrap]
    have hcfg : (ticks j a).cfg = s.cfg := by rw [ha, e]; simp
    simp only [memPort, hrst, hst, hto, haddr, hcfg, decide_eq_true_eq, Bool.false_eq_true, if_false]
  obtain ⟨n, hn⟩ : ∃ n, s.cfg.pollCap = n + 1 := ⟨s.cfg.pollCap - 1, by have := s.one_le_pollCap; omega⟩
  obtain ⟨hread, hwrite⟩ := trace_nil (s := a) (k := n) fun j hj => by
    rw [hport j (by omega), if_neg (by omega)]
  have hlast : memPort (ticks n a) = .write (s.respAddr s.rxidx.toNat) s.cfg.sentHi := by
    rw [hport n (by omega), if_pos (by omega)]
  rw [hn, writeTrace_add, readTrace_add, hread, hwrite, writeTrace_succ, readTrace_succ, hlast]
  exact ⟨rfl, rfl⟩

/-- Settles O28: on a released line a byte's run, whatever the waveform, and on a driven one its first wait. -/
theorem rxByteStoresOneByte : Obligations.RxByteStoresOneByte := by
  intro s w hr a
  have hb : s.bitTicks = 2 * s.cfg.pollCap + s.sampleDelay := rfl
  have hra : NoReset a (8 * s.bitTicks) := by
    rw [Nat.add_comm] at hr
    exact hr.start (f := startRxByte) fun _ => ⟨rfl, rfl⟩
  cases hd : s.dir with
  | input =>
    obtain ⟨k, v, hk, hrun⟩ := exists_byteRun 7 (s := a) rfl hd rfl rfl hra
    have hpos := hrun.pos
    have hbound : k ≤ 8 * s.bitTicks := hk
    obtain ⟨hread, hwrite⟩ := hrun.trace (hra.mono hbound)
    have hrst : (ticks (k - 1) a).input.rst = false := by
      rw [input_eq_inputAt, inputAt_ticks]
      exact hra _ (by omega)
    obtain ⟨v', htick, hv'⟩ := tick_of_rxByteEnds hrst hrun.lastTick
    have hend : ticks k a = nextByte (store v' (elapse (ticks (k - 1) a))) := by
      rw [← htick, ← ticks_succ', Nat.sub_add_cancel hpos]
    have hlater : Receiving a k (elapse (ticks (k - 1) a)) := by
      obtain ⟨st, c, sh, bc, hst, e⟩ := hrun.during (k - 1) (by omega)
      refine ⟨st, c, sh, bc, hst, ?_⟩
      rw [e, elapse_withBits, elapse_inPhase, ← elapseN_succ', Nat.sub_add_cancel hpos]
    obtain ⟨hstored, hp⟩ := hlater.byteStored_start (v := v') hd
    have hcfg : (ticks (k - 1) a).cfg = s.cfg := (hrun.during (k - 1) (by omega)).cfg
    rw [← hend] at hstored hp
    rw [hcfg] at hv'
    exact ⟨v', k, exec_rxByte_of_byteRun w hrun hbound (hr.mono (by omega)), hpos, hbound, hwrite, hread, hstored, hp, hv'⟩
  | output =>
    have hdead : s.dir = .output ∨ ∀ j < s.cfg.pollCap, s.wireAt (1 + j) = false := .inl hd
    have hone := s.one_le_pollCap
    have hrc : NoReset s (s.cfg.pollCap + 1) := hr.mono (by omega)
    obtain ⟨hwrite, hread⟩ := trace_dead hdead hrc
    obtain ⟨hstored, hp⟩ := beginsWithWaitHigh_rxByte.ends hdead hrc
    obtain ⟨sh, bc, e, hl⟩ := beginsWithWaitHigh_rxByte.low hdead hrc (j := s.cfg.pollCap - 1) (by omega)
    exact ⟨s.cfg.sentHi, s.cfg.pollCap,
      congrArg Host.Outcome.next (beginsWithWaitHigh_rxByte.run hdead hrc (by omega)), hone, by omega, hwrite, hread,
      hstored, hp, .inl ⟨by rw [e]; rfl, hl, rfl⟩⟩

/-- The byte on the wire as the levels of its image, character by character (R72, R79). -/
theorem wireAt_byteImage {s : State} {v : Byte} {f : Nat}
    (h : ∀ i < 32, ∀ j < s.t, (s.inputAt (f + s.t * i + j)).extLow = !(byteImage v).getD i true) {i j : Nat} (hi : i ≤ 7)
    (hj : j < s.period) : s.wireAt (f + s.period * i + j) = decide (s.low (v.getLsbD (7 - i)) ≤ j) := by
  obtain ⟨q, x, hq, hx, rfl⟩ : ∃ q x, q < 4 ∧ x < s.t ∧ j = s.t * q + x :=
    ⟨j / s.t, j % s.t, Nat.div_lt_of_lt_mul (by rw [State.period] at hj; omega), Nat.mod_lt j s.one_le_t,
      (Nat.div_add_mod j s.t).symm⟩
  have hslot : f + s.period * i + (s.t * q + x) = f + s.t * (4 * i + q) + x := by
    rw [State.period]
    ring
  have hdiv : (4 * i + q) / 4 = i := by omega
  have hmod : (4 * i + q) % 4 = q := by omega
  rw [State.wireAt, hslot, h _ (by omega) _ hx, Bool.not_not, byteImage_getD v (by omega), hdiv, hmod,
    symbolImage_getD s _ hq hx]

/-- Settles O29: the run of a byte on its own image, from the silence on. -/
theorem rxByteReadsItsImage : Obligations.RxByteReadsItsImage := by
  intro s v w f hd hcap hf hfc hr hsilent himage
  have hpos := s.one_le_t
  have hper : s.period = 4 * s.t := rfl
  have hsd : s.sampleDelay = 2 * s.t := rfl
  have hb : s.bitTicks = 2 * s.cfg.pollCap + s.sampleDelay := rfl
  set a := startRxByte (elapse s) with ha
  have hin : ∀ j, a.inputAt j = s.inputAt (1 + j) := fun j => inputAt_elapseN 1 s j
  have hwire : ∀ j, a.wireAt j = s.wireAt (1 + j) := wireAt_elapseN 1 s
  have hra : NoReset a (f + s.period * 7 + s.sampleDelay + 1) := by
    rw [Nat.add_assoc, Nat.add_comm] at hr
    exact (hr.start (f := startRxByte) fun _ => ⟨rfl, rfl⟩).mono (by omega)
  have hsymbols : ∀ i ≤ 7, ∀ j < a.period, a.wireAt (f + a.period * i + j) = decide (a.low (v.getLsbD (7 - i)) ≤ j) :=
    fun i hi j hj => wireAt_byteImage (s := a) (fun i hi j hj => by
      rw [hin, ← Nat.add_assoc, ← Nat.add_assoc]
      exact himage i hi j hj) hi hj
  have hrun := byteRun_reads 7 (s := a) (f := f) (h := 0) rfl hd rfl rfl (by omega) a.one_le_pollCap
    (by show f - 0 - 1 < s.cfg.pollCap; omega) (fun j hj => absurd hj (Nat.not_lt_zero j))
    (fun j _ hj => by rw [hwire, State.wireAt, hsilent j hj]; rfl) (fun i => v.getLsbD (7 - i)) hsymbols hcap hra
  have hv : shiftedIn a.shreg (fun i => v.getLsbD (7 - i)) (7 + 1) = v := shiftedIn_byte v
  rw [hv] at hrun
  obtain ⟨t, ht, hend⟩ := hrun.ends
  obtain ⟨hstored, hp⟩ := ht.byteStored_start (v := v) hd
  rw [← hend] at hstored hp
  have hk : 1 + (f + a.period * 7 + a.sampleDelay + 1) = 1 + f + 7 * s.period + s.sampleDelay + 1 := by
    change 1 + (f + s.period * 7 + s.sampleDelay + 1) = _
    omega
  rw [hk] at hp
  exact ⟨_, exec_rxByte_of_byteRun w hrun (by change f + s.period * 7 + s.sampleDelay + 1 ≤ _; omega)
    (hr.mono (by change 1 + (f + s.period * 7 + s.sampleDelay + 1) ≤ _; omega)), hstored, hp⟩

end Sys2Proof.Machine

/-! ## Proofs: whole transactions (`spec/43_transaction.md`)

What a transaction leaves when the run of its response bytes is known; that this run is the operation's; and the run of the
bytes on a dead line and on a conforming reply, by induction over the bytes. -/

namespace Sys2Proof.Machine

/-! ### From the acceptance to the first response byte -/

/-- What the transmit phase leaves for the receive phase. -/
theorem transmit_frame (a : State) : SameOperands a (afterStop a.transmitted) ∧ SameCaller a (afterStop a.transmitted) ∧
    (afterStop a.transmitted).txidx = a.n ∧ (afterStop a.transmitted).ieSaved = a.ieSaved ∧
    (afterStop a.transmitted).mem = a.mem ∧ Passed a.transmitTicks a (afterStop a.transmitted) := by
  have hk : 0 < a.transmitTicks := by rw [State.transmitTicks]; omega
  obtain ⟨-, hops, hie, hcaller, -, -, hp⟩ :=
    sending_frame hk a (stopEnd a) .input 1 0 0 true a.n (t := a.transmitted) rfl
  obtain ⟨hops', hcaller', htx', hsaved', hp'⟩ := afterStop_frame a.transmitted
  exact ⟨hops.trans hops', hcaller.trans hcaller', htx', hsaved'.trans hie.ieSaved, by simp, hp.trans hp'⟩

/-- The first tick of the receive phase, counted from the acceptance (R133). -/
theorem accept_transmitTicks (s : State) (n m : Byte) :
    1 + (accept n m (elapse s)).transmitTicks = 2 + 32 * s.t * n.toNat + s.t + s.cfg.stopTail := by
  have hper : (accept n m (elapse s)).transmitTicks = 1 + 8 * (4 * s.t) * n.toNat + s.t + s.cfg.stopTail := rfl
  rw [hper]
  ring

/-- The receive phase begins after the ticks R133 gives. -/
theorem passed_accept_afterStop (s : State) (n m : Byte) :
    Passed (2 + 32 * s.t * n.toNat + s.t + s.cfg.stopTail) s (afterStop (accept n m (elapse s)).transmitted) := by
  obtain ⟨-, -, -, -, -, hp⟩ := transmit_frame (accept n m (elapse s))
  rw [← accept_transmitTicks s n m]
  exact Passed.trans ((passed_elapse s).congr rfl rfl rfl rfl rfl rfl : Passed 1 s (accept n m (elapse s))) hp

/-! ### From the first response byte to the end -/

/-- The run of the response bytes has one length: it ends in the first tick of an idle block. -/
theorem BytesRun.length_unique {s : State} {r k k' : Nat} {w w' : Nat → Byte} (h : BytesRun s r k w)
    (h' : BytesRun s r k' w') : k = k' := by
  have hle : ∀ {i j v v'}, BytesRun s r i v → BytesRun s r j v' → i ≤ j := fun {i j _ _} hi hj => by
    by_contra hlt
    exact busy_iff.1 (hi.busy j (by omega)) hj.idle
  exact Nat.le_antisymm (hle h h') (hle h' h)

section
variable {s a : State} {n m : Byte} (ha : a = accept n m (elapse s)) {k : Nat} {w : Nat → Byte}
  (hrun : BytesRun (afterStop a.transmitted) m.toNat k w)
include ha hrun

/-- The operation runs to the end of its response bytes (R128). -/
theorem exec_transact_of_bytesRun (hs : s.st = .idle) (h : NoReset s (1 + s.transactTicks n m)) :
    exec (.transact n m) s = .next (ticks k (afterStop a.transmitted)) := by
  obtain ⟨htx, k', w', -, hexec, hrun'⟩ := exists_transactRun ha hs h
  rw [hexec, ticks_add, htx.ends, hrun.length_unique hrun']

/-- What the operation leaves (R128, R131, R133). -/
theorem transact_frame : Passed (2 + 32 * s.t * n.toNat + s.t + s.cfg.stopTail + k) s (ticks k (afterStop a.transmitted)) ∧
    (ticks k (afterStop a.transmitted)).ie = s.ie ∧ (ticks k (afterStop a.transmitted)).ieSaved = s.ie ∧
    (ticks k (afterStop a.transmitted)).n = n ∧ (ticks k (afterStop a.transmitted)).m = m ∧
    (ticks k (afterStop a.transmitted)).txidx = n ∧ SameCaller s (ticks k (afterStop a.transmitted)) := by
  subst ha
  obtain ⟨hops, hcaller, htx, hsaved, -, -⟩ := transmit_frame (accept n m (elapse s))
  have hca : SameCaller s (accept n m (elapse s)) := ⟨rfl, rfl, rfl, rfl, rfl, rfl, rfl, rfl, rfl⟩
  exact ⟨(passed_accept_afterStop s n m).trans hrun.passed, hrun.ie.trans hsaved, hrun.ieSaved.trans hsaved, hrun.operands.n.trans hops.n,
    hrun.operands.m.trans hops.m, hrun.txidx.trans htx, (hca.trans hcaller).trans hrun.caller⟩

/-- The response buffer holds the bytes received (R114). -/
theorem transact_bytes (hm : MemOk s) {j : Nat} (hj : j < m.toNat) :
    memRead (ticks k (afterStop a.transmitted)) (s.wrap (s.portRespBase + j)) = w j := by
  subst ha
  have hfirst : (afterStop (accept n m (elapse s)).transmitted).rxidx = 0 := afterStop_rxidx (transmitted_rxidx _)
  have haddr := accept_respAddr n m (elapse s) j
  have hmu : MemOk (afterStop (accept n m (elapse s)).transmitted) := by
    obtain ⟨-, -, -, -, hmem, hp⟩ := transmit_frame (accept n m (elapse s))
    exact storeInvariant_memOk.congr hm hp.cfg hmem
  have hread := hrun.bytes hmu j hj
  rw [hfirst, afterStop_respAddr, transmitted_respAddr] at hread
  change memRead _ ((accept n m (elapse s)).respAddr (0 + j)) = _ at hread
  rw [Nat.zero_add, haddr] at hread
  exact hread

end

/-- Settles O32: the transmit phase, then the response bytes on any waveform. -/
theorem transactAlwaysEnds : Obligations.TransactAlwaysEnds := by
  intro s n m hs h
  obtain ⟨-, r, w, hle, -, hrun⟩ := exists_transactRun (a := accept n m (elapse s)) rfl hs h
  obtain ⟨hp, hie, hsaved, hn, hm, htx, hcaller⟩ := transact_frame rfl hrun
  refine ⟨_, r, exec_transact_of_bytesRun rfl hrun hs h, hle, fun hm0 => ?_, hp, hrun.idle, hrun.done, hrun.dir, hie,
    hsaved, hn, hm, htx, hcaller⟩
  rw [hm0] at hle
  exact Nat.le_zero.1 (hle.trans_eq (Nat.zero_mul _))

/-- Settles O37: the tick of the port start is the acceptance, and every later step is a tick of the operation. -/
theorem portStartRunsTransact : Obligations.PortStartRunsTransact := by
  intro s cb rb n m ho hs hact h
  set s' : State := { s with portCmdBase := cb, portRespBase := rb } with hs'
  have h' : NoReset s' (1 + s'.transactTicks n m) := fun j hj => h j hj
  obtain ⟨htx, r, w, -, hexec, hrun⟩ := exists_transactRun (s := s') (a := accept n m (elapse s')) rfl hs h'
  have htick : tick s = accept n m (elapse s') := tick_start (h 0 (by omega)) hs hact
  set a := accept n m (elapse s') with ha
  refine ⟨a.transmitTicks + r + 1, ticks (a.transmitTicks + r) a, ?_, ?_, hexec⟩
  · rw [run_core _ fun j _ => (ticks_ops j s).trans ho, ticks_succ, htick]
  · rw [ticks_add, htx.ends]
    exact hrun.done

end Sys2Proof.Machine

namespace Sys2Proof.Machine

/-! ### The response bytes, each with a known run -/

/-- The tick in which the next of `r` response bytes begins (R110, R126). -/
structure ByteBegins (s : State) (r : Nat) : Prop where
  st : s.st = .rxWaitHigh
  dir : s.dir = .input
  cnt : s.cnt = 0
  shreg : s.shreg = 0
  bitcnt : s.bitcnt = 0
  left : s.rxidx.toNat + r = s.m.toNat

/-- After the stop bit all M bytes are to come (R126). -/
theorem byteBegins_afterStop {s : State} (hd : s.dir = .input) (hm : s.m ≠ 0) : ByteBegins (afterStop s) s.m.toNat := by
  rw [afterStop, if_neg hm]
  exact ⟨rfl, hd, rfl, rfl, rfl, Nat.zero_add _⟩

/-- After a byte that is not the last the next one begins (R114). -/
theorem ByteRun.next {s : State} {k r : Nat} {v : Byte} (h : ByteRun s k v) (hs : ByteBegins s (r + 2)) :
    ByteBegins (ticks k s) (r + 1) ∧ Passed k s (ticks k s) := by
  obtain ⟨t, ht, heq⟩ := h.ends
  obtain ⟨hstored, hp⟩ := ht.byteStored v h.pos hs.dir
  rw [← heq] at hstored hp
  have hlt := s.m.isLt
  have hleft := hs.left
  have hlast : s.lastByte = false := by
    rw [State.lastByte, beq_eq_false_iff_ne]
    omega
  obtain ⟨hst, hc, hsh, hb, hrx, -, hd, -⟩ := hstored.next hlast
  refine ⟨⟨hst, hd.trans hs.dir, hc, hsh, hb, ?_⟩, hp⟩
  have hnext : (s.rxidx + 1).toNat = s.rxidx.toNat + 1 := by
    rw [BitVec.toNat_add]
    exact Nat.mod_eq_of_lt (by simp; omega)
  rw [hrx, hnext, hstored.operands.m, ← hleft]
  ring

/-- If byte `i` takes `len i` ticks and is `v i`, the bytes are received one after another, with no tick between (R126). -/
theorem bytesRun_of_byteRun (r : Nat) {s : State} {len : Nat → Nat} {v : Nat → Byte} (hs : ByteBegins s (r + 1))
    (hr : NoReset s (∑ i ∈ Finset.range (r + 1), len i))
    (hbyte : ∀ i ≤ r, ∀ (t : State) (q : Nat), ByteBegins t q → Passed (∑ j ∈ Finset.range i, len j) s t →
      NoReset t (len i) → ByteRun t (len i) (v i)) :
    BytesRun s (r + 1) (∑ i ∈ Finset.range (r + 1), len i) v := by
  induction r generalizing s len v with
  | zero =>
    rw [Finset.sum_range_one] at hr ⊢
    exact .one (hbyte 0 (Nat.le_refl 0) s _ hs (passed_elapseN 0 s) hr) hr hs.dir hs.left rfl
  | succ r ih =>
    rw [Finset.sum_range_succ', Nat.add_comm _ (len 0)] at hr ⊢
    have hr0 := hr.mono (Nat.le_add_right (len 0) _)
    have hfirst := hbyte 0 (Nat.zero_le _) s _ hs (passed_elapseN 0 s) hr0
    obtain ⟨hnext, hp⟩ := hfirst.next hs
    refine .cons hfirst hr0 hs.dir hs.left rfl (ih hnext (hr.passed hp) fun i hi t q ht hpt => ?_)
    refine hbyte (i + 1) (Nat.succ_le_succ hi) t q ht ?_
    rw [Finset.sum_range_succ', Nat.add_comm _ (len 0)]
    exact hp.trans hpt

/-- The line later on. -/
theorem Passed.wireAt {k : Nat} {s t : State} (h : Passed k s t) (j : Nat) : t.wireAt j = s.wireAt (k + j) := by
  rw [State.wireAt, h.inputAt, State.wireAt]

/-- No reset in a transaction, and so none in the first ticks of its receive phase. -/
theorem noReset_accept_afterStop {s : State} {n m : Byte} (h : NoReset s (1 + s.transactTicks n m)) {k : Nat}
    (hk : k ≤ m.toNat * (8 * s.bitTicks)) : NoReset (afterStop (accept n m (elapse s)).transmitted) k := by
  refine NoReset.passed (h.mono ?_) (passed_accept_afterStop s n m)
  rw [← accept_transmitTicks s n m, transactTicks_eq, Nat.add_assoc]
  exact Nat.add_le_add_left (Nat.add_le_add_left hk _) 1

/-! ### A dead line -/

/-- A byte on a line that stays high: its wait for low times out (R116). -/
theorem ByteBegins.byteRun_high {s : State} {r : Nat} (hs : ByteBegins s r)
    (hw : ∀ j < 1 + s.cfg.pollCap, s.wireAt j = true) (hr : NoReset s (1 + s.cfg.pollCap)) :
    ByteRun s (1 + s.cfg.pollCap) s.cfg.sentLo := by
  have hone := s.one_le_pollCap
  have hlow : ∀ j < 0, s.wireAt j = false := fun j hj => absurd hj (Nat.not_lt_zero j)
  have hhigh : s.wireAt 0 = true := hw 0 (by omega)
  have hhi : ∀ j < s.cfg.pollCap, s.wireAt (0 + 1 + j) = true := fun j hj => hw _ (by omega)
  have hrun := bitRun_neverFell hs.st hs.dir hs.cnt hone hlow hhigh hhi (by rwa [Nat.zero_add])
  have hend := ticks_bit_neverFell hs.st hs.dir hs.cnt hone hlow hhigh hhi (by rwa [Nat.zero_add])
  rw [Nat.zero_add] at hrun hend
  refine hrun.byte_neverFell hend ?_ (hw _ (by omega))
  have hrose : ticks 1 s = startWaitLow (elapse s) :=
    ticks_waitHigh_succeeds hs.st hs.dir hs.cnt hone hlow hhigh (hr.mono (by omega))
  obtain ⟨c, hc⟩ : ∃ c, s.cfg.pollCap = 1 + c := ⟨s.cfg.pollCap - 1, by omega⟩
  rw [hc, Nat.add_sub_cancel_left, Nat.add_sub_cancel_left, ticks_add, hrose,
    ticks_waitLow_failing (s := startWaitLow (elapse s)) rfl hs.dir rfl (k := c) (by show c < s.cfg.pollCap; omega)
      (fun j hj => (wireAt_elapseN 1 s j).trans (hw _ (by omega))) ((hr.mono (by omega)).start fun _ => ⟨rfl, rfl⟩),
    elapseN_startWaitLow]
  rfl

/-- A byte on a line that stays low: its wait for high times out (R115). -/
theorem ByteBegins.byteRun_low {s : State} {r : Nat} (hs : ByteBegins s r)
    (hw : ∀ j < s.cfg.pollCap, s.wireAt j = false) (hr : NoReset s s.cfg.pollCap) :
    ByteRun s s.cfg.pollCap s.cfg.sentHi := by
  have hone := s.one_le_pollCap
  exact (bitRun_neverRose hs.st hs.dir hs.cnt hw hr).byte_neverRose
    (ticks_waitHigh_timesOut hs.st hs.dir hs.cnt hw hr)
    (ticks_waitHigh_failing hs.st hs.dir hs.cnt (by omega) (fun j hj => hw j (by omega)) (hr.mono (by omega)))
    (hw _ (by omega))

/-- Bytes that all take `k` ticks and are all `v`, the line being at one level for as long. -/
theorem bytesRun_dead {s : State} {k : Nat} {v : Byte} {level : Bool} (hd : s.dir = .input)
    (hw : ∀ j < s.m.toNat * k, (afterStop s).wireAt j = level) (hr : NoReset (afterStop s) (s.m.toNat * k))
    (hbyte : ∀ (t : State) (q : Nat), ByteBegins t q → t.cfg = s.cfg → (∀ j < k, t.wireAt j = level) → NoReset t k →
      ByteRun t k v) : BytesRun (afterStop s) s.m.toNat (s.m.toNat * k) fun _ => v := by
  obtain ⟨hm, he⟩ | ⟨hm, -⟩ := afterStop_cases s
  · rw [he, hm]
    simpa using bytesRun_finish s fun _ => v
  · obtain ⟨r, hr'⟩ := Nat.exists_eq_succ_of_ne_zero fun h => hm (BitVec.eq_of_toNat_eq h)
    have hbegin := byteBegins_afterStop hd hm
    obtain ⟨-, -, -, -, hp⟩ := afterStop_frame s
    have hsum : ∀ i, ∑ _j ∈ Finset.range i, k = i * k := fun i => by simp
    rw [hr'] at hw hr hbegin ⊢
    rw [← hsum] at hr ⊢
    refine bytesRun_of_byteRun r (len := fun _ => k) hbegin hr fun i hi t q ht hpt hrt =>
      hbyte t q ht (hpt.cfg.trans hp.cfg) (fun j hj => ?_) hrt
    rw [hsum] at hpt
    rw [hpt.wireAt]
    have hle : (i + 1) * k ≤ (r + 1) * k := Nat.mul_le_mul_right k (by omega)
    rw [Nat.succ_mul] at hle
    exact hw _ (by show i * k + j < (r + 1) * k; omega)

/-- A transaction whose receive phase is on a dead line (R128, R133). -/
theorem exec_transact_dead {s : State} {n m : Byte} {k : Nat} {v : Byte} {level : Bool} (hs : s.st = .idle)
    (h : NoReset s (1 + s.transactTicks n m)) (hmem : MemOk s) (hk : k ≤ 8 * s.bitTicks)
    (hw : ∀ j < m.toNat * k, s.wireAt (2 + 32 * s.t * n.toNat + s.t + s.cfg.stopTail + j) = level)
    (hbyte : ∀ (t : State) (q : Nat), ByteBegins t q → t.cfg = s.cfg → (∀ j < k, t.wireAt j = level) → NoReset t k →
      ByteRun t k v) :
    ∃ t, exec (.transact n m) s = .next t ∧
      Passed (2 + 32 * s.t * n.toNat + s.t + s.cfg.stopTail + m.toNat * k) s t ∧
      ∀ j < m.toNat, memRead t (s.wrap (s.portRespBase + j)) = v := by
  have hm : (accept n m (elapse s)).transmitted.m = m := transmitted_m _
  have hcfg : (accept n m (elapse s)).transmitted.cfg = s.cfg := transmitted_cfg _
  have hrun := bytesRun_dead (k := k) (v := v) (level := level) (transmitted_dir (accept n m (elapse s)))
    (fun j hj => ((passed_accept_afterStop s n m).wireAt j).trans (hw j (hm ▸ hj)))
    (noReset_accept_afterStop h (by rw [hm]; exact Nat.mul_le_mul_left _ hk)) (hcfg ▸ hbyte)
  rw [hm] at hrun
  exact ⟨_, exec_transact_of_bytesRun rfl hrun hs h, (transact_frame rfl hrun).1,
    fun j hj => transact_bytes rfl hrun hmem hj⟩

/-- Settles O36: every byte runs alike, into the same timeout. -/
theorem transactOnADeadLine : Obligations.TransactOnADeadLine := by
  intro s n m hs h hmem r
  have hone := s.one_le_pollCap
  have hb : s.bitTicks = 2 * s.cfg.pollCap + s.sampleDelay := rfl
  refine ⟨fun hw => exec_transact_dead hs h hmem (by omega) hw fun t q ht hc hwt hrt => ?_,
    fun hw => exec_transact_dead hs h hmem (by omega) hw fun t q ht hc hwt hrt => ?_⟩
  · rw [← hc] at hwt hrt ⊢
    exact ht.byteRun_high hwt hrt
  · rw [← hc] at hwt hrt ⊢
    exact ht.byteRun_low hwt hrt

end Sys2Proof.Machine

namespace Sys2Proof.Machine

/-! ### A conforming reply -/

/-- The byte received depends on its bits only. -/
theorem shiftedIn_congr (sh : Byte) {d d' : Nat → Bool} {k : Nat} (h : ∀ i < k, d i = d' i) :
    shiftedIn sh d k = shiftedIn sh d' k := by
  induction k with
  | zero => rfl
  | succ k ih => rw [shiftedIn, shiftedIn, ih fun i hi => h i (by omega), h k (Nat.lt_succ_self k)]

/-- Eight bits of the wire make a byte of the sequence (R118). -/
theorem shiftedIn_wireBit (w : List Byte) (i : Nat) : shiftedIn 0 (fun c => wireBit w (8 * i + c)) 8 = w.getD i 0 := by
  rw [← shiftedIn_byte (w.getD i 0)]
  refine shiftedIn_congr 0 fun c hc => ?_
  have hdiv : (8 * i + c) / 8 = i := by omega
  have hmod : (8 * i + c) % 8 = c := by omega
  rw [wireBit, hdiv, hmod]

/-- Bytes in the order of the wire, the first fall at tick `f` (R118, from the first tick of the receive phase). -/
structure OnTheWire (s : State) (f : Nat) (w : List Byte) : Prop where
  silent : ∀ j < f, s.wireAt j = true
  symbols : ∀ i < 8 * w.length, ∀ j < s.period, s.wireAt (f + s.period * i + j) = decide (s.low (wireBit w i) ≤ j)

/-- The reply as the receive phase sees it. -/
theorem ConformingReply.onTheWire {s t : State} {r f : Nat} {w : List Byte} (h : ConformingReply s r f w)
    (hp : Passed r s t) : OnTheWire t f w := by
  have hper : t.period = s.period := by simp [State.period, State.t, hp.cfg]
  have hlow : ∀ d, t.low d = s.low d := fun d => by simp [State.low, State.low1, State.low0, State.t, hp.cfg]
  refine ⟨fun j hj => ?_, fun i hi j hj => ?_⟩
  · rw [State.wireAt, hp.inputAt, h.silent j hj]
    rfl
  · rw [hper] at hj
    rw [State.wireAt, hp.inputAt, hper, hlow, ← Nat.add_assoc, ← Nat.add_assoc, h.symbols i hi j hj, ← decide_not]
    exact decide_eq_decide.2 Nat.not_lt

/-- The ticks of byte `i` of a reply: the first one waits for the first fall, every other begins at the sample of the last
bit before it (R117, R118). -/
def State.replyTicks (s : State) (f : Nat) : Nat → Nat
  | 0 => f + s.period * 7 + s.sampleDelay + 1
  | _ + 1 => 8 * s.period

theorem sum_replyTicks (s : State) (f i : Nat) :
    ∑ j ∈ Finset.range (i + 1), s.replyTicks f j = f + s.period * (8 * i + 7) + s.sampleDelay + 1 := by
  rw [Finset.sum_range_succ']
  simp only [State.replyTicks, Finset.sum_const, Finset.card_range, smul_eq_mul]
  ring

section
variable {s t : State} {f q i : Nat} {w : List Byte} (hw : OnTheWire s f w) (hcap : 2 * s.t - 1 ≤ s.cfg.pollCap)
  (hi : i < w.length) (ht : ByteBegins t q) (hr : NoReset t (s.replyTicks f i))
  (hp : Passed (∑ j ∈ Finset.range i, s.replyTicks f j) s t)
include hw hcap hi ht hr hp

/-- Byte `i` of a reply is received as it was sent (R118): the wait for high ends with the high part of the symbol before,
the fall is the symbol's. -/
theorem ByteBegins.byteRun_reply (hf1 : 1 ≤ f) (hfc : f ≤ s.cfg.pollCap) :
    ByteRun t (s.replyTicks f i) (w.getD i 0) := by
  have hpos := s.one_le_t
  have hone := s.one_le_pollCap
  have hper : s.period = 4 * s.t := rfl
  have hsd : s.sampleDelay = 2 * s.t := rfl
  have hcfg := hp.cfg
  have hpt : t.period = s.period := by simp [State.period, State.t, hcfg]
  have hst : t.sampleDelay = s.sampleDelay := by simp [State.sampleDelay, State.t, hcfg]
  have hlt : ∀ d, t.low d = s.low d := fun d => by simp [State.low, State.low1, State.low0, State.t, hcfg]
  have htt : t.t = s.t := by simp [State.t, hcfg]
  have hb : t.bitcnt.toNat + 7 = 7 := by rw [ht.bitcnt]; rfl
  have hbyte : shiftedIn t.shreg (fun c => wireBit w (8 * i + c)) 8 = w.getD i 0 := by
    rw [ht.shreg]
    exact shiftedIn_wireBit w i
  rw [← hbyte]
  cases i with
  | zero =>
    have hwt : ∀ j, t.wireAt j = s.wireAt j := fun j => by rw [hp.wireAt]; simp
    have hrun := byteRun_reads 7 (f := f) (h := 0) ht.st ht.dir ht.cnt hb hf1 t.one_le_pollCap (by rw [hcfg]; omega)
      (fun j hj => absurd hj (Nat.not_lt_zero j)) (fun j _ hj => (hwt j).trans (hw.silent j hj))
      (fun c => wireBit w (8 * 0 + c)) (fun c hc j hj => by
        rw [hpt] at hj
        rw [hwt, hpt, hlt, hw.symbols c (by omega) j hj, Nat.mul_zero, Nat.zero_add])
      (by rw [htt, hcfg]; exact hcap) (by rw [hpt, hst]; exact hr)
    rwa [hpt, hst] at hrun
  | succ i =>
    rw [sum_replyTicks] at hp
    set d := wireBit w (8 * i + 7) with hd
    have hd1 := s.one_le_low d
    have hd3 : s.low d ≤ 3 * s.t := by cases d <;> simp [State.low, State.low0, State.low1]; omega
    have hbefore : ∀ j < 2 * s.t - 1, t.wireAt j = decide (s.low d ≤ s.sampleDelay + 1 + j) := fun j hj => by
      have := hw.symbols (8 * i + 7) (by omega) (s.sampleDelay + 1 + j) (by omega)
      rw [hp.wireAt, hd, ← this]
      congr 1
      omega
    have hgap : s.sampleDelay + 1 + (2 * s.t - 1) = s.period := by omega
    have hlen : 2 * s.t - 1 + s.period * 7 + s.sampleDelay + 1 = s.replyTicks f (i + 1) := by
      rw [State.replyTicks]
      omega
    have hrun := byteRun_reads 7 (f := 2 * s.t - 1) (h := s.low d - (s.sampleDelay + 1)) ht.st ht.dir ht.cnt hb
      (by omega) (by rw [hcfg]; omega) (by rw [hcfg]; omega)
      (fun j hj => by rw [hbefore j (by omega), decide_eq_false_iff_not]; omega)
      (fun j hj hj' => by rw [hbefore j hj', decide_eq_true_eq]; omega)
      (fun c => wireBit w (8 * (i + 1) + c)) (fun c hc j hj => by
        rw [hpt] at hj
        have hslot : f + s.period * (8 * i + 7) + s.sampleDelay + 1 + (2 * s.t - 1 + s.period * c + j) =
            f + s.period * (8 * (i + 1) + c) + j := by
          calc f + s.period * (8 * i + 7) + s.sampleDelay + 1 + (2 * s.t - 1 + s.period * c + j)
              = f + s.period * (8 * i + 7 + c) + (s.sampleDelay + 1 + (2 * s.t - 1)) + j := by ring
            _ = f + s.period * (8 * (i + 1) + c) + j := by rw [hgap]; ring
        rw [hp.wireAt, hpt, hlt, hslot, hw.symbols _ (by omega) j hj])
      (by rw [htt, hcfg]; exact hcap) (by rw [hpt, hst, hlen]; exact hr)
    rwa [hpt, hst, hlen] at hrun

end

/-- Settles O35: byte after byte, each in the symbols the sample of the byte before leaves it in. -/
theorem transactReceivesConformingReply : Obligations.TransactReceivesConformingReply := by
  intro s n m w f hs h hmem hcap hm0 hlen hconf
  obtain ⟨r, hr⟩ : ∃ r, m.toNat = r + 1 := Nat.exists_eq_succ_of_ne_zero hm0.ne'
  set u := afterStop (accept n m (elapse s)).transmitted with hu
  have hp : Passed _ s u := passed_accept_afterStop s n m
  have hw := hconf.onTheWire hp
  have hf1 := hconf.afterBegin
  have hfc := hconf.withinCap
  have hcfg : u.cfg = s.cfg := hp.cfg
  have hm : (accept n m (elapse s)).transmitted.m = m := transmitted_m _
  have hbegin : ByteBegins u (r + 1) := by
    have := byteBegins_afterStop (s := (accept n m (elapse s)).transmitted) (transmitted_dir _)
      (by rw [hm]; rintro rfl; exact absurd hm0 (Nat.lt_irrefl 0))
    rwa [hm, hr] at this
  have hper : u.period = 4 * s.t := by simp [State.period, State.t, hcfg]
  have hsd : u.sampleDelay = 2 * s.t := by simp [State.sampleDelay, State.t, hcfg]
  have hsum : ∑ i ∈ Finset.range (r + 1), u.replyTicks f i = f + 32 * s.t * (m.toNat - 1) + 28 * s.t + 2 * s.t + 1 := by
    rw [sum_replyTicks, hper, hsd, hr, Nat.add_sub_cancel]
    ring
  have hbound : f + 32 * s.t * (m.toNat - 1) + 28 * s.t + 2 * s.t + 1 ≤ m.toNat * (8 * s.bitTicks) := by
    have hpos := s.one_le_t
    have hb : 32 * s.t ≤ 8 * s.bitTicks := by simp only [State.bitTicks, State.sampleDelay]; omega
    have hf : f + 30 * s.t + 1 ≤ 8 * s.bitTicks := by simp only [State.bitTicks, State.sampleDelay]; omega
    have hmul := Nat.mul_le_mul_left r hb
    rw [hr, Nat.add_sub_cancel, Nat.add_mul r 1, Nat.one_mul, Nat.mul_comm (32 * s.t) r]
    omega
  have hrun := bytesRun_of_byteRun r (len := u.replyTicks f) (v := fun i => w.getD i 0) hbegin
    (noReset_accept_afterStop h (hsum ▸ hbound)) fun i hi t q ht hpt hrt =>
      ht.byteRun_reply hw (by rw [hcfg, State.t, hcfg]; exact hcap) (by omega) hrt hpt hf1 (hcfg ▸ hfc)
  rw [hsum, ← hr] at hrun
  exact ⟨_, exec_transact_of_bytesRun rfl hrun hs h, hrun.done, fun j hj => transact_bytes rfl hrun hmem hj,
    (transact_frame rfl hrun).1⟩

end Sys2Proof.Machine

/-! ## Proofs: the relay's frames (`spec/44_host_relay.md`)

A read of command bytes in progress is one poll a tick, of a state that differs from the one at the header only in the
frame and in the ticks passed; what a poll of such a state leaves; and with these the loop's actions and `RELAY_FRAME`. -/

namespace Sys2Proof.Machine

/-! ### What a poll leaves -/

/-- `u` is `s` after `k` ticks, its frame known and the bytes `bytes` in the queue: the state a poll of the read of command
bytes sees. -/
structure ReadsFrame (k base : Nat) (n : Byte) (bytes : List Byte) (s u : State) : Prop where
  frameN : u.frameN = n
  frameCmd : u.frameCmd = base
  hostIn : u.hostIn = bytes
  mem : u.mem = s.mem
  gap : u.gap = s.gapLeft - k
  block : SameBlock s u
  passed : PassedReading k s u

section
variable {k base : Nat} {n : Byte} {bytes : List Byte} {s u : State} (h : ReadsFrame k base n bytes s u)
include h

/-- Whether a poll places, drops or waits, it leaves the block alone (R143, R146). -/
theorem ReadsFrame.poll_frame :
    (relayPoll u).gap = s.gapLeft - k ∧ SameBlock s (relayPoll u) ∧ PassedReading k s (relayPoll u) := by
  obtain ⟨mem, hostIn, relay, e⟩ := exists_relayPoll u
  obtain ⟨hst, hdir, hdone, ⟨hie, hsaved⟩, ⟨h1, h2, h3, h4, h5, h6⟩, ⟨h7, h8, h9, h10⟩⟩ := h.block
  rw [e]
  exact ⟨h.gap, ⟨hst, hdir, hdone, ⟨hie, hsaved⟩, ⟨h1, h2, h3, h4, h5, h6⟩, ⟨h7, h8, h9, h10⟩⟩,
    Passed.congr h.passed rfl rfl rfl rfl rfl rfl⟩

/-- All bytes are there: they are placed in order (R143, R144). -/
theorem ReadsFrame.poll_enough (hn : n.toNat ≤ bytes.length) : CommandPlaced base n bytes s (relayPoll u) := by
  have hlt := n.isLt
  have hlen : (bytes.take n.toNat).length = n.toNat := List.length_take_of_le hn
  have hwrap : ∀ a, u.wrap a = s.wrap a := fun a => by rw [State.wrap, h.passed.cfg, State.wrap]
  have hread : ∀ x, memRead u x = memRead s x := fun x => by rw [memRead, h.mem, memRead]
  rw [relayPoll_of_enough (by rwa [h.frameN, h.hostIn]), h.frameN, h.frameCmd, h.hostIn]
  refine ⟨rfl, rfl, fun hm i hi => ?_, fun x hx => ?_⟩
  · have hwf : Memory.wf u.mem = true := by
      rw [h.mem]
      exact hm.canonical
    have hself := memRead_memWriteList_self (bytes.take n.toNat) (a := base) hwf (by omega) (i := i) (by omega)
    rw [hwrap, List.getD_eq_getElem?_getD, List.getElem?_take_of_lt hi, ← List.getD_eq_getElem?_getD] at hself
    exact hself
  · rw [← hread]
    exact memRead_memWriteList_of_ne _ fun i hi => by
      rw [hwrap]
      exact hx i (by omega)

variable (hn : bytes.length < n.toNat)
include hn

/-- The read timeout has elapsed: the frame is dropped (R146). -/
theorem ReadsFrame.poll_expired (he : u.frameTick + s.cfg.readTimeout ≤ s.now + k) : FrameDropped s (relayPoll u) := by
  rw [relayPoll_of_expired (by rwa [h.frameN, h.hostIn]) (by rw [h.passed.cfg, h.passed.now]; exact he)]
  refine ⟨rfl, ?_, fun x => ?_⟩
  · show u.hostIn.drop _ = []
    rw [h.frameN, h.hostIn]
    exact List.drop_eq_nil_of_le (Nat.le_of_lt hn)
  · rw [memRead, h.mem, memRead]

/-- The read timeout has not elapsed: the relay waits (R143). -/
theorem ReadsFrame.poll_waiting (he : s.now + k < u.frameTick + s.cfg.readTimeout) :
    relayPoll u = { u with relay := .waitCommand } :=
  relayPoll_of_waiting (by rwa [h.frameN, h.hostIn]) (by rw [h.passed.cfg, h.passed.now]; exact he)

end

/-- A poll leaves the caller's side alone but for the relay's place. -/
theorem relayPoll_sameCaller (u : State) : SameCaller u { relayPoll u with relay := u.relay } := by
  obtain ⟨mem, hostIn, relay, e⟩ := exists_relayPoll u
  rw [e]
  exact ⟨rfl, rfl, rfl, rfl, rfl, rfl, rfl, rfl, rfl⟩

/-- A poll keeps the header. -/
theorem FrameBegun.poll {n m : Byte} {s u : State} (h : FrameBegun n m s u) : FrameBegun n m s (relayPoll u) := by
  obtain ⟨mem, hostIn, relay, e⟩ := exists_relayPoll u
  obtain ⟨h1, h2, h3, h4, h5, h6, h7, h8⟩ := h
  rw [e]
  exact ⟨h1, h2, h3, h4, h5, h6, h7, h8⟩

/-! ### One action -/

section
variable {s : State} {b : Bool}

/-- Fewer than two bytes are there: the relay blocks (R142). -/
theorem relayAct_of_few (h : s.relay = .waitHeader) (hfew : s.hostIn.length < 2) : relayAct b s = s := by
  rw [relayAct, h]
  match hin : s.hostIn with
  | [] => rfl
  | [_] => rfl
  | _ :: _ :: _ =>
    rw [hin, List.length_cons, List.length_cons] at hfew
    omega

/-- A header is there (R142, R143). -/
theorem relayAct_of_header {n m : Byte} {rest : List Byte} (h : s.relay = .waitHeader) (hin : s.hostIn = n :: m :: rest) :
    relayAct b s = relayFrame n m { s with hostIn := rest } := by simp only [relayAct, h, hin]

theorem relayAct_of_waitCommand (h : s.relay = .waitCommand) : relayAct b s = relayPoll s := by rw [relayAct, h]

/-- The command is placed: `start` is raised once INTER_GAP has passed (R144, R183). -/
theorem relayAct_of_transact (h : s.relay = .transact) : relayAct b s = if b then relayStart s else s := by
  rw [relayAct, h]

theorem relayAct_of_reply (h : s.relay = .reply) : relayAct b s = relayReply s := by rw [relayAct, h]

end

/-! ### A read in progress -/

/-- A tick of a read in progress is a poll (R143). -/
theorem tick_waitCommand {s : State} (hr : s.input.rst = false) (hst : s.st = .idle) (hrelay : s.relay = .waitCommand)
    (hact : s.readsOn 0) : tick s = relayPoll (elapse s) := by
  rw [tick_idle hr hst]
  rcases hact with hact | hact <;> rw [input_eq_inputAt, hact]
  · exact if_pos hrelay
  · exact relayAct_of_waitCommand hrelay

/-- The state such a poll sees. -/
theorem readsFrame_waitCommand (s : State) : ReadsFrame 1 s.frameCmd s.frameN (s.hostIn ++ s.input.rx) s (elapse s) :=
  ⟨rfl, rfl, rfl, rfl, rfl, ⟨rfl, rfl, rfl, ⟨rfl, rfl⟩, ⟨rfl, rfl, rfl, rfl, rfl, rfl⟩, ⟨rfl, rfl, rfl, rfl⟩⟩,
    (passed_elapse s).congr rfl rfl rfl rfl rfl rfl⟩

/-- Settles O12: the tick is a poll, and each clause one of its cases. -/
theorem commandReadEndsOrWaits : Obligations.CommandReadEndsOrWaits := by
  intro s ho hst hr hrelay hact bytes
  have hstep : step s = .next (relayPoll (elapse s)) := by rw [step_of_quiet ho, tick_waitCommand hr hst hrelay hact]
  have h := readsFrame_waitCommand s
  obtain ⟨hgap, hblock, hp⟩ := h.poll_frame
  have hcaller : SameCaller s { relayPoll (elapse s) with relay := s.relay } :=
    SameCaller.trans (t := elapse s) ⟨rfl, rfl, rfl, rfl, rfl, rfl, rfl, rfl, rfl⟩ (relayPoll_sameCaller (elapse s))
  refine ⟨fun hn => ?_, fun hn he => ?_, fun hn he => ?_⟩
  · exact ⟨_, hstep, h.poll_enough hn, hgap, hblock, hcaller, hp⟩
  · rw [hstep, h.poll_waiting hn he, ← hrelay]
    rfl
  · exact ⟨_, hstep, h.poll_expired hn he, hgap, hblock, hcaller, hp⟩

/-! ### The loop -/

/-- Settles O51: the header and the reply are one action each, the read is O12's, and the start is an acceptance. -/
theorem relayLoopActions : Obligations.RelayLoopActions := by
  intro s ho hst hr hact bytes
  have hstep : step s = .next (relayAct (s.gapLeft == 0) (elapse s)) := by
    rw [step_of_quiet ho, tick_idle hr hst, hact]
    rfl
  have hread := fun hrelay => commandReadEndsOrWaits s ho hst hr hrelay (.inr hact)
  refine ⟨fun hrelay hfew => ?_, fun n m rest hrelay hbytes => ?_, fun hrelay => (hread hrelay).2.1,
    fun hrelay => (hread hrelay).2.2, fun hrelay => (hread hrelay).1, fun hrelay hg => ?_, fun hrelay hg => ?_,
    fun hrelay => ?_⟩
  · rw [hstep, relayAct_of_few (s := elapse s) hrelay hfew]
  · set u : State := { elapse s with
      hostIn := rest, frameN := n, frameM := m, frameCmd := s.portCmdBase, frameResp := s.portRespBase,
      frameTick := s.now + 1 } with hu
    have h : ReadsFrame 1 s.portCmdBase n rest s u :=
      ⟨rfl, rfl, rfl, rfl, rfl, ⟨rfl, rfl, rfl, ⟨rfl, rfl⟩, ⟨rfl, rfl, rfl, rfl, rfl, rfl⟩, ⟨rfl, rfl, rfl, rfl⟩⟩,
        (passed_elapse s).congr rfl rfl rfl rfl rfl rfl⟩
    have hbegun : FrameBegun n m s u := ⟨rfl, rfl, rfl, rfl, rfl, rfl, rfl, rfl⟩
    have hpoll : step s = .next (relayPoll u) := by
      rw [hstep, relayAct_of_header (s := elapse s) hrelay hbytes]
      rfl
    obtain ⟨hgap, hblock, hp⟩ := h.poll_frame
    refine ⟨_, hpoll, hbegun.poll, hgap, hblock, hp, h.poll_enough, fun hn h0 => ?_, fun hn h0 => ?_⟩
    · rw [h.poll_waiting hn (by show s.now + 1 < s.now + 1 + _; omega)]
      exact ⟨rfl, rfl, fun _ => rfl⟩
    · exact h.poll_expired hn (by show s.now + 1 + _ ≤ s.now + 1; omega)
  · refine ⟨relayStart (elapse s), ?_, rfl, rfl, rfl, rfl, rfl, rfl, rfl, rfl, rfl, rfl, rfl, rfl, fun _ => rfl,
      (passed_elapse s).congr rfl rfl rfl rfl rfl rfl⟩
    rw [hstep, relayAct_of_transact (s := elapse s) hrelay, hg]
    rfl
  · rw [hstep, relayAct_of_transact (s := elapse s) hrelay, beq_false_of_ne hg.ne']
    rfl
  · refine ⟨relayReply (elapse s), ?_, rfl, rfl,
      ⟨rfl, rfl, rfl, ⟨rfl, rfl⟩, ⟨rfl, rfl, rfl, rfl, rfl, rfl⟩, ⟨rfl, rfl, rfl, rfl⟩⟩, fun _ => rfl,
      (passed_elapse s).congr rfl rfl rfl rfl rfl rfl⟩
    rw [hstep, relayAct_of_reply (s := elapse s) hrelay]

/-- Settles O49: one action after the tick's passing. -/
theorem relayReplyWritesTheBuffer : Obligations.RelayReplyWritesTheBuffer := fun s _ hst hr =>
  ⟨relayReply (elapse s), memReadList s s.frameResp s.frameM.toNat, congrArg Host.Outcome.next (presentCaller_of_idle hst hr), rfl,
    by simp [memReadList], fun j hj => by simp [memReadList, hj], rfl, hst, rfl, rfl, fun _ => rfl, ⟨rfl, rfl⟩,
    ⟨rfl, rfl, rfl, rfl, rfl, rfl⟩, ⟨rfl, rfl, rfl, rfl⟩, (passed_elapse s).congr rfl rfl rfl rfl rfl rfl⟩

/-- Settles O50: one action after the tick's passing. -/
theorem relayDropWritesNothing : Obligations.RelayDropWritesNothing := fun _ hst hr =>
  ⟨_, congrArg Host.Outcome.next (presentCaller_of_idle hst hr), rfl, rfl, fun h => if_pos h, fun h => if_neg h, hst, rfl,
    rfl, fun _ => rfl, ⟨rfl, rfl⟩, ⟨rfl, rfl, rfl, rfl, rfl, rfl⟩, ⟨rfl, rfl, rfl, rfl⟩, rfl⟩

/-! ### `RELAY_FRAME` -/

/-- `k` ticks after the tick before its header was read, a frame presented in `s` whose bytes have not all come. -/
def State.framed (s : State) (n m : Byte) (k : Nat) (relay : RelayPhase) : State :=
  { elapseN k s with
    frameN := n, frameM := m, frameCmd := s.portCmdBase, frameResp := s.portRespBase, frameTick := s.now + 1, relay := relay }

section
variable (s : State) (n m : Byte) (w : Nat) (relay : RelayPhase)

theorem readsFrame_framed :
    ReadsFrame (w + 1) s.portCmdBase n (s.hostIn ++ s.arrivals (w + 1)) s (s.framed n m (w + 1) relay) := by
  refine ⟨rfl, rfl, elapseN_hostIn _ _, elapseN_mem _ _, elapseN_gap _ _, ?_,
    (passed_elapseN (w + 1) s).congr rfl rfl (elapseN_hostIn _ _).symm rfl rfl rfl⟩
  exact ⟨elapseN_st _ _, elapseN_dir _ _, elapseN_done _ _ (Nat.succ_pos w), ⟨elapseN_ie _ _, elapseN_ieSaved _ _⟩,
    ⟨elapseN_shreg _ _, elapseN_bitcnt _ _, elapseN_txidx _ _, elapseN_rxidx _ _, elapseN_cnt _ _, elapseN_curbit _ _⟩,
    ⟨elapseN_n _ _, elapseN_m _ _, elapseN_cbase _ _, elapseN_rbase _ _⟩⟩

theorem frameBegun_framed : FrameBegun n m s (s.framed n m (w + 1) relay) :=
  ⟨rfl, rfl, rfl, rfl, rfl, elapseN_portCmdBase _ _, elapseN_portRespBase _ _, elapseN_hostOut _ _⟩

theorem elapse_framed : elapse (s.framed n m w relay) = s.framed n m (w + 1) relay := by
  rw [State.framed, State.framed, elapseN_succ']
  rfl

end

/-- Bytes only come (R140). -/
theorem length_arrivals_mono (s : State) {i j : Nat} (h : i ≤ j) :
    (s.hostIn ++ s.arrivals i).length ≤ (s.hostIn ++ s.arrivals j).length := by
  induction j, h using Nat.le_induction with
  | base => exact Nat.le_refl _
  | succ j _ ih =>
    simp only [State.arrivals, List.length_append] at ih ⊢
    omega

section
variable {s : State} {n m : Byte} {w : Nat} (hst : s.st = .idle) (hr : NoReset s (w + 1)) (hw : w ≤ s.cfg.readTimeout)
  (hreads : ∀ j, 1 ≤ j → j ≤ w → s.readsOn j) (hfew : w ≠ 0 → (s.hostIn ++ s.arrivals w).length < n.toNat)
include hst hr hw hreads hfew

/-- The header's tick is a poll, and so is every tick the relay waits in (R143). -/
theorem ticks_relayFrame : ∃ relay, ticks w (relayFrame n m (elapse s)) = relayPoll (s.framed n m (w + 1) relay) := by
  induction w with
  | zero => exact ⟨s.relay, rfl⟩
  | succ w ih =>
    have hfew' := hfew (Nat.succ_ne_zero w)
    obtain ⟨relay, e⟩ := ih (hr.mono (by omega)) (by omega) (fun j h1 h2 => hreads j h1 (by omega))
      fun _ => Nat.lt_of_le_of_lt (length_arrivals_mono s (Nat.le_succ w)) hfew'
    refine ⟨.waitCommand, ?_⟩
    set v := s.framed n m (w + 1) .waitCommand with hv
    have hwait : relayPoll (s.framed n m (w + 1) relay) = v :=
      (readsFrame_framed s n m w relay).poll_waiting hfew' (by show s.now + (w + 1) < s.now + 1 + _; omega)
    have hin : ∀ j, v.inputAt j = s.inputAt (w + 1 + j) := inputAt_elapseN (w + 1) s
    have hrst : v.input.rst = false := by
      rw [input_eq_inputAt, hin]
      exact hr _ (by omega)
    have hact : v.readsOn 0 := by
      rw [State.readsOn, hin]
      exact hreads _ (by omega) (by omega)
    rw [ticks_succ', e, hwait, tick_waitCommand hrst ((elapseN_st _ _).trans hst) rfl hact, hv, elapse_framed]

/-- `RELAY_FRAME` ends in the first tick that the relay does not wait in. -/
theorem exec_relayFrame (hend : (ticks w (relayFrame n m (elapse s))).relay ≠ .waitCommand) :
    exec (.relayFrame n m) s = .next (ticks w (relayFrame n m (elapse s))) := by
  have hgo : ∀ i < w, (ticks i (relayFrame n m (elapse s))).relay = .waitCommand := fun i hi => by
    have hfew' : ∀ j ≤ w, (s.hostIn ++ s.arrivals j).length < n.toNat := fun j hj =>
      Nat.lt_of_le_of_lt (length_arrivals_mono s hj) (hfew (by omega))
    obtain ⟨relay, e⟩ := ticks_relayFrame (m := m) (w := i) hst (hr.mono (by omega)) (by omega)
      (fun j h1 h2 => hreads j h1 (by omega)) fun _ => hfew' i (by omega)
    rw [e, (readsFrame_framed s n m i relay).poll_waiting (hfew' _ hi) (by show s.now + (i + 1) < s.now + 1 + _; omega)]
  show Host.Outcome.next (if s.busy then tick s else runRelayWait (s.cfg.readTimeout + s.env.length)
    (present (relayFrame n m) s)) = _
  rw [if_neg (by simp [State.busy, hst]), present_of_noRst hr.head, runRelayWait_eq (j := w) (by omega) hgo hend]

end

/-- Settles O46: the last poll finds all bytes. -/
theorem relayFramePlacesTheCommand : Obligations.RelayFramePlacesTheCommand := by
  intro s n m w hst hr hw hreads hfew hn
  obtain ⟨relay, e⟩ := ticks_relayFrame (m := m) hst hr hw hreads hfew
  have h := readsFrame_framed s n m w relay
  have hplaced := h.poll_enough hn
  obtain ⟨hgap, hblock, hp⟩ := h.poll_frame
  have hexec := exec_relayFrame hst hr hw hreads hfew (m := m) (by rw [e, hplaced.relay]; decide)
  exact ⟨_, hexec.trans (congrArg _ e), (frameBegun_framed s n m w relay).poll, hplaced, hgap, hblock, hp⟩

/-- Settles O47: the poll `RELAY_READ_TIMEOUT` ticks after the header's finds the timeout elapsed. -/
theorem relayFrameDropsOnTimeout : Obligations.RelayFrameDropsOnTimeout := by
  intro s n m w hst hr hreads hn
  have hfew : w ≠ 0 → (s.hostIn ++ s.arrivals w).length < n.toNat :=
    fun _ => Nat.lt_of_le_of_lt (length_arrivals_mono s (Nat.le_succ w)) hn
  obtain ⟨relay, e⟩ := ticks_relayFrame (m := m) hst hr (Nat.le_refl w) hreads hfew
  have h := readsFrame_framed s n m w relay
  have hdropped := h.poll_expired hn (by show s.now + 1 + w ≤ s.now + (w + 1); omega)
  obtain ⟨hgap, hblock, hp⟩ := h.poll_frame
  have hexec := exec_relayFrame hst hr (Nat.le_refl w) hreads hfew (m := m) (by rw [e, hdropped.relay]; decide)
  exact ⟨_, hexec.trans (congrArg _ e), (frameBegun_framed s n m w relay).poll, hdropped, hgap, hblock, hp⟩

/-- Settles O48: every poll so far finds bytes missing and time left. -/
theorem relayFrameWaitsForItsBytes : Obligations.RelayFrameWaitsForItsBytes := by
  intro s n m w hst hr hw hreads hn t
  obtain ⟨relay, e⟩ := ticks_relayFrame (m := m) hst hr (Nat.le_of_lt hw) hreads
    fun _ => Nat.lt_of_le_of_lt (length_arrivals_mono s (Nat.le_succ w)) hn
  have ht : t = s.framed n m (w + 1) .waitCommand :=
    e.trans ((readsFrame_framed s n m w relay).poll_waiting hn (by show s.now + (w + 1) < s.now + 1 + _; omega))
  have h := readsFrame_framed s n m w .waitCommand
  rw [ht]
  exact ⟨rfl, frameBegun_framed s n m w _, fun _ => by rw [memRead, h.mem, memRead], h.gap, h.block,
    (passed_elapseN (w + 1) s).congr rfl rfl rfl rfl rfl rfl⟩

end Sys2Proof.Machine
